-- ==== Sys2Proof/Word.lean ====
section
/-! DEFINITION. The widths of the machine (00_scope.md R8): bytes and characters of 8 bits, command and response
words of 64, payloads of 40 (five byte lanes), accumulators of 32. -/

namespace Sys2Proof

/-- A byte, or a character as its code point (00_scope.md R8, R13). -/
abbrev Byte := BitVec 8

/-- A command or response word; bit 0 is the least significant bit (00_scope.md R9). -/
abbrev Word := BitVec 64

/-- The 40-bit payload: lanes `L0..L4`, `L0` in the high bits (00_scope.md R12). -/
abbrev Payload := BitVec 40

/-- The source's 32-bit accumulator (10_state.md R31). -/
abbrev Acc := BitVec 32

end Sys2Proof
end

