-- ==== Sys2Proof/Config.lean ====
section
/-! DEFINITION. What an implementation fixes when it is built (00_scope.md R8), and the one free value the spec leaves
open (43_stream.md R163). -/

namespace Sys2Proof

/-- `LONE_TAIL_POLICY`: what a one-character group other than `z` means (42_decoder.md R128). -/
inductive LoneTailPolicy where
  | checks   -- validate, pad, check overflow, emit no byte (the default)
  | reject   -- BAD_DECODE_CHAR, whatever the character
deriving DecidableEq, Repr

/-- `CAPACITY_CHECK`: when a stream call compares its output with the capacity (43_stream.md R150, R151, R158). -/
inductive CapacityCheck where
  | exact      -- group by group only (the default)
  | worstCase  -- also the worst case, up front
deriving DecidableEq, Repr

/-- The build-time parameters of 00_scope.md R8 that a run depends on. "The parameters of 00_scope.md rule R8 are fixed
when the hardware is built" (10_state.md R30): State carries them and no step changes them (log entry 2). -/
structure Params where
  loneTail      : LoneTailPolicy
  capacityCheck : CapacityCheck
  encLatency    : Nat
  decLatency    : Nat
deriving DecidableEq, Repr

/-- The spec's defaults, and the least latency it allows (DESIGN CHOICE, log entry 2: the latencies are OPEN). -/
def Params.default : Params :=
  { loneTail := .checks, capacityCheck := .exact, encLatency := 1, decLatency := 1 }

/-- `SENT_CAPACITY`, `SENT_BAD_CHAR`, `SENT_OVERFLOW`: OPEN, the caller of the int32 mapping supplies them
(43_stream.md R170, log entry 14). -/
structure Sentinels where
  capacity : BitVec 32
  badChar  : BitVec 32
  overflow : BitVec 32
deriving DecidableEq, Repr

/-- FREE VALUE: the bytes that stand in `OUT` after a call that returned `Err` or was cut by a reset. "The contents of
`OUT[0..C)` are unspecified, and a model of the contract takes them as any value" (43_stream.md R163; log entry 8). -/
opaque Config.freeByte : Nat → Byte

end Sys2Proof
end

