-- ==== Sys2Proof/Syntax.lean ====
section
/-! DEFINITION. The two engines, the fields of a command word, the 11 commands of the opcode table, the status codes
and the results of a stream call. -/

namespace Sys2Proof

/-- The two engines (00_scope.md R1, R3). -/
inductive EngineId where
  | enc   -- base85_encoder
  | dec   -- base85_decoder
deriving DecidableEq, Repr

/-- The fields of a command word (30_encoding.md R66). -/
structure Command where
  op      : BitVec 4
  cnt     : BitVec 3
  rsv     : BitVec 17
  payload : Payload
deriving DecidableEq, Repr

/-- The commands of spec/opcode_table.json, one constructor a row, with the lanes the command uses as operands
(30_encoding.md R67, R68, R82). Lanes a command does not use are ignored by the engine and are no operand (R81). -/
inductive Instr where
  | enc0                              -- enc.0: the empty group
  | enc1 (b0 : Byte)                  -- enc.1: one byte
  | enc2 (b0 b1 : Byte)               -- enc.2: two bytes
  | enc3 (b0 b1 b2 : Byte)            -- enc.3: three bytes
  | enc4 (b0 b1 b2 b3 : Byte)         -- enc.4: a full group
  | dec0                              -- dec.0: the empty group
  | dec1 (c0 : Byte)                  -- dec.1: `z`, or a lone character
  | dec2 (c0 c1 : Byte)               -- dec.2: two characters
  | dec3 (c0 c1 c2 : Byte)            -- dec.3: three characters
  | dec4 (c0 c1 c2 c3 : Byte)         -- dec.4: four characters
  | dec5 (c0 c1 c2 c3 c4 : Byte)      -- dec.5: a full group
deriving DecidableEq, Repr

/-- The engine a command is legal on (30_encoding.md R82). -/
def Instr.engine : Instr → EngineId
  | .enc0 => .enc
  | .enc1 _ => .enc
  | .enc2 _ _ => .enc
  | .enc3 _ _ _ => .enc
  | .enc4 _ _ _ _ => .enc
  | .dec0 => .dec
  | .dec1 _ => .dec
  | .dec2 _ _ => .dec
  | .dec3 _ _ _ => .dec
  | .dec4 _ _ _ _ => .dec
  | .dec5 _ _ _ _ _ => .dec

/-- The outcome codes (30_encoding.md R73). -/
inductive Status where
  | ok               -- 0
  | badDecodeChar    -- 1, DEC only
  | decodeOverflow   -- 2, DEC only
  | capacity         -- 3, never in a response
  | illegalCommand   -- 4
deriving DecidableEq, Repr

/-- The error kinds of a stream call (43_stream.md R147). -/
inductive ErrKind where
  | capacity
  | badDecodeChar
  | decodeOverflow
deriving DecidableEq, Repr

/-- What a stream call returns (43_stream.md R147). -/
inductive CallResult where
  | ok (len : Nat)
  | err (kind : ErrKind)
deriving DecidableEq, Repr

/-- The three classes of the character code (30_encoding.md R79). -/
inductive CharClass where
  | digit (d : Nat)
  | shortcut
  | invalid
deriving DecidableEq, Repr

/-- One row of the opcode table (30_encoding.md R82). -/
structure OpcodeRow where
  mnemonic : String
  engine   : EngineId
  pattern  : Word
  mask     : Word
deriving DecidableEq, Repr

/-- A channel transaction: the word accepted and the word returned (70_reset_and_hazards.md R209). -/
structure Transaction where
  cmd : Word
  rsp : Word
deriving DecidableEq, Repr

end Sys2Proof
end

