-- ==== Sys2Proof/WellFormed.lean ====
section
/-! DEFINITION. The well-formedness checks. An `Instr` needs none: each operand is a byte, and every byte is allowed in
every used lane (30_encoding.md R67, R68). What can be ill-formed is a command's fields, a build's parameters and a
host's sentinels. -/

namespace Sys2Proof

/-- The engine's own `op` (30_encoding.md R66). -/
def EngineId.opcode : EngineId → BitVec 4
  | .enc => 1
  | .dec => 2

/-- The largest legal `cnt` (30_encoding.md R66). -/
def EngineId.maxCount : EngineId → Nat
  | .enc => 4
  | .dec => 5

/-- The command is legal for engine `e`: none of the grounds of 30_encoding.md R80 holds. -/
def Command.legalFor (c : Command) (e : EngineId) : Bool :=
  c.op = e.opcode && c.rsv = 0 && decide (c.cnt.toNat ≤ e.maxCount)

/-- The latencies are "at least 1 rising edge each" (00_scope.md R8). -/
def Params.wf (p : Params) : Bool :=
  decide (1 ≤ p.encLatency) && decide (1 ≤ p.decLatency)

/-- "three distinct values with `sext_32` value < 0" (43_stream.md R170). -/
def Sentinels.wf (t : Sentinels) : Bool :=
  t.capacity != t.badChar && t.capacity != t.overflow && t.badChar != t.overflow
    && decide (t.capacity.toInt < 0) && decide (t.badChar.toInt < 0) && decide (t.overflow.toInt < 0)

end Sys2Proof
end

