-- ==== Sys2Proof/Decode.lean ====
section
/-! DEFINITION. The decoder, total on every 64-bit word, and after it the encoder and the opcode table, all from
30_encoding.md. -/

namespace Sys2Proof

/-- Why a word is no command (30_encoding.md R80). -/
inductive DecodeError where
  | reservedOp     -- `op` is neither 0x1 nor 0x2
  | reservedBits   -- `rsv ≠ 0`
  | countRange     -- `cnt` beyond 4 (ENC) or 5 (DEC)
  | wrongEngine    -- the other engine's operation
deriving DecidableEq, Repr

/-- The fields of a command word (30_encoding.md R66). -/
def commandOf (w : Word) : Command :=
  { op := w.extractLsb' 60 4, cnt := w.extractLsb' 57 3, rsv := w.extractLsb' 40 17, payload := w.extractLsb' 0 40 }

/-- The word with these fields (30_encoding.md R66). -/
def wordOf (c : Command) : Word :=
  c.op.setWidth 64 <<< 60 ||| c.cnt.setWidth 64 <<< 57 ||| c.rsv.setWidth 64 <<< 40 ||| c.payload.setWidth 64

/-- Lane `Li` of a payload: bits `[39-8i : 32-8i]` (00_scope.md R12). -/
def lane (p : Payload) (i : Nat) : Byte :=
  p.extractLsb' (8 * (4 - i)) 8

/-- The payload with these lanes (00_scope.md R12). -/
def lanes (l0 l1 l2 l3 l4 : Byte) : Payload :=
  l0.setWidth 40 <<< 32 ||| l1.setWidth 40 <<< 24 ||| l2.setWidth 40 <<< 16 ||| l3.setWidth 40 <<< 8 |||
    l4.setWidth 40

/-- The ENC rows of 30_encoding.md R82: input byte `b_k` is in lane `L(k+1)` (R67). -/
def decodeEnc (c : Command) : Except DecodeError Instr :=
  if c.rsv ≠ 0 then .error .reservedBits
  else match c.cnt.toNat with
    | 0 => .ok .enc0
    | 1 => .ok (.enc1 (lane c.payload 1))
    | 2 => .ok (.enc2 (lane c.payload 1) (lane c.payload 2))
    | 3 => .ok (.enc3 (lane c.payload 1) (lane c.payload 2) (lane c.payload 3))
    | 4 => .ok (.enc4 (lane c.payload 1) (lane c.payload 2) (lane c.payload 3) (lane c.payload 4))
    | _ => .error .countRange

/-- The DEC rows of 30_encoding.md R82: input character `c_k` is in lane `Lk` (R68). -/
def decodeDec (c : Command) : Except DecodeError Instr :=
  if c.rsv ≠ 0 then .error .reservedBits
  else match c.cnt.toNat with
    | 0 => .ok .dec0
    | 1 => .ok (.dec1 (lane c.payload 0))
    | 2 => .ok (.dec2 (lane c.payload 0) (lane c.payload 1))
    | 3 => .ok (.dec3 (lane c.payload 0) (lane c.payload 1) (lane c.payload 2))
    | 4 => .ok (.dec4 (lane c.payload 0) (lane c.payload 1) (lane c.payload 2) (lane c.payload 3))
    | 5 => .ok (.dec5 (lane c.payload 0) (lane c.payload 1) (lane c.payload 2) (lane c.payload 3) (lane c.payload 4))
    | _ => .error .countRange

/-- The command a word stands for, or why it is none (30_encoding.md R80, R83). -/
def decode (w : Word) : Except DecodeError Instr :=
  let c := commandOf w
  if c.op = EngineId.enc.opcode then decodeEnc c
  else if c.op = EngineId.dec.opcode then decodeDec c
  else .error .reservedOp

/-- The command a word stands for on engine `e`: "each engine's operation is illegal on the other" (30_encoding.md R80). -/
def decodeFor (e : EngineId) (w : Word) : Except DecodeError Instr :=
  match decode w with
  | .ok i => if i.engine = e then .ok i else .error .wrongEngine
  | .error x => .error x

/-- The command word of 30_encoding.md R82, every unused lane 0 as the assembler writes it (R85). -/
def commandWord (e : EngineId) (n : Nat) (p : Payload) : Word :=
  wordOf { op := e.opcode, cnt := BitVec.ofNat 3 n, rsv := 0, payload := p }

/-- The word of a command (30_encoding.md R67, R68, R82). -/
def encode : Instr → Word
  | .enc0 => commandWord .enc 0 (lanes 0 0 0 0 0)
  | .enc1 b0 => commandWord .enc 1 (lanes 0 b0 0 0 0)
  | .enc2 b0 b1 => commandWord .enc 2 (lanes 0 b0 b1 0 0)
  | .enc3 b0 b1 b2 => commandWord .enc 3 (lanes 0 b0 b1 b2 0)
  | .enc4 b0 b1 b2 b3 => commandWord .enc 4 (lanes 0 b0 b1 b2 b3)
  | .dec0 => commandWord .dec 0 (lanes 0 0 0 0 0)
  | .dec1 c0 => commandWord .dec 1 (lanes c0 0 0 0 0)
  | .dec2 c0 c1 => commandWord .dec 2 (lanes c0 c1 0 0 0)
  | .dec3 c0 c1 c2 => commandWord .dec 3 (lanes c0 c1 c2 0 0)
  | .dec4 c0 c1 c2 c3 => commandWord .dec 4 (lanes c0 c1 c2 c3 0)
  | .dec5 c0 c1 c2 c3 c4 => commandWord .dec 5 (lanes c0 c1 c2 c3 c4)

/-- The bits of a word its command reads: `[63:40]` and the used lanes (30_encoding.md R67, R68, R82). -/
def usedMask : Instr → Word
  | .enc0 => 0xFFFFFF0000000000
  | .enc1 _ => 0xFFFFFF00FF000000
  | .enc2 _ _ => 0xFFFFFF00FFFF0000
  | .enc3 _ _ _ => 0xFFFFFF00FFFFFF00
  | .enc4 _ _ _ _ => 0xFFFFFF00FFFFFFFF
  | .dec0 => 0xFFFFFF0000000000
  | .dec1 _ => 0xFFFFFFFF00000000
  | .dec2 _ _ => 0xFFFFFFFFFF000000
  | .dec3 _ _ _ => 0xFFFFFFFFFFFF0000
  | .dec4 _ _ _ _ => 0xFFFFFFFFFFFFFF00
  | .dec5 _ _ _ _ _ => 0xFFFFFFFFFFFFFFFF

/-- The mask of every row: bits `[63:40]` (30_encoding.md R82). -/
def rowMask : Word := 0xFFFFFF0000000000

/-- The opcode table of 30_encoding.md R82, in its order. -/
def opcodeTable : List OpcodeRow :=
  [ ⟨"enc.0", .enc, 0x1000000000000000, rowMask⟩,
    ⟨"enc.1", .enc, 0x1200000000000000, rowMask⟩,
    ⟨"enc.2", .enc, 0x1400000000000000, rowMask⟩,
    ⟨"enc.3", .enc, 0x1600000000000000, rowMask⟩,
    ⟨"enc.4", .enc, 0x1800000000000000, rowMask⟩,
    ⟨"dec.0", .dec, 0x2000000000000000, rowMask⟩,
    ⟨"dec.1", .dec, 0x2200000000000000, rowMask⟩,
    ⟨"dec.2", .dec, 0x2400000000000000, rowMask⟩,
    ⟨"dec.3", .dec, 0x2600000000000000, rowMask⟩,
    ⟨"dec.4", .dec, 0x2800000000000000, rowMask⟩,
    ⟨"dec.5", .dec, 0x2A00000000000000, rowMask⟩ ]

/-- The word matches the row. -/
def OpcodeRow.matches (r : OpcodeRow) (w : Word) : Bool :=
  (w &&& r.mask) == r.pattern

/-- A command's row mnemonic (30_encoding.md R82). -/
def Instr.mnemonic : Instr → String
  | .enc0 => "enc.0"
  | .enc1 _ => "enc.1"
  | .enc2 _ _ => "enc.2"
  | .enc3 _ _ _ => "enc.3"
  | .enc4 _ _ _ _ => "enc.4"
  | .dec0 => "dec.0"
  | .dec1 _ => "dec.1"
  | .dec2 _ _ => "dec.2"
  | .dec3 _ _ _ => "dec.3"
  | .dec4 _ _ _ _ => "dec.4"
  | .dec5 _ _ _ _ _ => "dec.5"

/-- The instruction the decoder reads from a word given as a number, bit 0 the least significant (the one word of a
command; bits at and above `nbits` are 0). -/
def decodeTableWord (nbits w : Nat) : Option Instr :=
  match decode (BitVec.ofNat 64 (w % 2 ^ nbits)) with
  | .ok i => some i
  | .error _ => none

end Sys2Proof
end

