-- ==== Sys2Proof/Machine/State.lean ====
section
/-! DEFINITION. The state of the machine as plain data: the two engines of 10_state.md R21, the build's parameters, the
host's stream calls, and what drives the ports. -/

namespace Sys2Proof.Machine

/-- Why a step stops with a fault. The block itself "raises no trap or exception" (60_exceptions.md R176): both reasons
belong to the host side, and no run from reset reaches either. -/
inductive Fault where
  /-- Raised when a stream call takes a response that no conforming engine gives (30_encoding.md R81: "A model that
  receives one from a device has seen a fault of the device"; 93_implementation_defined.md U10). Safe: it stops. -/
  | nonConformingResponse
  /-- Raised when a stream call would read or write a buffer outside it, which "never happens" (20_memory.md R50,
  43_stream.md R162). Safe: it stops. -/
  | outsideBuffer
deriving DecidableEq, Repr

/-- Why a step, or a host function, has no meaning. -/
inductive Refusal where
  /-- Raised by `exec` for an instruction without a meaning. Safe; no instruction of this model is so. -/
  | notModelled (mnemonic : String)
  /-- Raised when a stream call whose `IN` and `OUT` overlap would start: "a model refuses it" (20_memory.md R48). Safe. -/
  | overlappingBuffers
  /-- Raised by the int32 mapping for a length above 2^31 - 1 (43_stream.md R170, 93_implementation_defined.md U15). Safe. -/
  | lengthBeyondInt32
deriving DecidableEq, Repr

/-- An engine's control state (10_state.md R21, R22). -/
inductive Phase where
  | idle
  | busy
  | done
deriving DecidableEq, Repr

/-- An engine's registers (10_state.md R21). -/
structure Engine where
  phase : Phase
  cmd   : Word
  rsp   : Word
deriving DecidableEq, Repr

/-- What the model keeps beside an engine (its own fields, log entries 3, 16, 17): the edges still to pass before
EXECUTE, the call that issued the outstanding command, and the responses taken so far, newest first. -/
structure Channel where
  wait  : Nat
  owner : Option Nat
  log   : List Transaction
deriving DecidableEq, Repr

/-- A byte memory: (address, byte) pairs in the canonical form of `Memory.wf`. -/
structure Memory where
  cells : List Host.Cell
deriving DecidableEq, Repr

/-- A caller's buffer: only the indices below `size` exist (20_memory.md R47). -/
structure Buffer where
  size : Nat
  mem  : Memory
deriving DecidableEq, Repr

/-- Where a stream call stands. -/
inductive CallStat where
  | start                            -- not begun
  | ready                            -- between groups: the next command is to be issued
  | waiting (n : Nat)                -- the command of a group of `n` units is outstanding
  | finished (result : CallResult)   -- returned (43_stream.md R147)
  | cut                              -- interrupted by a reset: no result (70_reset_and_hazards.md R197)
deriving DecidableEq, Repr

/-- A stream call, `encode` on ENC or `decode` on DEC (43_stream.md R146): its buffers, where the platform placed them
(20_memory.md R48, R55), and the loop variables of 43_stream.md R149 and R156. -/
structure Call where
  kind    : EngineId
  input   : Buffer
  inAddr  : Nat
  output  : Buffer
  outAddr : Nat
  i       : Nat
  w       : Nat
  stat    : CallStat
deriving DecidableEq, Repr

/-- What stands on a request channel: a word, or whatever the call with this number has to present. -/
inductive Source where
  | word (w : Word)
  | call (k : Nat)
deriving DecidableEq, Repr

/-- One engine's inputs at one rising edge (10_state.md R26): `req_valid` and `req_data` (none: `req_valid` is 0),
`rsp_ready`, and by how many edges the engine exceeds its latency for a command accepted here
(70_reset_and_hazards.md R207; log entry 3). -/
structure Port where
  req      : Option Source
  rspReady : Bool
  extra    : Nat
deriving DecidableEq, Repr

/-- The inputs at one rising edge of `clk` (10_state.md R26). -/
structure Edge where
  rst : Bool
  enc : Port
  dec : Port
deriving DecidableEq, Repr

/-- The machine. -/
structure State where
  enc    : Engine
  dec    : Engine
  encCh  : Channel
  decCh  : Channel
  params : Params
  calls  : List Call
  inputs : List Edge
  free   : Nat
deriving DecidableEq, Repr

/-- The reset values of 10_state.md R33. -/
def Engine.reset : Engine :=
  { phase := .idle, cmd := 0, rsp := 0 }

/-- A channel on which nothing has happened (log entries 3, 16, 17). -/
def Channel.reset : Channel :=
  { wait := 0, owner := none, log := [] }

/-- The launch state (70_reset_and_hazards.md R198): both engines as 10_state.md R33 says, the spec's default
parameters, no call loaded and no input coming (log entries 2, 5, 8). -/
def State.reset : State :=
  { enc := Engine.reset, dec := Engine.reset, encCh := Channel.reset, decCh := Channel.reset,
    params := Params.default, calls := [], inputs := [], free := 0 }

end Sys2Proof.Machine
end

