-- ==== Sys2Proof/Machine/Flags.lean ====
section
/-! DEFINITION. The outcome fields. "The engines have no flag or condition-code register. The per-command outcome is
reported in fields of the response word" (10_state.md R29): the status codes, the response word and its fields. -/

namespace Sys2Proof.Machine

/-- The 3-bit code of a status (30_encoding.md R73). -/
def statusCode : Status → BitVec 3
  | .ok => 0
  | .badDecodeChar => 1
  | .decodeOverflow => 2
  | .capacity => 3
  | .illegalCommand => 4

/-- The status with this code; 5, 6 and 7 are reserved (30_encoding.md R73). -/
def statusOfCode (c : BitVec 3) : Option Status :=
  match c.toNat with
  | 0 => some .ok
  | 1 => some .badDecodeChar
  | 2 => some .decodeOverflow
  | 3 => some .capacity
  | 4 => some .illegalCommand
  | _ => none

/-- The response word: `(status << 61) | (ocnt << 58) | (epos << 55) | (zf << 54) | payload`, the counts 3 bits wide
(41_encoder.md R96, 30_encoding.md R72). -/
def pack (st : Status) (ocnt epos : Nat) (zf : Bool) (payload : Payload) : Word :=
  (statusCode st).setWidth 64 <<< 61 ||| (BitVec.ofNat 3 ocnt).setWidth 64 <<< 58 |||
    (BitVec.ofNat 3 epos).setWidth 64 <<< 55 ||| (BitVec.ofBool zf).setWidth 64 <<< 54 ||| payload.setWidth 64

/-- `status`, bits [63:61] (30_encoding.md R72). -/
def rspStatus (r : Word) : BitVec 3 := r.extractLsb' 61 3

/-- `ocnt`, bits [60:58] (30_encoding.md R72). -/
def rspOcnt (r : Word) : Nat := (r.extractLsb' 58 3).toNat

/-- `epos`, bits [57:55] (30_encoding.md R72). -/
def rspEpos (r : Word) : Nat := (r.extractLsb' 55 3).toNat

/-- `zf`, bit [54] (30_encoding.md R72). -/
def rspZf (r : Word) : Bool := r.getLsbD 54

/-- `rrsv`, bits [53:40], "always 0" (30_encoding.md R72). -/
def rspReserved (r : Word) : BitVec 14 := r.extractLsb' 40 14

/-- The payload, bits [39:0] (30_encoding.md R72). -/
def rspPayload (r : Word) : Payload := r.extractLsb' 0 40

/-- `raise S(info)`: "The response then carries status `S` and the named info, and every other response field" is 0
(00_scope.md R11, 41_encoder.md R97, 42_decoder.md R117). The one way an error is reported: the block has no traps, and
an error "writes only the response word, the same as a successful command" (60_exceptions.md R182). -/
def raise (st : Status) (epos : Nat) : Word :=
  pack st 0 epos false 0

/-- The code of a phase (10_state.md R21); 3 is never held. -/
def phaseCode : Phase → BitVec 2
  | .idle => 0
  | .busy => 1
  | .done => 2

end Sys2Proof.Machine
end

