-- ==== Sys2Proof/Machine/Operands.lean ====
section
/-! DEFINITION. The operand forms and the two datapaths on them: the big-endian accumulator and the radix-85 digits of
41_encoder.md, the character classes, the validator, the padding and the polynomial of 42_decoder.md. -/

namespace Sys2Proof.Machine

/-- The lane of a group's first input unit: bytes start in `L1`, characters in `L0` (30_encoding.md R67, R68). -/
def inLane : EngineId → Nat
  | .enc => 1
  | .dec => 0

/-- The lane of a group's first output unit: characters start in `L0`, bytes in `L1` (30_encoding.md R74). -/
def outLane : EngineId → Nat
  | .enc => 0
  | .dec => 1

/-- The units one after another in the lanes from `Ll` on, every other lane 0 (the OR of 43_stream.md R149 and R156). -/
def orLanes : List Byte → Nat → Payload
  | [], _ => 0
  | b :: bs, l => (b.setWidth 40 <<< (8 * (4 - l))) ||| orLanes bs (l + 1)

/-- The big-endian accumulator of four bytes (41_encoder.md R99, 20_memory.md R49). -/
def accOf (b0 b1 b2 b3 : Byte) : Acc :=
  b0.setWidth 32 <<< 24 ||| b1.setWidth 32 <<< 16 ||| b2.setWidth 32 <<< 8 ||| b3.setWidth 32

/-- `DIGIT(acc, i) = (acc / 85^(4−i)) mod 85` (41_encoder.md R100). -/
def digit (acc : Acc) (i : Nat) : Nat :=
  acc.toNat / 85 ^ (4 - i) % 85

/-- The character of a digit: `code = d + 33` (30_encoding.md R79, 41_encoder.md R100). -/
def digitChar (acc : Acc) (i : Nat) : Byte :=
  BitVec.ofNat 8 (digit acc i + 33)

/-- The shortcut character `z` (30_encoding.md R79). -/
def shortcutChar : Byte := 0x7A

/-- "digit: code points 33 (`'!'`) to 117 (`'u'`) inclusive" (30_encoding.md R79, 42_decoder.md R121). -/
def isDigit (c : Byte) : Bool :=
  decide (33 ≤ c.toNat) && decide (c.toNat ≤ 117)

/-- The digit value of a digit character: `d = code − 33` (30_encoding.md R79). -/
def digitValue (c : Byte) : Nat :=
  c.toNat - 33

/-- The class of a code point (30_encoding.md R79). -/
def classOf (c : Byte) : CharClass :=
  if isDigit c then .digit (digitValue c) else if c = shortcutChar then .shortcut else .invalid

/-- The digit validator: the lowest position, counted from `k`, of a character outside the alphabet (42_decoder.md R121). -/
def firstInvalid : List Byte → Nat → Option Nat
  | [], _ => none
  | c :: cs, k => if isDigit c then firstInvalid cs (k + 1) else some k

/-- The digit of position `k` of a group, 84 (`'u'`) where the group has no character (42_decoder.md R123). -/
def paddedDigit (cs : List Byte) (k : Nat) : Nat :=
  match cs[k]? with
  | some c => digitValue c
  | none => 84

/-- `V = Σ d_k·85^(4−k)`, exact (42_decoder.md R125). -/
def polyValue (cs : List Byte) : Nat :=
  paddedDigit cs 0 * 85 ^ 4 + paddedDigit cs 1 * 85 ^ 3 + paddedDigit cs 2 * 85 ^ 2 + paddedDigit cs 3 * 85
    + paddedDigit cs 4

/-- `DEC.ovf`: the true value exceeds 2^32 - 1 (10_state.md R31, 42_decoder.md R125). -/
def decOvf (cs : List Byte) : Bool :=
  decide (2 ^ 32 - 1 < polyValue cs)

/-- `DEC.acc = trunc_32(V)` (10_state.md R31, 42_decoder.md R125). -/
def decAcc (cs : List Byte) : Acc :=
  BitVec.ofNat 32 (polyValue cs)

/-- One edge of a serial evaluator: `a_{k+1} = trunc_32(85·a_k + d_k)` (42_decoder.md R125). -/
def serialStep (a : Acc) (d : Nat) : Acc :=
  BitVec.ofNat 32 (85 * a.toNat + d)

/-- `a_4` of the serial evaluator (42_decoder.md R125). -/
def serialFour (cs : List Byte) : Acc :=
  serialStep (serialStep (serialStep (serialStep 0 (paddedDigit cs 0)) (paddedDigit cs 1)) (paddedDigit cs 2))
    (paddedDigit cs 3)

/-- `DEC.acc = a_5` of the serial evaluator (42_decoder.md R125). -/
def serialAcc (cs : List Byte) : Acc :=
  serialStep (serialFour cs) (paddedDigit cs 4)

/-- `DEC.ovf = (85·a_4 + d_4 ≥ 2^32)` of the serial evaluator (42_decoder.md R125). -/
def serialOvf (cs : List Byte) : Bool :=
  decide (2 ^ 32 ≤ 85 * (serialFour cs).toNat + paddedDigit cs 4)

/-- The first `j` bytes of a word in lanes `L1..Lj`, the rest 0 (42_decoder.md R126). -/
def highBytes (o : Acc) (j : Nat) : Payload :=
  ((o >>> (8 * (4 - j))) <<< (8 * (4 - j))).setWidth 40

end Sys2Proof.Machine
end

