-- ==== Sys2Proof/Machine/Ops.lean ====
section
/-! DEFINITION. The named operations over the engines and over byte memories, and the three steps of an engine
(70_reset_and_hazards.md). -/

namespace Sys2Proof.Machine

/-- Go on with the next state of an outcome, or stop as it stops. -/
def andThen {α β : Type} (o : Host.Outcome α Fault Refusal) (f : α → Host.Outcome β Fault Refusal) :
    Host.Outcome β Fault Refusal :=
  match o with
  | .next a => f a
  | .fault r => .fault r
  | .refused r => .refused r

/-- The registers of engine `e`. -/
def State.engine (s : State) : EngineId → Engine
  | .enc => s.enc
  | .dec => s.dec

/-- Write the registers of engine `e`. -/
def State.setEngine (s : State) (e : EngineId) (r : Engine) : State :=
  match e with
  | .enc => { s with enc := r }
  | .dec => { s with dec := r }

/-- What the model keeps beside engine `e`. -/
def State.channel (s : State) : EngineId → Channel
  | .enc => s.encCh
  | .dec => s.decCh

/-- Write what the model keeps beside engine `e`. -/
def State.setChannel (s : State) (e : EngineId) (c : Channel) : State :=
  match e with
  | .enc => { s with encCh := c }
  | .dec => { s with decCh := c }

/-- `E_LATENCY` (00_scope.md R8). -/
def latency (p : Params) : EngineId → Nat
  | .enc => p.encLatency
  | .dec => p.decLatency

/-- The inputs of engine `e` at an edge. -/
def Edge.port (x : Edge) : EngineId → Port
  | .enc => x.enc
  | .dec => x.dec

/-- `E.req_ready` (10_state.md R25). -/
def reqReady (r : Engine) : Bool := r.phase == .idle

/-- `E.rsp_valid` (10_state.md R25). -/
def rspValid (r : Engine) : Bool := r.phase == .done

/-- `E.rsp_data` (10_state.md R25); a result only while `rspValid` (70_reset_and_hazards.md R205). -/
def rspData (r : Engine) : Word := r.rsp

/-- The EXECUTE step's write: `E.rsp <- r`, `E.phase <- DONE` (70_reset_and_hazards.md R202). Every meaning ends in it. -/
def respond (e : EngineId) (r : Word) (s : State) : Host.Outcome State Fault Refusal :=
  .next (s.setEngine e { s.engine e with rsp := r, phase := .done })

/-- The response to an illegal word, on either engine (30_encoding.md R80, 41_encoder.md R97, 42_decoder.md R117). -/
def execIllegal (e : EngineId) (s : State) : Host.Outcome State Fault Refusal :=
  respond e (raise .illegalCommand 0) s

/-- ACCEPT: `E.cmd <- w`, `E.phase <- BUSY` (70_reset_and_hazards.md R201). The response is due `latency + extra` edges
later (R207; a latency of 0, which is no legal parameter, acts as 1). -/
def accept (e : EngineId) (w : Word) (owner : Option Nat) (extra : Nat) (s : State) : State :=
  (s.setEngine e { s.engine e with cmd := w, phase := .busy }).setChannel e
    { s.channel e with wait := latency s.params e - 1 + extra, owner := owner }

/-- An edge of a BUSY engine before EXECUTE (70_reset_and_hazards.md R207). -/
def tick (e : EngineId) (s : State) : State :=
  s.setChannel e { s.channel e with wait := (s.channel e).wait - 1 }

/-- RETIRE: `E.phase <- IDLE`, `E.rsp` keeps its value (70_reset_and_hazards.md R203). The transaction goes on record. -/
def retire (e : EngineId) (s : State) : State :=
  (s.setEngine e { s.engine e with phase := .idle }).setChannel e
    { s.channel e with owner := none, log := ⟨(s.engine e).cmd, (s.engine e).rsp⟩ :: (s.channel e).log }

/-- What a byte that nothing was written to reads as (log entry 10). -/
def Memory.unlisted : Byte := 0

/-- One byte of a list of cells. -/
def lookupCell : List Host.Cell → Nat → Byte
  | [], _ => Memory.unlisted
  | (b, v) :: rest, a => if b = a then v else lookupCell rest a

/-- The cells with `v` at `a`, kept in the canonical form. -/
def insertCell : List Host.Cell → Nat → Byte → List Host.Cell
  | [], a, v => if v = Memory.unlisted then [] else [(a, v)]
  | (b, x) :: rest, a, v =>
    if a < b then (if v = Memory.unlisted then (b, x) :: rest else (a, v) :: (b, x) :: rest)
    else if a = b then (if v = Memory.unlisted then rest else (a, v) :: rest)
    else (b, x) :: insertCell rest a v

/-- Strictly rising from `lo` on, and no entry equal to what an unlisted address reads as. -/
def cellsWf : List Host.Cell → Nat → Bool
  | [], _ => true
  | (a, v) :: rest, lo => decide (lo ≤ a) && v != Memory.unlisted && cellsWf rest (a + 1)

/-- The canonical form: equal memories are equal data. -/
def Memory.wf (m : Memory) : Bool := cellsWf m.cells 0

/-- A memory to which nothing was written. -/
def Memory.empty : Memory := { cells := [] }

/-- One byte. -/
def Memory.read (m : Memory) (a : Nat) : Byte := lookupCell m.cells a

/-- Store one byte. -/
def Memory.write (m : Memory) (a : Nat) (v : Byte) : Memory := { cells := insertCell m.cells a v }

/-- The buffer's memory is canonical and lists no index that does not exist. -/
def Buffer.wf (b : Buffer) : Bool :=
  b.mem.wf && b.mem.cells.all fun c => decide (c.1 < b.size)

/-- `MemRead(B, i, 1)`: the byte at index `i`, for `i < size` (20_memory.md R50). -/
def Buffer.read (b : Buffer) (i : Nat) : Option Byte :=
  if i < b.size then some (b.mem.read i) else none

/-- `MemWrite(B, i, 1, v)`, for `i < size` (20_memory.md R50). -/
def Buffer.write (b : Buffer) (i : Nat) (v : Byte) : Option Buffer :=
  if i < b.size then some { b with mem := b.mem.write i v } else none

/-- `n` bytes from index `i` on, one access each. -/
def Buffer.readAll (b : Buffer) (i : Nat) : Nat → Option (List Byte)
  | 0 => some []
  | n + 1 =>
    match b.read i, b.readAll (i + 1) n with
    | some v, some vs => some (v :: vs)
    | _, _ => none

/-- Store the bytes from index `i` on, one access each (43_stream.md R169: in lane order). -/
def Buffer.writeAll (b : Buffer) (i : Nat) : List Byte → Option Buffer
  | [] => some b
  | v :: vs =>
    match b.write i v with
    | some b' => b'.writeAll (i + 1) vs
    | none => none

/-- The memory whose bytes below `n` are free values, numbered from `base` (43_stream.md R163). -/
def freeMemory (base : Nat) : Nat → Memory
  | 0 => Memory.empty
  | n + 1 => (freeMemory base n).write n (Config.freeByte (base + n))

/-- The buffer with unspecified contents (43_stream.md R163). -/
def Buffer.freed (b : Buffer) (base : Nat) : Buffer :=
  { b with mem := freeMemory base b.size }

/-- A memory holding these bytes from index `i` on: what a caller places in a buffer before a call. -/
def placeBytes (m : Memory) (i : Nat) : List Byte → Memory
  | [] => m
  | v :: vs => placeBytes (m.write i v) (i + 1) vs

/-- The buffer that holds exactly these bytes (20_memory.md R47). -/
def Buffer.ofBytes (bs : List Byte) : Buffer :=
  { size := bs.length, mem := placeBytes Memory.empty 0 bs }

/-- An empty buffer of this capacity. -/
def Buffer.blank (n : Nat) : Buffer :=
  { size := n, mem := Memory.empty }

/-- The first `n` bytes of a buffer's memory. -/
def Buffer.take (b : Buffer) (n : Nat) : List Byte :=
  (List.range n).map b.mem.read

/-- All bytes of a buffer. -/
def Buffer.bytes (b : Buffer) : List Byte :=
  b.take b.size

end Sys2Proof.Machine
end

