-- ==== Sys2Proof/Machine/Decoder.lean ====
section
/-! DEFINITION. The DEC engine: the meanings of `dec.0`..`dec.5` and the response function `F_DEC` of 42_decoder.md. -/

namespace Sys2Proof.Machine

/-- The response to a digit group, in the order of 42_decoder.md R133: validate (R121), pad (R123), evaluate and check
overflow (R125), and answer the first `m − 1` bytes (R126). -/
def decGroup (cs : List Byte) : Word :=
  match firstInvalid cs 0 with
  | some k => raise .badDecodeChar k
  | none =>
    if decOvf cs then raise .decodeOverflow 0
    else pack .ok (cs.length - 1) 0 false (highBytes (decAcc cs) (cs.length - 1))

/-- The response to a one-character group: the shortcut (42_decoder.md R120), else by `LONE_TAIL_POLICY` (R128). -/
def decLone (policy : LoneTailPolicy) (c0 : Byte) : Word :=
  if c0 = shortcutChar then pack .ok 4 0 true 0
  else if policy = .reject then raise .badDecodeChar 0
  else decGroup [c0]

/-- `dec.0` (42_decoder.md R127). -/
def execDec0 (s : State) : Host.Outcome State Fault Refusal :=
  respond .dec (pack .ok 0 0 false 0) s

/-- `dec.1` (42_decoder.md R128). -/
def execDec1 (c0 : Byte) (s : State) : Host.Outcome State Fault Refusal :=
  respond .dec (decLone s.params.loneTail c0) s

/-- `dec.2` (42_decoder.md R129). -/
def execDec2 (c0 c1 : Byte) (s : State) : Host.Outcome State Fault Refusal :=
  respond .dec (decGroup [c0, c1]) s

/-- `dec.3` (42_decoder.md R130). -/
def execDec3 (c0 c1 c2 : Byte) (s : State) : Host.Outcome State Fault Refusal :=
  respond .dec (decGroup [c0, c1, c2]) s

/-- `dec.4` (42_decoder.md R131). -/
def execDec4 (c0 c1 c2 c3 : Byte) (s : State) : Host.Outcome State Fault Refusal :=
  respond .dec (decGroup [c0, c1, c2, c3]) s

/-- `dec.5` (42_decoder.md R132). -/
def execDec5 (c0 c1 c2 c3 c4 : Byte) (s : State) : Host.Outcome State Fault Refusal :=
  respond .dec (decGroup [c0, c1, c2, c3, c4]) s

/-- `F_DEC`, as the pseudocode of 42_decoder.md R116 has it: a total function of the command word and
`LONE_TAIL_POLICY`. -/
def fDec (policy : LoneTailPolicy) (cmd : Word) : Word :=
  let op := cmd.extractLsb' 60 4
  let m := (cmd.extractLsb' 57 3).toNat
  let rsv := cmd.extractLsb' 40 17
  if op ≠ 0x2 ∨ rsv ≠ 0 ∨ m > 5 then raise .illegalCommand 0
  else if m = 0 then pack .ok 0 0 false 0
  else
    let c (k : Nat) : Nat := (cmd.extractLsb' (32 - 8 * k) 8).toNat
    if m = 1 ∧ c 0 = 0x7A then pack .ok 4 0 true 0
    else if m = 1 ∧ policy = .reject then raise .badDecodeChar 0
    else
      match (List.range m).find? (fun k => ¬ (33 ≤ c k ∧ c k ≤ 117)) with
      | some k => raise .badDecodeChar k
      | none =>
        let d (k : Nat) : Nat := if k < m then c k - 33 else 84
        let v := d 0 * 85 ^ 4 + d 1 * 85 ^ 3 + d 2 * 85 ^ 2 + d 3 * 85 + d 4
        if v > 2 ^ 32 - 1 then raise .decodeOverflow 0
        else
          let o := BitVec.ofNat 32 v
          let j := m - 1
          pack .ok j 0 false (((o >>> (8 * (4 - j))) <<< (8 * (4 - j))).setWidth 40)

end Sys2Proof.Machine
end

