-- ==== Sys2Proof/Machine/Encoder.lean ====
section
/-! DEFINITION. The ENC engine: the meanings of `enc.0`..`enc.4` and the response function `F_ENC` of 41_encoder.md. -/

namespace Sys2Proof.Machine

/-- The first `n + 1` characters of an accumulator in lanes `L0..Ln`, every other lane 0 (41_encoder.md R96, 30_encoding.md R74). -/
def encLanes (acc : Acc) (n : Nat) : Payload :=
  let c (k : Nat) : Byte := if k ≤ n then digitChar acc k else 0
  lanes (c 0) (c 1) (c 2) (c 3) (c 4)

/-- The response to a digit group of `n` bytes: `n + 1` characters (41_encoder.md R103 to R106). -/
def encGroup (acc : Acc) (n : Nat) : Word :=
  pack .ok (n + 1) 0 false (encLanes acc n)

/-- The response of the zero shortcut: one `z` (41_encoder.md R101). -/
def encShortcut : Word :=
  pack .ok 1 0 true (lanes shortcutChar 0 0 0 0)

/-- `enc.0` (41_encoder.md R102). -/
def execEnc0 (s : State) : Host.Outcome State Fault Refusal :=
  respond .enc (pack .ok 0 0 false 0) s

/-- `enc.1` (41_encoder.md R103). -/
def execEnc1 (b0 : Byte) (s : State) : Host.Outcome State Fault Refusal :=
  respond .enc (encGroup (accOf b0 0 0 0) 1) s

/-- `enc.2` (41_encoder.md R104). -/
def execEnc2 (b0 b1 : Byte) (s : State) : Host.Outcome State Fault Refusal :=
  respond .enc (encGroup (accOf b0 b1 0 0) 2) s

/-- `enc.3` (41_encoder.md R105). -/
def execEnc3 (b0 b1 b2 : Byte) (s : State) : Host.Outcome State Fault Refusal :=
  respond .enc (encGroup (accOf b0 b1 b2 0) 3) s

/-- `enc.4` (41_encoder.md R106): the shortcut for an accumulator of 0 (R101), else five characters. -/
def execEnc4 (b0 b1 b2 b3 : Byte) (s : State) : Host.Outcome State Fault Refusal :=
  respond .enc (if accOf b0 b1 b2 b3 = 0 then encShortcut else encGroup (accOf b0 b1 b2 b3) 4) s

/-- `ACC(cmd, n) = (cmd[31:0] >> (8*(4-n))) << (8*(4-n))` (41_encoder.md R99). -/
def encAcc (cmd : Word) (n : Nat) : Acc :=
  (cmd.extractLsb' 0 32 >>> (8 * (4 - n))) <<< (8 * (4 - n))

/-- `F_ENC`, as the pseudocode of 41_encoder.md R96 has it: a total function of the command word alone. -/
def fEnc (cmd : Word) : Word :=
  let op := cmd.extractLsb' 60 4
  let n := (cmd.extractLsb' 57 3).toNat
  let rsv := cmd.extractLsb' 40 17
  if op ≠ 0x1 ∨ rsv ≠ 0 ∨ n > 4 then raise .illegalCommand 0
  else if n = 0 then pack .ok 0 0 false 0
  else
    let acc := encAcc cmd n
    if n = 4 ∧ acc = 0 then pack .ok 1 0 true ((0x7A : Payload) <<< 32)
    else pack .ok (n + 1) 0 false (orLanes ((List.range (n + 1)).map (digitChar acc)) 0)

end Sys2Proof.Machine
end

