-- ==== Sys2Proof/Machine/Dispatch.lean ====
section
/-! DEFINITION. What the EXECUTE step of a command does: one arm a command. -/

namespace Sys2Proof.Machine

def exec (i : Instr) (s : State) : Host.Outcome State Fault Refusal :=
  match i with
  | .enc0 => Sys2Proof.Machine.execEnc0 s
  | .enc1 b0 => Sys2Proof.Machine.execEnc1 b0 s
  | .enc2 b0 b1 => Sys2Proof.Machine.execEnc2 b0 b1 s
  | .enc3 b0 b1 b2 => Sys2Proof.Machine.execEnc3 b0 b1 b2 s
  | .enc4 b0 b1 b2 b3 => Sys2Proof.Machine.execEnc4 b0 b1 b2 b3 s
  | .dec0 => Sys2Proof.Machine.execDec0 s
  | .dec1 c0 => Sys2Proof.Machine.execDec1 c0 s
  | .dec2 c0 c1 => Sys2Proof.Machine.execDec2 c0 c1 s
  | .dec3 c0 c1 c2 => Sys2Proof.Machine.execDec3 c0 c1 c2 s
  | .dec4 c0 c1 c2 c3 => Sys2Proof.Machine.execDec4 c0 c1 c2 c3 s
  | .dec5 c0 c1 c2 c3 c4 => Sys2Proof.Machine.execDec5 c0 c1 c2 c3 c4 s

end Sys2Proof.Machine
end

