-- ==== Sys2Proof/Machine/Stream.lean ====
section
/-! DEFINITION. The stream framing of 43_stream.md: a host agent that cuts a buffer into groups, issues a command for
each, and writes the results. What a call does between two events of its channel is one function each. -/

namespace Sys2Proof.Machine

/-- `F_E`: the response function of an engine (41_encoder.md R96, 42_decoder.md R116). -/
def engineResponse (p : Params) : EngineId → Word → Word
  | .enc, w => fEnc w
  | .dec, w => fDec p.loneTail w

/-- The two ranges of addresses have an address in common (20_memory.md R48; log entry 11). -/
def rangesMeet (a n b m : Nat) : Bool :=
  decide (0 < n) && decide (0 < m) && decide (a < b + m) && decide (b < a + n)

/-- `IN` and `OUT` overlap (20_memory.md R48). -/
def Call.overlaps (c : Call) : Bool :=
  rangesMeet c.inAddr c.input.size c.outAddr c.output.size

/-- The worst-case output: `5·ceil(L/4)` for encode, `4·ceil(L/5)` for decode (43_stream.md R151, R158). -/
def worstCase : EngineId → Nat → Nat
  | .enc, n => 5 * ((n + 3) / 4)
  | .dec, n => 4 * ((n + 4) / 5)

/-- The loop test `while i < L`, else `return Ok(w)` (43_stream.md R149, R156). -/
def Call.loopTest (c : Call) : Call :=
  if c.stat = .ready ∧ c.input.size ≤ c.i then { c with stat := .finished (.ok c.w) } else c

/-- The lines before the loop: a call whose buffers overlap is refused (20_memory.md R48); the up-front capacity check
of `WORST_CASE` (43_stream.md R151, R158); `i = 0; w = 0`. -/
def Call.begin (p : Params) (c : Call) : Host.Outcome Call Fault Refusal :=
  if c.overlaps then .refused .overlappingBuffers
  else if p.capacityCheck = .worstCase ∧ c.output.size < worstCase c.kind c.input.size then
    .next { c with i := 0, w := 0, stat := .finished (.err .capacity) }
  else .next { c with i := 0, w := 0, stat := .ready }

/-- What a call does on its own before it presents a command: begin, and test its loop. -/
def Call.poll (p : Params) (c : Call) : Host.Outcome Call Fault Refusal :=
  match c.stat with
  | .start => andThen (c.begin p) fun c' => .next c'.loopTest
  | .ready => .next c.loopTest
  | .waiting _ => .next c
  | .finished _ => .next c
  | .cut => .next c

/-- The length of the group at `i`: `min(4, L − i)` bytes (43_stream.md R148), or one character if it is `z`, else
`min(5, L − i)` (R155). -/
def Call.groupLen (c : Call) : Option Nat :=
  match c.kind with
  | .enc => some (min 4 (c.input.size - c.i))
  | .dec =>
    match c.input.read c.i with
    | some b => some (if b = shortcutChar then 1 else min 5 (c.input.size - c.i))
    | none => none

/-- The command word of a group: `(op << 60) | (n << 57) | OR …` (43_stream.md R149, R156). -/
def groupCommand (e : EngineId) (units : List Byte) : Word :=
  commandWord e units.length (orLanes units (inLane e))

/-- Build the command of the group at `i`; the call then waits for its response (43_stream.md R149, R156). -/
def Call.issue (c : Call) : Host.Outcome (Word × Call) Fault Refusal :=
  match c.groupLen with
  | some n =>
    match c.input.readAll c.i n with
    | some units => .next (groupCommand c.kind units, { c with stat := .waiting n })
    | none => .fault .outsideBuffer
  | none => .fault .outsideBuffer

/-- A response that the engine can give to the legal commands a call issues (30_encoding.md R72, R73, R81; 41_encoder.md
R108; log entry 12). -/
def conforms (e : EngineId) (r : Word) : Bool :=
  match statusOfCode (rspStatus r), e with
  | some .ok, .enc => decide (rspOcnt r ≤ 5)
  | some .ok, .dec => decide (rspOcnt r ≤ 4)
  | some .badDecodeChar, .dec => true
  | some .decodeOverflow, .dec => true
  | _, _ => false

/-- The error a response reports to a call (43_stream.md R156). -/
def responseError (r : Word) : Option ErrKind :=
  match statusOfCode (rspStatus r) with
  | some .badDecodeChar => some .badDecodeChar
  | some .decodeOverflow => some .decodeOverflow
  | _ => none

/-- The output units of a response, in lane order (30_encoding.md R74; 43_stream.md R149, R156). -/
def responseUnits (e : EngineId) (r : Word) : List Byte :=
  (List.range (rspOcnt r)).map fun j => lane (rspPayload r) (outLane e + j)

/-- The rest of the loop body once the response is taken: the group's status, then its capacity check, then its writes
(43_stream.md R149, R156, R161). -/
def Call.take (c : Call) (r : Word) : Host.Outcome Call Fault Refusal :=
  match c.stat with
  | .waiting n =>
    if conforms c.kind r then
      match responseError r with
      | some k => .next { c with stat := .finished (.err k) }
      | none =>
        if c.output.size < c.w + rspOcnt r then .next { c with stat := .finished (.err .capacity) }
        else
          match c.output.writeAll c.w (responseUnits c.kind r) with
          | some out => .next ({ c with output := out, w := c.w + rspOcnt r, i := c.i + n, stat := .ready } : Call).loopTest
          | none => .fault .outsideBuffer
    else .fault .nonConformingResponse
  | .start => .next c
  | .ready => .next c
  | .finished _ => .next c
  | .cut => .next c

/-- One group as an atomic transaction `w ↦ F_E(w)` (70_reset_and_hazards.md R209). -/
def Call.transact (p : Params) (c : Call) : Host.Outcome Call Fault Refusal :=
  andThen c.issue fun wc => wc.2.take (engineResponse p c.kind wc.1)

/-- The call run by atomic transactions, at most `fuel` groups of it (43_stream.md R149, R156; 70_reset_and_hazards.md
R209: "A model may use this view in place of the three steps"). -/
def Call.atomicRun (p : Params) : Nat → Call → Host.Outcome Call Fault Refusal
  | 0, c => .next c
  | fuel + 1, c =>
    andThen (c.poll p) fun c' =>
      if c'.stat = .ready then andThen (c'.transact p) (Call.atomicRun p fuel) else .next c'

/-- A call not begun: `encode` or `decode` of these bytes into a buffer of this capacity, the two placed one after the
other. -/
def Call.fresh (e : EngineId) (input : List Byte) (capacity : Nat) : Call :=
  { kind := e, input := Buffer.ofBytes input, inAddr := 0, output := Buffer.blank capacity, outAddr := input.length,
    i := 0, w := 0, stat := .start }

/-- The int32 return value of the source's interface (43_stream.md R170). -/
def toInt32 (t : Sentinels) : CallResult → Host.Outcome (BitVec 32) Fault Refusal
  | .ok len => if len ≤ 2 ^ 31 - 1 then .next (BitVec.ofNat 32 len) else .refused .lengthBeyondInt32
  | .err .capacity => .next t.capacity
  | .err .badDecodeChar => .next t.badChar
  | .err .decodeOverflow => .next t.overflow

/-- The first `n` characters of an accumulator (41_encoder.md R100). -/
def charsOf (acc : Acc) (n : Nat) : List Byte :=
  (List.range n).map (digitChar acc)

/-- The text of a byte sequence: the group outputs in input order (43_stream.md R148, R169; 41_encoder.md R101). -/
def encodeText : List Byte → List Byte
  | a :: b :: c :: d :: rest =>
    (if accOf a b c d = 0 then [shortcutChar] else charsOf (accOf a b c d) 5) ++ encodeText rest
  | [a, b, c] => charsOf (accOf a b c 0) 4
  | [a, b] => charsOf (accOf a b 0 0) 3
  | [a] => charsOf (accOf a 0 0 0) 2
  | [] => []

/-- The bytes of a word, big-endian (20_memory.md R49). -/
def bytesOf (o : Acc) : List Byte :=
  [o.extractLsb' 24 8, o.extractLsb' 16 8, o.extractLsb' 8 8, o.extractLsb' 0 8]

/-- The groups of a text: a `z` where a group would start is a group of its own, else the next `min(5, remaining)`
characters are one, whatever they are (43_stream.md R155, 30_encoding.md R84). -/
def textGroups : List Byte → List (List Byte)
  | c0 :: c1 :: c2 :: c3 :: c4 :: rest =>
    if c0 = shortcutChar then [c0] :: textGroups (c1 :: c2 :: c3 :: c4 :: rest)
    else [c0, c1, c2, c3, c4] :: textGroups rest
  | c0 :: rest => if c0 = shortcutChar then [c0] :: textGroups rest else [c0 :: rest]
  | [] => []

/-- What one group of a text decodes to (42_decoder.md R133). -/
def groupBytes (policy : LoneTailPolicy) (cs : List Byte) : Except ErrKind (List Byte) :=
  if cs = [shortcutChar] then .ok [0, 0, 0, 0]
  else if cs.length = 1 ∧ policy = .reject then .error .badDecodeChar
  else if cs.any (fun c => !isDigit c) then .error .badDecodeChar
  else if 2 ^ 32 - 1 < polyValue cs then .error .decodeOverflow
  else .ok ((bytesOf (decAcc cs)).take (cs.length - 1))

/-- The bytes before what the rest of the groups decode to. -/
def prepend (bs : List Byte) : Except ErrKind (List Byte) → Except ErrKind (List Byte)
  | .ok rest => .ok (bs ++ rest)
  | .error k => .error k

/-- The bytes of some groups in order, or the first error among them (43_stream.md R161, R169). -/
def decodeGroups (policy : LoneTailPolicy) : List (List Byte) → Except ErrKind (List Byte)
  | [] => .ok []
  | g :: gs =>
    match groupBytes policy g with
    | .ok bs => prepend bs (decodeGroups policy gs)
    | .error k => .error k

/-- The bytes of the groups before the first one in error; of all groups, if none is (43_stream.md R161). -/
def goodBytes (policy : LoneTailPolicy) : List (List Byte) → List Byte
  | [] => []
  | g :: gs =>
    match groupBytes policy g with
    | .ok bs => bs ++ goodBytes policy gs
    | .error _ => []

/-- The bytes of a text, or the first error in it (43_stream.md R155, R161, R169). -/
def decodeText (policy : LoneTailPolicy) (text : List Byte) : Except ErrKind (List Byte) :=
  decodeGroups policy (textGroups text)

/-- The bytes a call of `decode` has to write before it meets the first error of its text (43_stream.md R161). -/
def bytesBeforeError (policy : LoneTailPolicy) (text : List Byte) : List Byte :=
  goodBytes policy (textGroups text)

/-- The bytes of a final group of fewer than 5 characters that is not `z`: one less than its characters; no other group
counts (43_stream.md R159). -/
def partialBytes (g : List Byte) : Nat :=
  if g = [shortcutChar] ∨ g.length = 5 then 0 else g.length - 1

/-- The number of full groups of four zero bytes, each at an index that is a multiple of 4 (43_stream.md R152). -/
def zeroGroups : List Byte → Nat
  | a :: b :: c :: d :: rest => (if a = 0 ∧ b = 0 ∧ c = 0 ∧ d = 0 then 1 else 0) + zeroGroups rest
  | _ => 0

end Sys2Proof.Machine
end

