-- ==== Sys2Proof/Machine/Clock.lean ====
section
/-! DEFINITION. One rising edge of `clk`: reset, or for each engine the one of ACCEPT, EXECUTE and RETIRE that its phase
and its inputs allow (70_reset_and_hazards.md), and what the host's stream calls do with it (43_stream.md). -/

namespace Sys2Proof.Machine

/-- An engine's inputs at an edge at which the host does nothing. -/
def Port.idle : Port :=
  { req := none, rspReady := false, extra := 0 }

/-- An edge at which nothing is presented and nothing is taken: what comes when `inputs` is used up (log entry 5). -/
def Edge.idle : Edge :=
  { rst := false, enc := Port.idle, dec := Port.idle }

/-- The inputs at this edge. -/
def State.edge (s : State) : Edge :=
  match s.inputs with
  | x :: _ => x
  | [] => Edge.idle

/-- This edge's inputs are used. -/
def State.popEdge (s : State) : State :=
  { s with inputs := s.inputs.tail }

/-- The call has begun and has no result yet (log entry 9). -/
def Call.running (c : Call) : Bool :=
  match c.stat with
  | .start => false
  | .ready => true
  | .waiting _ => true
  | .finished _ => false
  | .cut => false

/-- What a reset does to the stream calls: a call it interrupts "has no result, and its `OUT` contents are unspecified"
(70_reset_and_hazards.md R197; log entries 8, 9). -/
def cutCalls : List Call → Nat → List Call
  | [], _ => []
  | c :: cs, n =>
    if c.running then { c with output := c.output.freed n, stat := .cut } :: cutCalls cs (n + c.output.size)
    else c :: cutCalls cs n

/-- How many free bytes that takes. -/
def cutBytes : List Call → Nat
  | [] => 0
  | c :: cs => (if c.running then c.output.size else 0) + cutBytes cs

/-- An edge with `rst` = 1 (70_reset_and_hazards.md R196, R197): both engines take their reset values, whatever they
were doing, and nothing else happens at that edge. -/
def resetEdge (s : State) : State :=
  { s with
    enc := Engine.reset
    dec := Engine.reset
    encCh := { s.encCh with wait := 0, owner := none }
    decCh := { s.decCh with wait := 0, owner := none }
    calls := cutCalls s.calls s.free
    free := s.free + cutBytes s.calls }

/-- Store a call. If it has just returned `Err`, the contents of its `OUT` are unspecified (43_stream.md R163; log entry 8). -/
def putCall (k : Nat) (c : Call) (s : State) : State :=
  match c.stat with
  | .finished (.err _) =>
    { s with calls := s.calls.set k { c with output := c.output.freed s.free }, free := s.free + c.output.size }
  | .finished (.ok _) => { s with calls := s.calls.set k c }
  | .start => { s with calls := s.calls.set k c }
  | .ready => { s with calls := s.calls.set k c }
  | .waiting _ => { s with calls := s.calls.set k c }
  | .cut => { s with calls := s.calls.set k c }

/-- What stands on a request channel at an edge: the word, and the number of the call that presents it with the call as
it is once the word is accepted. -/
abbrev Offer := Word × Option (Nat × Call)

/-- The call may act on channel `e`: it belongs there and is neither waiting nor over (log entry 16). -/
def Call.mayDrive (c : Call) (e : EngineId) : Bool :=
  c.kind == e && (c.stat == .start || c.stat == .ready)

/-- What the host does with the request channel of engine `e` at an edge. A call first begins, or ends if its input is
used up, with no command issued (43_stream.md R154, R160); a call in its loop presents its next command. -/
def offer (e : EngineId) (x : Port) (s : State) : Host.Outcome (State × Option Offer) Fault Refusal :=
  match x.req with
  | none => .next (s, none)
  | some (.word w) => .next (s, some (w, none))
  | some (.call k) =>
    match s.calls[k]? with
    | none => .next (s, none)
    | some c =>
      if c.mayDrive e then
        andThen (c.poll s.params) fun c1 =>
          if c1.stat = .ready then
            andThen c1.issue fun wc => .next (putCall k c1 s, some (wc.1, some (k, wc.2)))
          else .next (putCall k c1 s, none)
      else .next (s, none)

/-- `E.req_data` at this edge, none where `E.req_valid` is 0 (10_state.md R26): a raw word, or the next command of the
call whose turn it is. A call that is over, waits, ends without a command or is refused presents none (43_stream.md R154,
R160; 20_memory.md R48; log entry 16). -/
def State.reqData (s : State) (e : EngineId) : Option Word :=
  match offer e (s.edge.port e) s.popEdge with
  | .next (_, some o) => some o.1
  | .next (_, none) => none
  | .fault _ => none
  | .refused _ => none

/-- ACCEPT of an offer (70_reset_and_hazards.md R201): a call whose word is accepted waits for the response. -/
def acceptOffer (e : EngineId) (o : Offer) (extra : Nat) (s : State) : State :=
  match o.2 with
  | none => accept e o.1 none extra s
  | some (k, c) => accept e o.1 (some k) extra (putCall k c s)

/-- EXECUTE (70_reset_and_hazards.md R202): "every command, legal or illegal, gets exactly one response". -/
def execute (e : EngineId) (s : State) : Host.Outcome State Fault Refusal :=
  match decodeFor e (s.engine e).cmd with
  | .ok i => exec i s
  | .error _ => execIllegal e s

/-- RETIRE (70_reset_and_hazards.md R203): the response goes "back to the call that issued its command" (43_stream.md R166). -/
def retireEdge (e : EngineId) (s : State) : Host.Outcome State Fault Refusal :=
  match (s.channel e).owner with
  | none => .next (retire e s)
  | some k =>
    match s.calls[k]? with
    | none => .next (retire e s)
    | some c =>
      match c.stat with
      | .waiting _ => andThen (c.take (rspData (s.engine e))) fun c' => .next (putCall k c' (retire e s))
      | .start => .next (retire e s)
      | .ready => .next (retire e s)
      | .finished _ => .next (retire e s)
      | .cut => .next (retire e s)

/-- What engine `e` does at an edge, given what stands on its request channel (70_reset_and_hazards.md R201 to R204). -/
def engineEdge (e : EngineId) (x : Port) (o : Option Offer) (s : State) : Host.Outcome State Fault Refusal :=
  match (s.engine e).phase with
  | .idle =>
    match o with
    | some o => .next (acceptOffer e o x.extra s)
    | none => .next s
  | .busy => if (s.channel e).wait = 0 then execute e s else .next (tick e s)
  | .done => if x.rspReady then retireEdge e s else .next s

/-- One channel at an edge with `rst` = 0: what the host presents, then what the engine does. -/
def channelEdge (e : EngineId) (x : Port) (s : State) : Host.Outcome State Fault Refusal :=
  andThen (offer e x s) fun so => engineEdge e x so.2 so.1

/-- One rising edge. The two channels do not meet, so their order inside an edge is of no account (60_exceptions.md
R181; log entry 4). -/
def clockEdge (s : State) : Host.Outcome State Fault Refusal :=
  if s.edge.rst then .next (resetEdge s.popEdge)
  else andThen (channelEdge .enc s.edge.enc s.popEdge) (channelEdge .dec s.edge.dec)

/-- The engine a word is loaded into: DEC for a word with DEC's `op`, else ENC. -/
def loadEngine (w : Word) : EngineId :=
  if (commandOf w).op = EngineId.dec.opcode then .dec else .enc

/-- The state in which the word has been accepted by its engine and is executed at the very next edge (log entry 6):
what ACCEPT leaves, with nothing more to wait for, and an edge without reset next. -/
def loadCommand (w : Word) (s : State) : State :=
  let e := loadEngine w
  let t := (s.setEngine e { s.engine e with cmd := w, phase := .busy }).setChannel e
    { s.channel e with wait := 0, owner := none }
  match s.inputs with
  | [] => t
  | _ :: _ => { t with inputs := Edge.idle :: s.inputs }

end Sys2Proof.Machine
end

