-- ==== Sys2Proof/Machine/Step.lean ====
section
/-! DEFINITION. The step of the machine, one rising edge of `clk`, and how a command is placed so that the next step
executes it. -/

namespace Sys2Proof.Machine

/-- One rising edge of `clk`. -/
def step (s : State) : Host.Outcome State Fault Refusal :=
  clockEdge s

/-- The state whose next step executes the word `w` (its bits at and above `nbits` 0). The engines fetch nothing
(10_state.md R28): the word stands in `E.cmd`, where EXECUTE reads it (10_state.md R23), as if accepted (log entry 6). -/
def State.withFetchWord (s : State) (nbits w : Nat) : State :=
  loadCommand (BitVec.ofNat 64 (w % 2 ^ nbits)) s

/-- `n` rising edges, stopping at the first fault or refusal. -/
def runSteps : Nat → State → Host.Outcome State Fault Refusal
  | 0, s => .next s
  | n + 1, s => andThen (step s) (runSteps n)

end Sys2Proof.Machine
end

