-- ==== Sys2Proof/Machine/Assembler.lean ====
section
/-! DEFINITION. The assembler syntax and the disassembler of 30_encoding.md R85, and the pseudo-instructions of R86.
A line of text is a list of characters. -/

namespace Sys2Proof.Machine

/-- The bytes or characters a command names, in order (30_encoding.md R85: "only the used lanes"). -/
def operands : Instr → List Byte
  | .enc0 => []
  | .enc1 b0 => [b0]
  | .enc2 b0 b1 => [b0, b1]
  | .enc3 b0 b1 b2 => [b0, b1, b2]
  | .enc4 b0 b1 b2 b3 => [b0, b1, b2, b3]
  | .dec0 => []
  | .dec1 c0 => [c0]
  | .dec2 c0 c1 => [c0, c1]
  | .dec3 c0 c1 c2 => [c0, c1, c2]
  | .dec4 c0 c1 c2 c3 => [c0, c1, c2, c3]
  | .dec5 c0 c1 c2 c3 c4 => [c0, c1, c2, c3, c4]

/-- A hexadecimal digit, of either case (log entry 15). -/
def hexValue (c : Char) : Option Nat :=
  let n := c.toNat
  if 48 ≤ n ∧ n ≤ 57 then some (n - 48)
  else if 65 ≤ n ∧ n ≤ 70 then some (n - 55)
  else if 97 ≤ n ∧ n ≤ 102 then some (n - 87)
  else none

/-- A digit written in upper case. -/
def hexUpper (n : Nat) : Char :=
  Char.ofNat (if n < 10 then 48 + n else 55 + n)

/-- A digit written in lower case. -/
def hexLower (n : Nat) : Char :=
  Char.ofNat (if n < 10 then 48 + n else 87 + n)

/-- Two digits as a byte. -/
def hexByte (h l : Char) : Option Byte :=
  match hexValue h, hexValue l with
  | some a, some b => some (BitVec.ofNat 8 (16 * a + b))
  | _, _ => none

/-- An even number of digits, to the end of the line, as bytes in order. -/
def parseHex : List Char → Option (List Byte)
  | [] => some []
  | [_] => none
  | h :: l :: rest =>
    match hexByte h l, parseHex rest with
    | some b, some bs => some (b :: bs)
    | _, _ => none

/-- The characters after an opening quote, up to a closing quote that ends the line. "The escape `\xHH` stands for any
code point, `\"` for the quote and `\\` for the backslash. No other escape exists" (30_encoding.md R85). -/
def parseQuoted : List Char → Option (List Byte)
  | ['"'] => some []
  | '\\' :: 'x' :: h :: l :: rest =>
    match hexByte h l, parseQuoted rest with
    | some b, some bs => some (b :: bs)
    | _, _ => none
  | '\\' :: '"' :: rest => (parseQuoted rest).map (BitVec.ofNat 8 34 :: ·)
  | '\\' :: '\\' :: rest => (parseQuoted rest).map (BitVec.ofNat 8 92 :: ·)
  | c :: rest =>
    if c = '"' ∨ c = '\\' ∨ 256 ≤ c.toNat then none
    else (parseQuoted rest).map (BitVec.ofNat 8 c.toNat :: ·)
  | [] => none

/-- The rest of a line after a given beginning. -/
def afterPrefix : List Char → List Char → Option (List Char)
  | [], t => some t
  | _ :: _, [] => none
  | p :: ps, c :: t => if p = c then afterPrefix ps t else none

/-- The word of a command with these units, if there are exactly `n`. -/
def unitsWord (e : EngineId) (n : Nat) (units : Option (List Byte)) : Option Word :=
  match units with
  | some us => if us.length = n then some (groupCommand e us) else none
  | none => none

/-- The operand text of `enc.<n>`: nothing for `enc.0`, else a space and exactly `2n` hexadecimal digits. -/
def assembleEnc (n : Nat) : List Char → Option Word
  | [] => unitsWord .enc n (some [])
  | c :: t => if c = ' ' ∧ 0 < n then unitsWord .enc n (parseHex t) else none

/-- The operand text of `dec.<m>`: nothing for `dec.0`, else a space and exactly `m` characters in quotes. -/
def assembleDec (m : Nat) : List Char → Option Word
  | [] => unitsWord .dec m (some [])
  | c :: q :: t => if c = ' ' ∧ q = '"' ∧ 0 < m then unitsWord .dec m (parseQuoted t) else none
  | [_] => none

/-- The word of eight bytes, the first in the high bits. -/
def wordOfBytes : List Byte → Option Word
  | [a, b, c, d, e, f, g, h] =>
    some (a.setWidth 64 <<< 56 ||| b.setWidth 64 <<< 48 ||| c.setWidth 64 <<< 40 ||| d.setWidth 64 <<< 32 |||
      e.setWidth 64 <<< 24 ||| f.setWidth 64 <<< 16 ||| g.setWidth 64 <<< 8 ||| h.setWidth 64)
  | _ => none

/-- A line that is no pseudo-instruction: `enc.<n> <hex>`, `dec.<m> "<chars>"` or `.word 0x<16 hex digits>`
(30_encoding.md R85). -/
def assembleBase (t : List Char) : Option Word :=
  match afterPrefix ['e', 'n', 'c', '.'] t with
  | some (c :: rest) =>
    if 48 ≤ c.toNat ∧ c.toNat ≤ 52 then assembleEnc (c.toNat - 48) rest else none
  | some [] => none
  | none =>
    match afterPrefix ['d', 'e', 'c', '.'] t with
    | some (c :: rest) =>
      if 48 ≤ c.toNat ∧ c.toNat ≤ 53 then assembleDec (c.toNat - 48) rest else none
    | some [] => none
    | none =>
      match afterPrefix ['.', 'w', 'o', 'r', 'd', ' ', '0', 'x'] t with
      | some rest =>
        match parseHex rest with
        | some bs => wordOfBytes bs
        | none => none
      | none => none

/-- What a pseudo-instruction expands to (30_encoding.md R86); any other line is itself. -/
def expandPseudo (t : List Char) : List Char :=
  if t = ['n', 'o', 'p', '.', 'e', 'n', 'c'] then ['e', 'n', 'c', '.', '0']
  else if t = ['n', 'o', 'p', '.', 'd', 'e', 'c'] then ['d', 'e', 'c', '.', '0']
  else if t = ['d', 'e', 'c', '.', 'z'] then ['d', 'e', 'c', '.', '1', ' ', '"', 'z', '"']
  else if t = ['e', 'n', 'c', '.', 'z', 'e', 'r', 'o'] then
    ['e', 'n', 'c', '.', '4', ' ', '0', '0', '0', '0', '0', '0', '0', '0']
  else t

/-- The word a line assembles to (30_encoding.md R85, R86). -/
def assemble (t : List Char) : Option Word :=
  assembleBase (expandPseudo t)

/-- Bytes in lower-case hexadecimal. -/
def printHex : List Byte → List Char
  | [] => []
  | b :: bs => hexLower (b.toNat / 16) :: hexLower (b.toNat % 16) :: printHex bs

/-- Bytes in upper-case hexadecimal. -/
def printHexUpper : List Byte → List Char
  | [] => []
  | b :: bs => hexUpper (b.toNat / 16) :: hexUpper (b.toNat % 16) :: printHexUpper bs

/-- One character between quotes: itself if it is printable and no space, else an escape (30_encoding.md R85; log entry 15). -/
def printChar (b : Byte) : List Char :=
  if b.toNat = 34 then ['\\', '"']
  else if b.toNat = 92 then ['\\', '\\']
  else if 33 ≤ b.toNat ∧ b.toNat ≤ 126 then [Char.ofNat b.toNat]
  else ['\\', 'x', hexUpper (b.toNat / 16), hexUpper (b.toNat % 16)]

/-- Characters between quotes. -/
def printChars : List Byte → List Char
  | [] => []
  | b :: bs => printChar b ++ printChars bs

/-- The eight bytes of a word, the high bits first. -/
def bytesOfWord (w : Word) : List Byte :=
  [w.extractLsb' 56 8, w.extractLsb' 48 8, w.extractLsb' 40 8, w.extractLsb' 32 8,
   w.extractLsb' 24 8, w.extractLsb' 16 8, w.extractLsb' 8 8, w.extractLsb' 0 8]

/-- The text of a command. -/
def printInstr (i : Instr) : List Char :=
  let us := operands i
  let digit := Char.ofNat (48 + us.length)
  match i.engine with
  | .enc => ['e', 'n', 'c', '.', digit] ++ (if us = [] then [] else ' ' :: printHex us)
  | .dec => ['d', 'e', 'c', '.', digit] ++ (if us = [] then [] else [' ', '"'] ++ printChars us ++ ['"'])

/-- "A disassembler prints a legal word in the form above, showing only the used lanes … It prints an illegal word as
`.word`" (30_encoding.md R85). -/
def disassemble (w : Word) : List Char :=
  match decode w with
  | .ok i => printInstr i
  | .error _ => ['.', 'w', 'o', 'r', 'd', ' ', '0', 'x'] ++ printHexUpper (bytesOfWord w)

end Sys2Proof.Machine
end

