-- ==== Sys2Proof/Safety.lean ====
section
/-! DEFINITION. The invariant of every run and the terms the claims use. -/

namespace Sys2Proof.Machine

/-- The word is a legal command on engine `e` (30_encoding.md R80). -/
def legalOn (e : EngineId) (w : Word) : Prop :=
  ∃ i, decodeFor e w = .ok i

/-- The state in which engine `e` has answered `r` to its command and nothing else is changed
(70_reset_and_hazards.md R202). -/
def answered (e : EngineId) (r : Word) (s : State) : State :=
  match e with
  | .enc => { s with enc := { phase := .done, cmd := s.enc.cmd, rsp := r } }
  | .dec => { s with dec := { phase := .done, cmd := s.dec.cmd, rsp := r } }

/-- The characters of a command word's payload, `c_0..c_{m−1}` (42_decoder.md R119). -/
def charsOfCommand (w : Word) (m : Nat) : List Byte :=
  (List.range m).map (lane (commandOf w).payload)

/-- A group of characters as one number, the order in which 42_decoder.md R134 compares groups of one length. -/
def codeValue : List Byte → Nat → Nat
  | [], v => v
  | c :: cs, v => codeValue cs (256 * v + c.toNat)

/-- The response in `E.rsp` of a `DONE` engine belongs to the command in `E.cmd` (10_state.md R22, R34; 60_exceptions.md
R178). -/
def responseMatches (e : EngineId) (s : State) : Prop :=
  (s.engine e).phase = .done → (s.engine e).rsp = engineResponse s.params e (s.engine e).cmd

/-- Every transaction on record is `w ↦ F_E(w)` (70_reset_and_hazards.md R209). -/
def logMatches (e : EngineId) (s : State) : Prop :=
  ∀ t ∈ (s.channel e).log, t.rsp = engineResponse s.params e t.cmd

/-- An engine works for a call only while it holds a command, and then the command is the one of the group the call
waits for (43_stream.md R146, R166). -/
def ownerMatches (e : EngineId) (s : State) : Prop :=
  ∀ k, (s.channel e).owner = some k →
    (s.engine e).phase ≠ .idle ∧
    ∃ c, s.calls[k]? = some c ∧ c.kind = e ∧ c.i < c.input.size ∧ c.issue = .next ((s.engine e).cmd, c)

/-- The buffers of a call are canonical, and its position lies in them (20_memory.md R47, R50; 43_stream.md R162). -/
def callOk (c : Call) : Prop :=
  c.input.wf = true ∧ c.output.wf = true ∧ (c.running = true → c.w ≤ c.output.size)

/-- What holds in every state of a run. -/
def State.Inv (s : State) : Prop :=
  (∀ e, responseMatches e s ∧ logMatches e s ∧ ownerMatches e s) ∧ ∀ c ∈ s.calls, callOk c

/-- An engine-level run is over when "both engines are in `IDLE` and the host presents no request"
(70_reset_and_hazards.md R210). -/
def State.runOver (s : State) : Prop :=
  ∀ e, (s.engine e).phase = .idle ∧ s.reqData e = none

/-- "A stream call is over when it returns `Ok` or `Err`" (70_reset_and_hazards.md R210). -/
def Call.over (c : Call) : Prop :=
  ∃ r, c.stat = .finished r

/-- The two states are the same for engine `e`: its registers, its channel, its inputs at this edge, and its calls. -/
def agreeOn (e : EngineId) (s t : State) : Prop :=
  s.engine e = t.engine e ∧ s.channel e = t.channel e ∧ s.params = t.params ∧ s.edge.rst = t.edge.rst ∧
  s.edge.port e = t.edge.port e ∧ ∀ (k : Nat) (c : Call), c.kind = e → (s.calls[k]? = some c ↔ t.calls[k]? = some c)

/-- What a call returns and, if it returns `Ok`, what its `OUT` holds: `OUT` after `Err` is nobody's to rely on
(43_stream.md R147, R163). None while it has no result. -/
def Call.report (c : Call) : Option (CallResult × Option Buffer) :=
  match c.stat with
  | .finished (.ok n) => some (.ok n, some c.output)
  | .finished (.err k) => some (.err k, none)
  | .start => none
  | .ready => none
  | .waiting _ => none
  | .cut => none

/-- The report of a call as an outcome left it. -/
def reportOf : Host.Outcome Call Fault Refusal → Option (CallResult × Option Buffer)
  | .next c => c.report
  | .fault _ => none
  | .refused _ => none

/-- The report of a call once it is run on to its end by atomic transactions (43_stream.md R149, R156;
70_reset_and_hazards.md R209): a call that waits takes the response of its command first. None if it stops or was cut. -/
def Call.verdict (p : Params) (c : Call) : Option (CallResult × Option Buffer) :=
  match c.stat with
  | .waiting _ => reportOf (andThen (c.transact p) (Call.atomicRun p (c.input.size + 1)))
  | .finished _ => c.report
  | .cut => none
  | .start => reportOf (c.atomicRun p (c.input.size + 1))
  | .ready => reportOf (c.atomicRun p (c.input.size + 1))

/-- A call that can be made: not begun, its buffers canonical and disjoint (20_memory.md R47, R48). -/
def Call.valid (c : Call) (e : EngineId) : Prop :=
  c.kind = e ∧ c.stat = .start ∧ callOk c ∧ c.overlaps = false

/-- The call returned `Ok` with these units in `OUT[0..len)` and left the rest of `OUT` as it was (43_stream.md R147, R169). -/
def reportsOk (r : Option (CallResult × Option Buffer)) (old : Buffer) (units : List Byte) : Prop :=
  ∃ out, r = some (.ok units.length, some out) ∧ out.size = old.size ∧ out.take units.length = units ∧
    ∀ a, units.length ≤ a → out.mem.read a = old.mem.read a

/-- The call returned this error (43_stream.md R147). -/
def reportsErr (r : Option (CallResult × Option Buffer)) (k : ErrKind) : Prop :=
  r = some (.err k, none)

end Sys2Proof.Machine
end

