-- ==== Sys2Proof/Certificates/Slice0/Obligations.lean ====
section
/-! DEFINITION. The statements about the machine, from the numbered rules of the spec. -/

open Sys2Proof Sys2Proof.Machine

/-! ### Encoding -/

/-- Decoding the encoding of a command gives it back, every operand at every value (30_encoding.md R66 to R68, R82). -/
def Obligations.DecodeAfterEncodeIsIdentity : Prop :=
  ∀ i : Instr, decode (encode i) = .ok i

/-- Encoding what a word decodes to gives the word with its unused lanes 0 (30_encoding.md R67, R68, R81, R82). -/
def Obligations.EncodeAfterDecodeKeepsUsedBits : Prop :=
  ∀ (w : Word) (i : Instr), decode w = .ok i → encode i = w &&& usedMask i

/-- 30_encoding.md R83: a word matches exactly one row and is legal on that row's engine only, or it matches none and is
illegal on both; bits `[63:40]` decide. -/
def Obligations.EveryWordMatchesOneRowOrNone : Prop :=
  (∀ w : Word,
    (∃ r ∈ opcodeTable, r.matches w = true ∧ (∀ q ∈ opcodeTable, q.matches w = true → q = r) ∧
      (∀ e, legalOn e w ↔ e = r.engine) ∧ ∃ i, decode w = .ok i ∧ i.mnemonic = r.mnemonic ∧ i.engine = r.engine) ∨
    ((∀ r ∈ opcodeTable, r.matches w = false) ∧ ∀ e, ¬ legalOn e w)) ∧
  (∀ (e : EngineId) (w v : Word), w.extractLsb' 40 24 = v.extractLsb' 40 24 → (legalOn e w ↔ legalOn e v))

/-- 30_encoding.md R80: which words are illegal on which engine, and that an illegal word is answered ILLEGAL_COMMAND
and changes no other state. -/
def Obligations.IllegalWordsAreAnswered : Prop :=
  (∀ w : Word, ¬ legalOn .enc w ↔
    (w.extractLsb' 60 4 ≠ 0x1 ∨ w.extractLsb' 40 17 ≠ 0 ∨ 4 < (w.extractLsb' 57 3).toNat)) ∧
  (∀ w : Word, ¬ legalOn .dec w ↔
    (w.extractLsb' 60 4 ≠ 0x2 ∨ w.extractLsb' 40 17 ≠ 0 ∨ 5 < (w.extractLsb' 57 3).toNat)) ∧
  (∀ (e : EngineId) (s : State), ¬ legalOn e (s.engine e).cmd →
    execute e s = .next (answered e 0x8000000000000000 s))

/-- Words of 95_test_vectors.md, one or more a family, decode to the commands they are written for. -/
def Obligations.SpecWordsDecode : Prop :=
  decode 0x1000000000000000 = .ok .enc0 ∧
  decode 0x120000006F000000 = .ok (.enc1 0x6F) ∧
  decode 0x1400000012340000 = .ok (.enc2 0x12 0x34) ∧
  decode 0x1600000012345600 = .ok (.enc3 0x12 0x34 0x56) ∧
  decode 0x1800000068656C6C = .ok (.enc4 0x68 0x65 0x6C 0x6C) ∧
  decode 0x2000000041424344 = .ok .dec0 ∧
  decode 0x2200007A41000000 = .ok (.dec1 0x7A) ∧
  decode 0x240000445AFF007A = .ok (.dec2 0x44 0x5A) ∧
  decode 0x2600002669390000 = .ok (.dec3 0x26 0x69 0x39) ∧
  decode 0x28000026693C5600 = .ok (.dec4 0x26 0x69 0x3C 0x56) ∧
  decode 0x2A0000424F752172 = .ok (.dec5 0x42 0x4F 0x75 0x21 0x72)

/-- 30_encoding.md R81: the lanes a command does not use are ignored, by the decoder and by the response functions. -/
def Obligations.UnusedLanesAreIgnored : Prop :=
  ∀ (p : Params) (w v : Word) (i : Instr), decode w = .ok i → w &&& usedMask i = v &&& usedMask i →
    decode v = .ok i ∧ ∀ e, engineResponse p e w = engineResponse p e v

/-- 30_encoding.md R72 and R96's `pack`: the places of the fields of a response word. -/
def Obligations.ResponseFieldsReadBack : Prop :=
  ∀ (st : Status) (ocnt epos : Nat) (zf : Bool) (payload : Payload), ocnt < 8 → epos < 8 →
    let r := pack st ocnt epos zf payload
    rspStatus r = statusCode st ∧ rspOcnt r = ocnt ∧ rspEpos r = epos ∧ rspZf r = zf ∧ rspReserved r = 0 ∧
    rspPayload r = payload ∧
    r.toNat = (statusCode st).toNat * 2 ^ 61 + ocnt * 2 ^ 58 + epos * 2 ^ 55 + zf.toNat * 2 ^ 54 + payload.toNat

/-- 41_encoder.md R97, 42_decoder.md R117: the error response words. -/
def Obligations.ErrorResponseWords : Prop :=
  raise .illegalCommand 0 = 0x8000000000000000 ∧
  (∀ k, k < 5 → raise .badDecodeChar k = 0x2000000000000000 ||| (BitVec.ofNat 64 k <<< 55)) ∧
  raise .decodeOverflow 0 = 0x4000000000000000 ∧
  ∀ (st : Status) (k : Nat), rspOcnt (raise st k) = 0 ∧ rspPayload (raise st k) = 0 ∧ rspZf (raise st k) = false

/-! ### The encoder's commands -/

/-- 41_encoder.md R102. -/
def Obligations.Enc0AnswersNothing : Prop :=
  (∀ w : Word, w &&& 0xFFFFFF0000000000 = 0x1000000000000000 → decode w = .ok .enc0) ∧
  (∀ s : State, exec .enc0 s = .next (answered .enc (pack .ok 0 0 false 0) s)) ∧
  pack .ok 0 0 false 0 = 0x0000000000000000

/-- 41_encoder.md R103. -/
def Obligations.Enc1AnswersTwoCharacters : Prop :=
  (∀ w : Word, w &&& 0xFFFFFF0000000000 = 0x1200000000000000 → decode w = .ok (.enc1 (w.extractLsb' 24 8))) ∧
  (∀ (b0 : Byte) (s : State),
    let acc := b0.toNat * 2 ^ 24
    let e (i : Nat) : Payload := BitVec.ofNat 40 (acc / 85 ^ (4 - i) % 85 + 33)
    exec (.enc1 b0) s = .next (answered .enc (pack .ok 2 0 false (e 0 <<< 32 ||| e 1 <<< 24)) s)) ∧
  (∀ s : State, exec (.enc1 0x00) s = .next (answered .enc 0x0800002121000000 s)) ∧
  (∀ s : State, exec (.enc1 0xFF) s = .next (answered .enc 0x0800007272000000 s)) ∧
  (∀ (b0 : Byte) (s t : State), exec (.enc1 b0) s = .next t → t.enc.rsp.toNat ≤ 0x0800007272000000) ∧
  (∀ s : State, exec (.enc1 0x6F) s = .next (answered .enc 0x080000445A000000 s))

/-- 41_encoder.md R104. -/
def Obligations.Enc2AnswersThreeCharacters : Prop :=
  (∀ w : Word, w &&& 0xFFFFFF0000000000 = 0x1400000000000000 →
    decode w = .ok (.enc2 (w.extractLsb' 24 8) (w.extractLsb' 16 8))) ∧
  (∀ (b0 b1 : Byte) (s : State),
    let acc := b0.toNat * 2 ^ 24 + b1.toNat * 2 ^ 16
    let e (i : Nat) : Payload := BitVec.ofNat 40 (acc / 85 ^ (4 - i) % 85 + 33)
    exec (.enc2 b0 b1) s = .next (answered .enc (pack .ok 3 0 false (e 0 <<< 32 ||| e 1 <<< 24 ||| e 2 <<< 16)) s)) ∧
  (∀ s : State, exec (.enc2 0x00 0x00) s = .next (answered .enc 0x0C00002121210000 s)) ∧
  (∀ s : State, exec (.enc2 0xFF 0xFF) s = .next (answered .enc 0x0C000073384E0000 s)) ∧
  (∀ s : State, exec (.enc2 0x12 0x34) s = .next (answered .enc 0x0C00002669390000 s))

/-- 41_encoder.md R105. -/
def Obligations.Enc3AnswersFourCharacters : Prop :=
  (∀ w : Word, w &&& 0xFFFFFF0000000000 = 0x1600000000000000 →
    decode w = .ok (.enc3 (w.extractLsb' 24 8) (w.extractLsb' 16 8) (w.extractLsb' 8 8))) ∧
  (∀ (b0 b1 b2 : Byte) (s : State),
    let acc := b0.toNat * 2 ^ 24 + b1.toNat * 2 ^ 16 + b2.toNat * 2 ^ 8
    let e (i : Nat) : Payload := BitVec.ofNat 40 (acc / 85 ^ (4 - i) % 85 + 33)
    exec (.enc3 b0 b1 b2) s =
      .next (answered .enc (pack .ok 4 0 false (e 0 <<< 32 ||| e 1 <<< 24 ||| e 2 <<< 16 ||| e 3 <<< 8)) s)) ∧
  (∀ s : State, exec (.enc3 0x00 0x00 0x00) s = .next (answered .enc 0x1000002121212100 s)) ∧
  (∀ s : State, exec (.enc3 0xFF 0xFF 0xFF) s = .next (answered .enc 0x1000007338572A00 s)) ∧
  (∀ s : State, exec (.enc3 0x12 0x34 0x56) s = .next (answered .enc 0x10000026693C5600 s))

/-- 41_encoder.md R106. -/
def Obligations.Enc4AnswersShortcutOrFiveCharacters : Prop :=
  (∀ w : Word, w &&& 0xFFFFFF0000000000 = 0x1800000000000000 →
    decode w = .ok (.enc4 (w.extractLsb' 24 8) (w.extractLsb' 16 8) (w.extractLsb' 8 8) (w.extractLsb' 0 8))) ∧
  (∀ (b0 b1 b2 b3 : Byte) (s : State),
    let acc := b0.toNat * 2 ^ 24 + b1.toNat * 2 ^ 16 + b2.toNat * 2 ^ 8 + b3.toNat
    let e (i : Nat) : Payload := BitVec.ofNat 40 (acc / 85 ^ (4 - i) % 85 + 33)
    exec (.enc4 b0 b1 b2 b3) s =
      .next (answered .enc
        (if acc = 0 then pack .ok 1 0 true ((0x7A : Payload) <<< 32)
         else pack .ok 5 0 false (e 0 <<< 32 ||| e 1 <<< 24 ||| e 2 <<< 16 ||| e 3 <<< 8 ||| e 4)) s)) ∧
  (∀ s : State, exec (.enc4 0 0 0 0) s = .next (answered .enc 0x0440007A00000000 s)) ∧
  (∀ s : State, exec (.enc4 0 0 0 1) s = .next (answered .enc 0x1400002121212122 s)) ∧
  (∀ s : State, exec (.enc4 0xFF 0xFF 0xFF 0xFF) s = .next (answered .enc 0x1400007338572D21 s)) ∧
  (∀ (b0 b1 b2 b3 : Byte) (s t : State), exec (.enc4 b0 b1 b2 b3) s = .next t → rspZf t.enc.rsp = false →
    0x1400002121212122 ≤ t.enc.rsp.toNat ∧ t.enc.rsp.toNat ≤ 0x1400007338572D21) ∧
  (∀ s : State, exec (.enc4 0x68 0x65 0x6C 0x6C) s = .next (answered .enc 0x140000424F752172 s))

/-- 41_encoder.md R107: the arithmetic of the radix-85 conversion, for every accumulator. -/
def Obligations.EncoderDigitsAreExact : Prop :=
  ∀ acc : Acc,
    digit acc 0 = acc.toNat / 85 ^ 4 ∧ digit acc 0 ≤ 82 ∧ (∀ i, i < 5 → digit acc i ≤ 84) ∧
    digit acc 0 * 85 ^ 4 + digit acc 1 * 85 ^ 3 + digit acc 2 * 85 ^ 2 + digit acc 3 * 85 + digit acc 4 = acc.toNat ∧
    (digitChar acc 0).toNat ≤ 115 ∧
    ∀ i, i < 5 → (digitChar acc i).toNat = digit acc i + 33 ∧ isDigit (digitChar acc i) = true

/-- 41_encoder.md R108, R109: every legal ENC word is answered `OK` with a count that is never 0 for `n ≥ 1`, and every
output character is a digit, but for the `z` of the shortcut. -/
def Obligations.EncoderAnswersOkWithDigits : Prop :=
  ∀ w : Word,
    let n := (w.extractLsb' 57 3).toNat
    let r := fEnc w
    (legalOn .enc w →
      rspStatus r = statusCode .ok ∧ rspEpos r = 0 ∧ rspReserved r = 0 ∧
      rspOcnt r = (if n = 0 then 0 else if rspZf r then 1 else n + 1) ∧
      (rspZf r = true ↔ n = 4 ∧ w.extractLsb' 0 32 = 0) ∧
      (rspZf r = true → responseUnits .enc r = [shortcutChar]) ∧
      (rspZf r = false → ∀ c ∈ responseUnits .enc r, isDigit c = true ∧ c ≠ shortcutChar)) ∧
    (¬ legalOn .enc w → r = 0x8000000000000000)

/-- 41_encoder.md R96: ENC's EXECUTE writes `F_ENC` of the command word, whatever the word is, and changes nothing else. -/
def Obligations.EncoderExecutesItsResponseFunction : Prop :=
  ∀ s : State, execute .enc s = .next (answered .enc (fEnc s.enc.cmd) s)

/-! ### The decoder's commands -/

/-- 42_decoder.md R127. -/
def Obligations.Dec0AnswersNothing : Prop :=
  (∀ w : Word, w &&& 0xFFFFFF0000000000 = 0x2000000000000000 → decode w = .ok .dec0) ∧
  (∀ s : State, exec .dec0 s = .next (answered .dec (pack .ok 0 0 false 0) s)) ∧
  pack .ok 0 0 false 0 = 0x0000000000000000

/-- 42_decoder.md R128, under both policies. -/
def Obligations.Dec1AnswersShortcutOrLoneTail : Prop :=
  (∀ w : Word, w &&& 0xFFFFFF0000000000 = 0x2200000000000000 → decode w = .ok (.dec1 (w.extractLsb' 32 8))) ∧
  (∀ (c0 : Byte) (s : State),
    exec (.dec1 c0) s = .next (answered .dec
      (if c0.toNat = 122 then pack .ok 4 0 true 0
       else if s.params.loneTail = .reject then pack .badDecodeChar 0 0 false 0
       else if c0.toNat < 33 ∨ 117 < c0.toNat then pack .badDecodeChar 0 0 false 0
       else if 2 ^ 32 - 1 < (c0.toNat - 33 + 1) * 85 ^ 4 - 1 then pack .decodeOverflow 0 0 false 0
       else pack .ok 0 0 false 0) s)) ∧
  (∀ (c0 : Byte) (s : State), s.params.loneTail = .checks → 33 ≤ c0.toNat → c0.toNat ≤ 114 →
    exec (.dec1 c0) s = .next (answered .dec 0x0000000000000000 s)) ∧
  (∀ (c0 : Byte) (s : State), s.params.loneTail = .checks → 115 ≤ c0.toNat → c0.toNat ≤ 117 →
    exec (.dec1 c0) s = .next (answered .dec 0x4000000000000000 s)) ∧
  (∀ s : State, exec (.dec1 126) s = .next (answered .dec 0x2000000000000000 s)) ∧
  (∀ s : State, exec (.dec1 122) s = .next (answered .dec 0x1040000000000000 s))

/-- 42_decoder.md R129. -/
def Obligations.Dec2AnswersOneByte : Prop :=
  (∀ w : Word, w &&& 0xFFFFFF0000000000 = 0x2400000000000000 →
    decode w = .ok (.dec2 (w.extractLsb' 32 8) (w.extractLsb' 24 8))) ∧
  (∀ (c0 c1 : Byte) (s : State),
    let v := (c0.toNat - 33) * 85 ^ 4 + (c1.toNat - 33) * 85 ^ 3 + 84 * (85 ^ 2 + 85 + 1)
    exec (.dec2 c0 c1) s = .next (answered .dec
      (if c0.toNat < 33 ∨ 117 < c0.toNat then pack .badDecodeChar 0 0 false 0
       else if c1.toNat < 33 ∨ 117 < c1.toNat then pack .badDecodeChar 0 1 false 0
       else if 2 ^ 32 - 1 < v then pack .decodeOverflow 0 0 false 0
       else pack .ok 1 0 false (BitVec.ofNat 40 (v / 2 ^ 24 * 2 ^ 24))) s)) ∧
  (∀ s : State, exec (.dec2 33 33) s = .next (answered .dec 0x0400000000000000 s)) ∧
  (∀ s : State, exec (.dec2 114 114) s = .next (answered .dec 0x04000000FF000000 s)) ∧
  (∀ s : State, exec (.dec2 115 55) s = .next (answered .dec 0x04000000FF000000 s)) ∧
  (∀ (c0 c1 : Byte) (s : State), isDigit c0 = true → isDigit c1 = true →
    256 * 115 + 56 ≤ 256 * c0.toNat + c1.toNat → exec (.dec2 c0 c1) s = .next (answered .dec 0x4000000000000000 s)) ∧
  (∀ s : State, exec (.dec2 33 122) s = .next (answered .dec 0x2080000000000000 s)) ∧
  (∀ s : State, exec (.dec2 126 62) s = .next (answered .dec 0x2000000000000000 s)) ∧
  (∀ s : State, exec (.dec2 60 126) s = .next (answered .dec 0x2080000000000000 s)) ∧
  (∀ s : State, exec (.dec2 68 90) s = .next (answered .dec 0x040000006F000000 s))

/-- 42_decoder.md R130. -/
def Obligations.Dec3AnswersTwoBytes : Prop :=
  (∀ w : Word, w &&& 0xFFFFFF0000000000 = 0x2600000000000000 →
    decode w = .ok (.dec3 (w.extractLsb' 32 8) (w.extractLsb' 24 8) (w.extractLsb' 16 8))) ∧
  (∀ (c0 c1 c2 : Byte) (s : State),
    let v := (c0.toNat - 33) * 85 ^ 4 + (c1.toNat - 33) * 85 ^ 3 + (c2.toNat - 33) * 85 ^ 2 + 84 * (85 + 1)
    exec (.dec3 c0 c1 c2) s = .next (answered .dec
      (if c0.toNat < 33 ∨ 117 < c0.toNat then pack .badDecodeChar 0 0 false 0
       else if c1.toNat < 33 ∨ 117 < c1.toNat then pack .badDecodeChar 0 1 false 0
       else if c2.toNat < 33 ∨ 117 < c2.toNat then pack .badDecodeChar 0 2 false 0
       else if 2 ^ 32 - 1 < v then pack .decodeOverflow 0 0 false 0
       else pack .ok 2 0 false (BitVec.ofNat 40 (v / 2 ^ 16 * 2 ^ 16))) s)) ∧
  (∀ s : State, exec (.dec3 33 33 33) s = .next (answered .dec 0x0800000000000000 s)) ∧
  (∀ s : State, exec (.dec3 115 56 78) s = .next (answered .dec 0x08000000FFFF0000 s)) ∧
  (∀ s : State, exec (.dec3 115 56 86) s = .next (answered .dec 0x08000000FFFF0000 s)) ∧
  (∀ s : State, exec (.dec3 115 56 87) s = .next (answered .dec 0x4000000000000000 s)) ∧
  (∀ s : State, exec (.dec3 33 33 122) s = .next (answered .dec 0x2100000000000000 s)) ∧
  (∀ s : State, exec (.dec3 38 105 57) s = .next (answered .dec 0x0800000012340000 s))

/-- 42_decoder.md R131. -/
def Obligations.Dec4AnswersThreeBytes : Prop :=
  (∀ w : Word, w &&& 0xFFFFFF0000000000 = 0x2800000000000000 →
    decode w = .ok (.dec4 (w.extractLsb' 32 8) (w.extractLsb' 24 8) (w.extractLsb' 16 8) (w.extractLsb' 8 8))) ∧
  (∀ (c0 c1 c2 c3 : Byte) (s : State),
    let v := (c0.toNat - 33) * 85 ^ 4 + (c1.toNat - 33) * 85 ^ 3 + (c2.toNat - 33) * 85 ^ 2
      + (c3.toNat - 33) * 85 + 84
    exec (.dec4 c0 c1 c2 c3) s = .next (answered .dec
      (if c0.toNat < 33 ∨ 117 < c0.toNat then pack .badDecodeChar 0 0 false 0
       else if c1.toNat < 33 ∨ 117 < c1.toNat then pack .badDecodeChar 0 1 false 0
       else if c2.toNat < 33 ∨ 117 < c2.toNat then pack .badDecodeChar 0 2 false 0
       else if c3.toNat < 33 ∨ 117 < c3.toNat then pack .badDecodeChar 0 3 false 0
       else if 2 ^ 32 - 1 < v then pack .decodeOverflow 0 0 false 0
       else pack .ok 3 0 false (BitVec.ofNat 40 (v / 2 ^ 8 * 2 ^ 8))) s)) ∧
  (∀ s : State, exec (.dec4 33 33 33 33) s = .next (answered .dec 0x0C00000000000000 s)) ∧
  (∀ s : State, exec (.dec4 115 56 87 42) s = .next (answered .dec 0x0C000000FFFFFF00 s)) ∧
  (∀ s : State, exec (.dec4 115 56 87 44) s = .next (answered .dec 0x0C000000FFFFFF00 s)) ∧
  (∀ s : State, exec (.dec4 115 56 87 45) s = .next (answered .dec 0x4000000000000000 s)) ∧
  (∀ s : State, exec (.dec4 97 98 99 120) s = .next (answered .dec 0x2180000000000000 s)) ∧
  (∀ s : State, exec (.dec4 38 105 60 86) s = .next (answered .dec 0x0C00000012345600 s))

/-- 42_decoder.md R132. -/
def Obligations.Dec5AnswersFourBytes : Prop :=
  (∀ w : Word, w &&& 0xFFFFFF0000000000 = 0x2A00000000000000 →
    decode w = .ok (.dec5 (w.extractLsb' 32 8) (w.extractLsb' 24 8) (w.extractLsb' 16 8) (w.extractLsb' 8 8)
      (w.extractLsb' 0 8))) ∧
  (∀ (c0 c1 c2 c3 c4 : Byte) (s : State),
    let v := (c0.toNat - 33) * 85 ^ 4 + (c1.toNat - 33) * 85 ^ 3 + (c2.toNat - 33) * 85 ^ 2
      + (c3.toNat - 33) * 85 + (c4.toNat - 33)
    exec (.dec5 c0 c1 c2 c3 c4) s = .next (answered .dec
      (if c0.toNat < 33 ∨ 117 < c0.toNat then pack .badDecodeChar 0 0 false 0
       else if c1.toNat < 33 ∨ 117 < c1.toNat then pack .badDecodeChar 0 1 false 0
       else if c2.toNat < 33 ∨ 117 < c2.toNat then pack .badDecodeChar 0 2 false 0
       else if c3.toNat < 33 ∨ 117 < c3.toNat then pack .badDecodeChar 0 3 false 0
       else if c4.toNat < 33 ∨ 117 < c4.toNat then pack .badDecodeChar 0 4 false 0
       else if 2 ^ 32 - 1 < v then pack .decodeOverflow 0 0 false 0
       else pack .ok 4 0 false (BitVec.ofNat 40 v)) s)) ∧
  (∀ s : State, exec (.dec5 33 33 33 33 33) s = .next (answered .dec 0x1000000000000000 s)) ∧
  (∀ s : State, exec (.dec5 115 56 87 45 33) s = .next (answered .dec 0x10000000FFFFFFFF s)) ∧
  (∀ s : State, exec (.dec5 115 56 87 45 34) s = .next (answered .dec 0x4000000000000000 s)) ∧
  (∀ s : State, exec (.dec5 117 117 117 117 117) s = .next (answered .dec 0x4000000000000000 s)) ∧
  (∀ s : State, exec (.dec5 117 117 117 117 33) s = .next (answered .dec 0x4000000000000000 s)) ∧
  (∀ s : State, exec (.dec5 122 33 33 33 33) s = .next (answered .dec 0x2000000000000000 s)) ∧
  (∀ s : State, exec (.dec5 66 79 117 33 114) s = .next (answered .dec 0x1000000068656C6C s))

/-- 42_decoder.md R116: DEC's EXECUTE writes `F_DEC` of the command word, whatever the word is, and changes nothing else. -/
def Obligations.DecoderExecutesItsResponseFunction : Prop :=
  ∀ s : State, execute .dec s = .next (answered .dec (fDec s.params.loneTail s.dec.cmd) s)

/-- 42_decoder.md R133: the order of the outcomes, each under the failure of the ones before it. -/
def Obligations.DecoderOutcomesInOrder : Prop :=
  ∀ (policy : LoneTailPolicy) (w : Word),
    let m := (w.extractLsb' 57 3).toNat
    let cs := charsOfCommand w m
    (¬ legalOn .dec w → fDec policy w = raise .illegalCommand 0) ∧
    (legalOn .dec w → m = 0 → fDec policy w = pack .ok 0 0 false 0) ∧
    (legalOn .dec w → cs = [shortcutChar] → fDec policy w = pack .ok 4 0 true 0) ∧
    (legalOn .dec w → m = 1 → cs ≠ [shortcutChar] → policy = .reject → fDec policy w = raise .badDecodeChar 0) ∧
    (legalOn .dec w → m ≠ 0 → cs ≠ [shortcutChar] → ¬ (m = 1 ∧ policy = .reject) →
      (∀ k c, cs[k]? = some c → isDigit c = false → (∀ b ∈ cs.take k, isDigit b = true) →
        fDec policy w = raise .badDecodeChar k) ∧
      ((∀ c ∈ cs, isDigit c = true) → 2 ^ 32 - 1 < polyValue cs → fDec policy w = raise .decodeOverflow 0) ∧
      ((∀ c ∈ cs, isDigit c = true) → polyValue cs ≤ 2 ^ 32 - 1 →
        rspStatus (fDec policy w) = statusCode .ok ∧ rspZf (fDec policy w) = false ∧
        responseUnits .dec (fDec policy w) = (bytesOf (BitVec.ofNat 32 (polyValue cs))).take (m - 1)))

/-- 42_decoder.md R125: the value is bounded, an overflow is answered DECODE_OVERFLOW, and the serial evaluator agrees
with the polynomial. -/
def Obligations.SerialEvaluatorAgrees : Prop :=
  ∀ cs : List Byte, cs.length ≤ 5 → (∀ c ∈ cs, isDigit c = true) →
    polyValue cs ≤ 85 ^ 5 - 1 ∧ (serialFour cs).toNat ≤ 85 ^ 4 - 1 ∧
    (serialAcc cs).toNat = polyValue cs % 2 ^ 32 ∧ (serialOvf cs = true ↔ 2 ^ 32 ≤ polyValue cs) ∧
    serialAcc cs = decAcc cs ∧ serialOvf cs = decOvf cs ∧
    (2 ^ 32 - 1 < polyValue cs → decGroup cs = raise .decodeOverflow 0)

/-- 42_decoder.md R134: the overflow thresholds. -/
def Obligations.OverflowThresholds : Prop :=
  ∀ cs : List Byte, 1 ≤ cs.length → cs.length ≤ 5 → (∀ c ∈ cs, isDigit c = true) →
    let d := paddedDigit cs
    (2 ^ 32 - 1 < polyValue cs ↔
      82 < d 0 ∨ (d 0 = 82 ∧ (23 < d 1 ∨ (d 1 = 23 ∧ (54 < d 2 ∨ (d 2 = 54 ∧ (12 < d 3 ∨ (d 3 = 12 ∧ 0 < d 4)))))))) ∧
    (cs.length = 1 → (polyValue cs ≤ 2 ^ 32 - 1 ↔ codeValue cs 0 ≤ codeValue [114] 0) ∧
      (2 ^ 32 - 1 < polyValue cs ↔ codeValue [115] 0 ≤ codeValue cs 0)) ∧
    (cs.length = 2 → (polyValue cs ≤ 2 ^ 32 - 1 ↔ codeValue cs 0 ≤ codeValue [115, 55] 0) ∧
      (2 ^ 32 - 1 < polyValue cs ↔ codeValue [115, 56] 0 ≤ codeValue cs 0)) ∧
    (cs.length = 3 → (polyValue cs ≤ 2 ^ 32 - 1 ↔ codeValue cs 0 ≤ codeValue [115, 56, 86] 0) ∧
      (2 ^ 32 - 1 < polyValue cs ↔ codeValue [115, 56, 87] 0 ≤ codeValue cs 0)) ∧
    (cs.length = 4 → (polyValue cs ≤ 2 ^ 32 - 1 ↔ codeValue cs 0 ≤ codeValue [115, 56, 87, 44] 0) ∧
      (2 ^ 32 - 1 < polyValue cs ↔ codeValue [115, 56, 87, 45] 0 ≤ codeValue cs 0)) ∧
    (cs.length = 5 → (polyValue cs ≤ 2 ^ 32 - 1 ↔ codeValue cs 0 ≤ codeValue [115, 56, 87, 45, 33] 0) ∧
      (2 ^ 32 - 1 < polyValue cs ↔ codeValue [115, 56, 87, 45, 34] 0 ≤ codeValue cs 0)) ∧
    (d 0 ≤ 81 → polyValue cs ≤ 2 ^ 32 - 1)

/-- 42_decoder.md R136: what ENC answers to a group, DEC decodes to the same bytes, under both policies. -/
def Obligations.GroupRoundTrip : Prop :=
  ∀ (policy : LoneTailPolicy) (bs : List Byte), 1 ≤ bs.length → bs.length ≤ 4 →
    let r := fEnc (groupCommand .enc bs)
    let q := fDec policy (groupCommand .dec (responseUnits .enc r))
    rspStatus q = statusCode .ok ∧ rspOcnt q = bs.length ∧ responseUnits .dec q = bs

/-! ### What every command leaves alone -/

/-- 70_reset_and_hazards.md R202, 60_exceptions.md R182: a command writes its engine's `rsp` and `phase` and nothing else:
not `cmd`, not the other engine, not a channel, a parameter, a call, a buffer's byte. -/
def Obligations.CommandsChangeOnlyTheirResponse : Prop :=
  ∀ (i : Instr) (s t : State), exec i s = .next t →
    (t.engine i.engine).cmd = (s.engine i.engine).cmd ∧ (t.engine i.engine).phase = .done ∧
    (∀ e, e ≠ i.engine → t.engine e = s.engine e) ∧ (∀ e, t.channel e = s.channel e) ∧
    t.params = s.params ∧ t.inputs = s.inputs ∧ t.free = s.free ∧ t.calls = s.calls ∧
    ∀ (k : Nat) (c d : Call), s.calls[k]? = some c → t.calls[k]? = some d →
      ∀ a, d.input.read a = c.input.read a ∧ d.output.read a = c.output.read a

/-! ### The clock edge -/

/-- A step runs the decoded command: EXECUTE of an engine whose command decodes is `exec` of it (70_reset_and_hazards.md
R202), alone when the other engine has nothing to do, one after the other when both execute. That EXECUTE comes exactly when
the countdown is 0 (log entry 3) and that ENC's part of an edge comes before DEC's (log entry 4) are the model's choices. -/
def Obligations.StepRunsTheDecodedCommand : Prop :=
  (∀ (e : EngineId) (x : Port) (o : Option Offer) (s : State) (i : Instr),
    (s.engine e).phase = .busy → (s.channel e).wait = 0 → decodeFor e (s.engine e).cmd = .ok i →
    engineEdge e x o s = exec i s) ∧
  (∀ (e : EngineId) (s : State) (i : Instr), s.edge.rst = false → s.edge.enc.req = none → s.edge.dec.req = none →
    (s.engine e).phase = .busy → (s.channel e).wait = 0 → decodeFor e (s.engine e).cmd = .ok i →
    (∀ f, f ≠ e → (s.engine f).phase = .idle) → step s = exec i s.popEdge) ∧
  (∀ (s : State) (i j : Instr), s.edge.rst = false → s.edge.enc.req = none → s.edge.dec.req = none →
    s.enc.phase = .busy → s.dec.phase = .busy → s.encCh.wait = 0 → s.decCh.wait = 0 →
    decodeFor .enc s.enc.cmd = .ok i → decodeFor .dec s.dec.cmd = .ok j →
    step s = andThen (exec i s.popEdge) (exec j))

/-- The model's own (log entry 6): a word placed for execution is executed by the very next step. -/
def Obligations.PlacedWordIsExecutedNext : Prop :=
  ∀ (s : State) (w : Word) (i : Instr), decode w = .ok i → (∀ e, e ≠ i.engine → (s.engine e).phase ≠ .busy) →
    let t := s.withFetchWord 64 w.toNat
    (t.engine i.engine).cmd = w ∧ (t.engine i.engine).phase = .busy ∧ t.edge.rst = false ∧
    step t = exec i t.popEdge ∧ t.popEdge.inputs = s.inputs

/-- 10_state.md R33, with the outputs of R25. -/
def Obligations.ResetStateIsIdleAndZero : Prop :=
  ∀ e : EngineId,
    (State.reset.engine e).phase = .idle ∧ phaseCode (State.reset.engine e).phase = 0 ∧
    (State.reset.engine e).cmd = 0x0000000000000000 ∧ (State.reset.engine e).rsp = 0x0000000000000000 ∧
    reqReady (State.reset.engine e) = true ∧ rspValid (State.reset.engine e) = false

/-- 70_reset_and_hazards.md R196, from every state (so from every power-up state, R198). That the record of the
responses taken stands over a reset is the model's choice (log entry 17). -/
def Obligations.ResetEdgeResetsBothEngines : Prop :=
  ∀ s : State, s.edge.rst = true →
    ∃ t, step s = .next t ∧
      (∀ e, t.engine e = { phase := .idle, cmd := 0, rsp := 0 } ∧ (t.channel e).owner = none ∧
        (t.channel e).log = (s.channel e).log) ∧
      t.params = s.params ∧ t.inputs = s.inputs.tail

/-- 70_reset_and_hazards.md R197: a stream call interrupted by reset has no result; every other call is untouched. That
a call between two of its groups counts as interrupted is the model's choice (log entry 9). -/
def Obligations.ResetEdgeCutsRunningCalls : Prop :=
  ∀ (s : State) (k : Nat) (c : Call), s.edge.rst = true → s.calls[k]? = some c →
    ∃ t d, step s = .next t ∧ t.calls[k]? = some d ∧
      (c.running = true → d.stat = .cut ∧ d.report = none ∧ d.input = c.input ∧ d.output.size = c.output.size) ∧
      (c.running = false → d = c)

/-- 70_reset_and_hazards.md R201: ACCEPT of the word on the request channel, raw or presented by a call. That the wait
until EXECUTE (R207) is fixed at this edge is the model's choice (log entry 3). -/
def Obligations.IdleEngineAcceptsTheWordPresented : Prop :=
  ∀ (e : EngineId) (s t : State) (w : Word), s.edge.rst = false → step s = .next t →
    (s.engine e).phase = .idle →
    ((s.edge.port e).req = some (.word w) ∨
      (s.Inv ∧ ∃ u k c, offer e (s.edge.port e) s.popEdge = .next (u, some (w, some (k, c))))) →
    (t.engine e).phase = .busy ∧ (t.engine e).cmd = w ∧ (t.engine e).rsp = (s.engine e).rsp ∧
    (t.channel e).wait + 1 = max 1 (latency s.params e) + (s.edge.port e).extra

/-- 70_reset_and_hazards.md R202: EXECUTE writes the response and `DONE`. The countdown before it is the model's form of
R207 (log entry 3). -/
def Obligations.BusyEngineExecutesOrWaits : Prop :=
  ∀ (e : EngineId) (s t : State), s.edge.rst = false → step s = .next t → (s.engine e).phase = .busy →
    ((s.channel e).wait = 0 →
      t.engine e = { phase := .done, cmd := (s.engine e).cmd,
                     rsp := engineResponse s.params e (s.engine e).cmd }) ∧
    (∀ n, (s.channel e).wait = n + 1 → t.engine e = s.engine e ∧ (t.channel e).wait = n)

/-- 70_reset_and_hazards.md R203: RETIRE, and that a response not taken stays (R204, R208). The record of it is the
model's own (log entry 17). -/
def Obligations.DoneEngineRetiresWhenTaken : Prop :=
  ∀ (e : EngineId) (s t : State), s.edge.rst = false → step s = .next t → (s.engine e).phase = .done →
    ((s.edge.port e).rspReady = true →
      t.engine e = { phase := .idle, cmd := (s.engine e).cmd, rsp := (s.engine e).rsp } ∧
      (t.channel e).log = ⟨(s.engine e).cmd, (s.engine e).rsp⟩ :: (s.channel e).log) ∧
    ((s.edge.port e).rspReady = false → t.engine e = s.engine e ∧ t.channel e = s.channel e)

/-- 70_reset_and_hazards.md R204: a request presented to an engine that is not `IDLE` is neither accepted nor lost, and
no ACCEPT happens at the edge of a RETIRE. -/
def Obligations.BusyChannelNeitherAcceptsNorLoses : Prop :=
  ∀ (e : EngineId) (s t : State), s.edge.rst = false → step s = .next t → (s.engine e).phase ≠ .idle →
    reqReady (s.engine e) = false ∧ (t.engine e).cmd = (s.engine e).cmd ∧
    ((s.engine e).phase = .done → (t.engine e).phase ≠ .busy) ∧
    ∀ (k : Nat) (c : Call), s.calls[k]? = some c → c.kind = e → c.stat = .ready → c.i < c.input.size →
      t.calls[k]? = some c

/-- 10_state.md R22, R23, R24: the registers change only by ACCEPT, EXECUTE and RETIRE. -/
def Obligations.RegistersChangeOnlyByTheirSteps : Prop :=
  ∀ (e : EngineId) (s t : State), s.edge.rst = false → step s = .next t →
    (((t.engine e).phase = (s.engine e).phase) ∨ ((s.engine e).phase = .idle ∧ (t.engine e).phase = .busy) ∨
      ((s.engine e).phase = .busy ∧ (t.engine e).phase = .done) ∨
      ((s.engine e).phase = .done ∧ (t.engine e).phase = .idle)) ∧
    ((t.engine e).cmd ≠ (s.engine e).cmd → (s.engine e).phase = .idle ∧ (t.engine e).phase = .busy) ∧
    ((t.engine e).rsp ≠ (s.engine e).rsp → (s.engine e).phase = .busy ∧ (t.engine e).phase = .done)

/-- 20_memory.md R56, 60_exceptions.md R181: what happens on one engine does not depend on the other. -/
def Obligations.EnginesAreIndependent : Prop :=
  ∀ (e : EngineId) (s s' t t' : State), s.Inv → s'.Inv → agreeOn e s s' → step s = .next t → step s' = .next t' →
    t.engine e = t'.engine e ∧ t.channel e = t'.channel e

/-- 70_reset_and_hazards.md R207, R208: an engine in `BUSY` reaches EXECUTE after exactly the edges it has to wait (the
model's countdown, log entry 3), if no reset comes; no call that would be refused may start meanwhile. -/
def Obligations.BusyEngineCompletes : Prop :=
  ∀ (e : EngineId) (s : State) (n : Nat), s.Inv → (∀ c ∈ s.calls, c.overlaps = false) →
    (s.engine e).phase = .busy → (s.channel e).wait = n → (∀ x ∈ s.inputs.take (n + 1), x.rst = false) →
    (∀ j, j ≤ n → ∃ t, runSteps j s = .next t ∧ t.engine e = s.engine e) ∧
    ∃ t, runSteps (n + 1) s = .next t ∧ (t.engine e).phase = .done ∧
      (t.engine e).rsp = engineResponse s.params e (s.engine e).cmd

/-- 70_reset_and_hazards.md R210: once a run is over, an edge without reset changes no engine and no channel, and no call
but one whose turn the host makes it to end without a command (log entries 16 and 20); if it makes no call's turn that
can act, nothing changes at all. A call that is over stays as it is. -/
def Obligations.FinishedRunStandsStill : Prop :=
  (∀ s t : State, s.runOver → s.edge.rst = false → step s = .next t →
    (∀ e, t.engine e = s.engine e ∧ t.channel e = s.channel e) ∧ t.params = s.params ∧ t.inputs = s.inputs.tail ∧
    ∀ (k : Nat) (c : Call), s.calls[k]? = some c →
      ∃ d, t.calls[k]? = some d ∧ (d = c ∨ ((c.stat = .start ∨ c.stat = .ready) ∧ d.over))) ∧
  (∀ s : State, s.runOver → s.edge.rst = false →
    (∀ (e : EngineId) (k : Nat) (c : Call), (s.edge.port e).req = some (.call k) → s.calls[k]? = some c →
      c.mayDrive e = false) →
    step s = .next s.popEdge) ∧
  (∀ (s t : State) (k : Nat) (c : Call), step s = .next t → s.calls[k]? = some c → c.over → t.calls[k]? = some c)

/-- 10_state.md R30: "The parameters of 00_scope.md rule R8 are fixed when the hardware is built": no step changes them,
and each step uses up one edge of inputs. -/
def Obligations.ParametersNeverChange : Prop :=
  ∀ s t : State, step s = .next t → t.params = s.params ∧ t.inputs = s.inputs.tail ∧ t.calls.length = s.calls.length

/-! ### The invariant -/

/-- The invariant holds at reset. -/
def Obligations.ResetStateHasTheInvariant : Prop :=
  State.reset.Inv

/-- 70_reset_and_hazards.md R209: every step keeps the invariant; in particular every response that was taken is the
response function of the word that was accepted, and all buffers stay canonical. -/
def Obligations.StepKeepsTheInvariant : Prop :=
  ∀ s t : State, s.Inv → step s = .next t → t.Inv

/-- 20_memory.md R50, R48; 60_exceptions.md R176: under the invariant no step faults, and a step is refused only where a
call with overlapping buffers would begin. Which stops there are is the model's reading (log entries 11, 12, 18). -/
def Obligations.StepStopsOnlyForOverlap : Prop :=
  ∀ s : State, s.Inv →
    (∀ f, step s ≠ .fault f) ∧
    (∀ r, step s = .refused r → r = .overlappingBuffers ∧ ∃ c ∈ s.calls, c.stat = .start ∧ c.overlaps = true) ∧
    ((∀ c ∈ s.calls, c.overlaps = false) → ∃ t, step s = .next t)

/-! ### The stream framing -/

/-- 20_memory.md R48: a call whose buffers overlap is refused. That overlap means an address in both of the ranges where the
platform placed them, and that the refusal comes at the edge where the call would begin, is the model's reading (log entry
11). -/
def Obligations.OverlappingCallIsRefused : Prop :=
  (∀ (p : Params) (c : Call), c.stat = .start →
    (c.poll p = .refused .overlappingBuffers ↔
      ∃ a, c.inAddr ≤ a ∧ a < c.inAddr + c.input.size ∧ c.outAddr ≤ a ∧ a < c.outAddr + c.output.size)) ∧
  (∀ (e : EngineId) (x : Port) (s : State) (k : Nat) (c : Call), x.req = some (.call k) → s.calls[k]? = some c →
    c.kind = e → c.stat = .start → c.overlaps = true → channelEdge e x s = .refused .overlappingBuffers)

/-- 43_stream.md R154, R160: an empty input gives `Ok(0)` for every capacity, writes nothing and issues no command. -/
def Obligations.EmptyInputGivesOkZero : Prop :=
  ∀ (p : Params) (e : EngineId) (c : Call), c.valid e → c.input.size = 0 →
    c.verdict p = some (.ok 0, some c.output) ∧
    ∀ (s : State) (k : Nat) (x : Port), s.params = p → s.calls[k]? = some c → x.req = some (.call k) →
      ∃ u d, offer e x s = .next (u, none) ∧ u.calls[k]? = some d ∧ d.output = c.output ∧
        d.stat = .finished (.ok 0) ∧ u.enc = s.enc ∧ u.dec = s.dec

/-- 43_stream.md R149, R150, R169 under `EXACT`: `encode` returns its text iff it fits, else `Err(CAPACITY)`. -/
def Obligations.EncodeReturnsItsTextOrCapacity : Prop :=
  ∀ (p : Params) (c : Call), p.capacityCheck = .exact → c.valid .enc →
    let text := encodeText c.input.bytes
    (text.length ≤ c.output.size → reportsOk (c.verdict p) c.output text) ∧
    (c.output.size < text.length → reportsErr (c.verdict p) .capacity)

/-- 43_stream.md R151, R158: under `WORST_CASE` a call returns `Err(CAPACITY)` up front, before any command, if the worst
case does not fit; else it does what it does under `EXACT`. -/
def Obligations.WorstCaseIsCheckedUpFront : Prop :=
  ∀ (p : Params) (e : EngineId) (c : Call), c.valid e →
    let bound := match e with
      | .enc => 5 * ((c.input.size + 3) / 4)
      | .dec => 4 * ((c.input.size + 4) / 5)
    (c.output.size < bound →
      c.poll { p with capacityCheck := .worstCase } =
        .next { c with i := 0, w := 0, stat := .finished (.err .capacity) }) ∧
    (bound ≤ c.output.size →
      c.verdict { p with capacityCheck := .worstCase } = c.verdict { p with capacityCheck := .exact }) ∧
    (e = .enc → bound ≤ c.output.size → ¬ reportsErr (c.verdict { p with capacityCheck := .worstCase }) .capacity)

/-- 43_stream.md R152, R153: the exact length a call of `encode` returns, and its bound. -/
def Obligations.EncodeLengthIsExact : Prop :=
  ∀ (p : Params) (c : Call) (len : Nat) (out : Option Buffer), c.valid .enc → c.verdict p = some (.ok len, out) →
    let n := c.input.size
    let z := zeroGroups c.input.bytes
    len = (encodeText c.input.bytes).length ∧
    len + 4 * z = 5 * (n / 4) + (if n % 4 = 0 then 0 else n % 4 + 1) ∧
    len ≤ 5 * ((n + 3) / 4) ∧
    (len = 5 * ((n + 3) / 4) ↔ z = 0 ∧ n % 4 = 0)

/-- 43_stream.md R165: runs of zero bytes, as a call of `encode` with room for them writes them. -/
def Obligations.ZeroGroupsEncodeToShortcuts : Prop :=
  (∀ (p : Params) (k m room : Nat) (pre post : List Byte), pre.length = 4 * m →
    5 * ((pre.length + 4 * k + post.length + 3) / 4) ≤ room →
    reportsOk ((Call.fresh .enc (pre ++ List.replicate (4 * k) 0 ++ post) room).verdict p) (Buffer.blank room)
      (encodeText pre ++ List.replicate k shortcutChar ++ encodeText post)) ∧
  (∀ (p : Params) (m n room : Nat) (pre : List Byte), pre.length = 4 * m → 1 ≤ n → n ≤ 3 →
    5 * ((pre.length + n + 3) / 4) ≤ room →
    reportsOk ((Call.fresh .enc (pre ++ List.replicate n 0) room).verdict p) (Buffer.blank room)
      (encodeText pre ++ List.replicate (n + 1) 33))

/-- 43_stream.md R156, R157, R161 under `EXACT`: `decode` returns the bytes of the text if they fit; the first error of
the text if the bytes of the groups before it fit; else `Err(CAPACITY)`. -/
def Obligations.DecodeReturnsItsBytesOrFirstError : Prop :=
  ∀ (p : Params) (c : Call), p.capacityCheck = .exact → c.valid .dec →
    let before := bytesBeforeError p.loneTail c.input.bytes
    (∀ bs, decodeText p.loneTail c.input.bytes = .ok bs →
      before = bs ∧ (bs.length ≤ c.output.size → reportsOk (c.verdict p) c.output bs)) ∧
    (∀ k, decodeText p.loneTail c.input.bytes = .error k →
      before.length ≤ c.output.size → reportsErr (c.verdict p) k) ∧
    (c.output.size < before.length → reportsErr (c.verdict p) .capacity)

/-- 43_stream.md R159: the exact length a call of `decode` returns, and its bounds. The groups are those of R155: they
make up the text in order, a group that begins with `z` is `z` alone, and only the last can be shorter than 5 without being
`z`. -/
def Obligations.DecodedLengthIsBounded : Prop :=
  ∀ (p : Params) (c : Call) (len : Nat) (out : Option Buffer), c.valid .dec → c.verdict p = some (.ok len, out) →
    let gs := textGroups c.input.bytes
    let gz := gs.countP (fun g => g == [shortcutChar])
    let g5 := gs.countP (fun g => g.length == 5)
    gs.flatten = c.input.bytes ∧
    (∀ g ∈ gs, 1 ≤ g.length ∧ g.length ≤ 5 ∧ (g.head? = some shortcutChar → g = [shortcutChar])) ∧
    (∀ g ∈ gs.dropLast, g = [shortcutChar] ∨ g.length = 5) ∧
    len = 4 * gz + 4 * g5 + (gs.map partialBytes).sum ∧
    len ≤ 4 * c.input.size ∧ (shortcutChar ∉ c.input.bytes → len ≤ 4 * ((c.input.size + 4) / 5))

/-- 43_stream.md R164: the round-trip law, for every byte sequence and every parameter. -/
def Obligations.RoundTripLaw : Prop :=
  ∀ (p : Params) (bs : List Byte) (room back : Nat), 5 * ((bs.length + 3) / 4) ≤ room →
    let text := encodeText bs
    reportsOk ((Call.fresh .enc bs room).verdict p) (Buffer.blank room) text ∧
    text.length ≤ 5 * ((bs.length + 3) / 4) ∧ 4 * ((text.length + 4) / 5) ≤ bs.length + 3 ∧
    ((p.capacityCheck = .exact ∧ bs.length ≤ back ∨
        p.capacityCheck = .worstCase ∧ max bs.length (4 * ((text.length + 4) / 5)) ≤ back) →
      reportsOk ((Call.fresh .dec text back).verdict p) (Buffer.blank back) bs)

/-- 43_stream.md R146, R166; 70_reset_and_hazards.md R209: whatever the latencies, the other calls, the raw requests and
the other engine do, every edge without reset leaves every call on its way to the same result and the same output. -/
def Obligations.StepKeepsEveryCallsResult : Prop :=
  ∀ (s t : State) (k : Nat) (c : Call), s.Inv → s.edge.rst = false → step s = .next t → s.calls[k]? = some c →
    ∃ d, t.calls[k]? = some d ∧ d.verdict t.params = c.verdict s.params

/-- 43_stream.md R167: a call can be driven to its end through its engine, to the result of the atomic view, with at most
`ceil(L/4)` or `L` commands. -/
def Obligations.EveryCallCanEnd : Prop :=
  ∀ (p : Params) (e : EngineId) (c : Call), c.valid e →
    ∃ (n : Nat) (edges : List Edge) (t : State) (d : Call),
      runSteps n { State.reset with params := p, calls := [c], inputs := edges } = .next t ∧ t.calls = [d] ∧
      d.report = c.verdict p ∧ d.report ≠ none ∧
      (t.channel e).log.length ≤ (match e with | .enc => (c.input.size + 3) / 4 | .dec => c.input.size)

/-- 20_memory.md R50, R53; 43_stream.md R162: a step changes no input buffer and no capacity, lists no byte at or beyond
the capacity, and a call that takes a response writes only at `[w, w + ocnt)`. -/
def Obligations.NoWriteBeyondTheCapacity : Prop :=
  (∀ (s t : State) (k : Nat) (c : Call), s.Inv → step s = .next t → s.calls[k]? = some c →
    ∃ d, t.calls[k]? = some d ∧ d.input = c.input ∧ d.output.size = c.output.size ∧ d.output.wf = true ∧
      d.kind = c.kind ∧ d.inAddr = c.inAddr ∧ d.outAddr = c.outAddr) ∧
  (∀ (c d : Call) (r : Word), callOk c → c.take r = .next d →
    d.w ≤ max c.w d.output.size ∧ d.output.size = c.output.size ∧
    ∀ a, a < c.w ∨ c.w + rspOcnt r ≤ a → d.output.mem.read a = c.output.mem.read a)

/-- 43_stream.md R170: the int32 mapping, for any three distinct negative sentinels. That a length above 2^31 - 1 is
refused is the model's choice (log entry 13). -/
def Obligations.SentinelsAreNegativeAndDistinct : Prop :=
  ∀ t : Sentinels, t.wf = true →
    (∀ len, len ≤ 2 ^ 31 - 1 → ∃ v, toInt32 t (.ok len) = .next v ∧ v.toInt = len) ∧
    (∀ len, 2 ^ 31 - 1 < len → toInt32 t (.ok len) = .refused .lengthBeyondInt32) ∧
    (∀ k, ∃ v, toInt32 t (.err k) = .next v ∧ v.toInt < 0) ∧
    (∀ k l, toInt32 t (.err k) = toInt32 t (.err l) → k = l) ∧
    toInt32 t (.err .capacity) = .next t.capacity ∧ toInt32 t (.err .badDecodeChar) = .next t.badChar ∧
    toInt32 t (.err .decodeOverflow) = .next t.overflow

/-! ### The assembler -/

/-- 30_encoding.md R85: assembling what the disassembler prints gives the word back, its unused lanes 0 if it is legal. -/
def Obligations.AssembleAfterDisassemble : Prop :=
  (∀ (w : Word) (i : Instr), decode w = .ok i → assemble (disassemble w) = some (encode i)) ∧
  (∀ (w : Word) (x : DecodeError), decode w = .error x → assemble (disassemble w) = some w)

/-- 30_encoding.md R86: the four pseudo-instructions. -/
def Obligations.PseudoInstructionsExpand : Prop :=
  assemble ['n', 'o', 'p', '.', 'e', 'n', 'c'] = some 0x1000000000000000 ∧
  assemble ['n', 'o', 'p', '.', 'd', 'e', 'c'] = some 0x2000000000000000 ∧
  assemble ['d', 'e', 'c', '.', 'z'] = some 0x2200007A00000000 ∧
  assemble ['e', 'n', 'c', '.', 'z', 'e', 'r', 'o'] = some 0x1800000000000000 ∧
  decode 0x1000000000000000 = .ok .enc0 ∧ decode 0x2000000000000000 = .ok .dec0 ∧
  decode 0x2200007A00000000 = .ok (.dec1 shortcutChar) ∧ decode 0x1800000000000000 = .ok (.enc4 0 0 0 0)
end

