-- ==== Sys2Proof/Laws/State.lean ====
section
/-! SUPPORT. One lemma per field per update of State and its records, all true by `rfl`, so that no proof unfolds an
update. -/

namespace Sys2Proof.Machine

@[simp] theorem setEngine_enc_enc (s : State) (r : Engine) : (s.setEngine .enc r).enc = r := rfl
@[simp] theorem setEngine_enc_dec (s : State) (r : Engine) : (s.setEngine .enc r).dec = s.dec := rfl
@[simp] theorem setEngine_dec_dec (s : State) (r : Engine) : (s.setEngine .dec r).dec = r := rfl
@[simp] theorem setEngine_dec_enc (s : State) (r : Engine) : (s.setEngine .dec r).enc = s.enc := rfl
@[simp] theorem setChannel_enc_encCh (s : State) (c : Channel) : (s.setChannel .enc c).encCh = c := rfl
@[simp] theorem setChannel_enc_decCh (s : State) (c : Channel) : (s.setChannel .enc c).decCh = s.decCh := rfl
@[simp] theorem setChannel_dec_decCh (s : State) (c : Channel) : (s.setChannel .dec c).decCh = c := rfl
@[simp] theorem setChannel_dec_encCh (s : State) (c : Channel) : (s.setChannel .dec c).encCh = s.encCh := rfl

@[simp] theorem engine_enc (s : State) : s.engine .enc = s.enc := rfl
@[simp] theorem engine_dec (s : State) : s.engine .dec = s.dec := rfl
@[simp] theorem channel_enc (s : State) : s.channel .enc = s.encCh := rfl
@[simp] theorem channel_dec (s : State) : s.channel .dec = s.decCh := rfl

@[simp] theorem engine_setEngine_same (s : State) (e : EngineId) (r : Engine) : (s.setEngine e r).engine e = r := by
  cases e <;> rfl

theorem engine_setEngine_other (s : State) {e f : EngineId} (h : f ≠ e) (r : Engine) :
    (s.setEngine e r).engine f = s.engine f := by
  cases e <;> cases f <;> first | rfl | exact absurd rfl h

@[simp] theorem channel_setChannel_same (s : State) (e : EngineId) (c : Channel) :
    (s.setChannel e c).channel e = c := by
  cases e <;> rfl

theorem channel_setChannel_other (s : State) {e f : EngineId} (h : f ≠ e) (c : Channel) :
    (s.setChannel e c).channel f = s.channel f := by
  cases e <;> cases f <;> first | rfl | exact absurd rfl h

@[simp] theorem channel_setEngine (s : State) (e f : EngineId) (r : Engine) :
    (s.setEngine e r).channel f = s.channel f := by
  cases e <;> cases f <;> rfl

@[simp] theorem engine_setChannel (s : State) (e f : EngineId) (c : Channel) :
    (s.setChannel e c).engine f = s.engine f := by
  cases e <;> cases f <;> rfl

@[simp] theorem setEngine_params (s : State) (e : EngineId) (r : Engine) : (s.setEngine e r).params = s.params := by
  cases e <;> rfl
@[simp] theorem setEngine_calls (s : State) (e : EngineId) (r : Engine) : (s.setEngine e r).calls = s.calls := by
  cases e <;> rfl
@[simp] theorem setEngine_inputs (s : State) (e : EngineId) (r : Engine) : (s.setEngine e r).inputs = s.inputs := by
  cases e <;> rfl
@[simp] theorem setEngine_free (s : State) (e : EngineId) (r : Engine) : (s.setEngine e r).free = s.free := by
  cases e <;> rfl
@[simp] theorem setChannel_params (s : State) (e : EngineId) (c : Channel) :
    (s.setChannel e c).params = s.params := by
  cases e <;> rfl
@[simp] theorem setChannel_calls (s : State) (e : EngineId) (c : Channel) : (s.setChannel e c).calls = s.calls := by
  cases e <;> rfl
@[simp] theorem setChannel_inputs (s : State) (e : EngineId) (c : Channel) :
    (s.setChannel e c).inputs = s.inputs := by
  cases e <;> rfl
@[simp] theorem setChannel_free (s : State) (e : EngineId) (c : Channel) : (s.setChannel e c).free = s.free := by
  cases e <;> rfl

@[simp] theorem popEdge_engine (s : State) (e : EngineId) : s.popEdge.engine e = s.engine e := by cases e <;> rfl
@[simp] theorem popEdge_channel (s : State) (e : EngineId) : s.popEdge.channel e = s.channel e := by cases e <;> rfl
@[simp] theorem popEdge_enc (s : State) : s.popEdge.enc = s.enc := rfl
@[simp] theorem popEdge_dec (s : State) : s.popEdge.dec = s.dec := rfl
@[simp] theorem popEdge_encCh (s : State) : s.popEdge.encCh = s.encCh := rfl
@[simp] theorem popEdge_decCh (s : State) : s.popEdge.decCh = s.decCh := rfl
@[simp] theorem popEdge_params (s : State) : s.popEdge.params = s.params := rfl
@[simp] theorem popEdge_calls (s : State) : s.popEdge.calls = s.calls := rfl
@[simp] theorem popEdge_inputs (s : State) : s.popEdge.inputs = s.inputs.tail := rfl
@[simp] theorem popEdge_free (s : State) : s.popEdge.free = s.free := rfl

@[simp] theorem answered_engine_same (e : EngineId) (r : Word) (s : State) :
    (answered e r s).engine e = { phase := .done, cmd := (s.engine e).cmd, rsp := r } := by cases e <;> rfl

theorem answered_engine_other {e f : EngineId} (h : f ≠ e) (r : Word) (s : State) :
    (answered e r s).engine f = s.engine f := by
  cases e <;> cases f <;> first | rfl | exact absurd rfl h

@[simp] theorem answered_channel (e f : EngineId) (r : Word) (s : State) :
    (answered e r s).channel f = s.channel f := by cases e <;> cases f <;> rfl
@[simp] theorem answered_params (e : EngineId) (r : Word) (s : State) : (answered e r s).params = s.params := by
  cases e <;> rfl
@[simp] theorem answered_calls (e : EngineId) (r : Word) (s : State) : (answered e r s).calls = s.calls := by
  cases e <;> rfl
@[simp] theorem answered_inputs (e : EngineId) (r : Word) (s : State) : (answered e r s).inputs = s.inputs := by
  cases e <;> rfl
@[simp] theorem answered_free (e : EngineId) (r : Word) (s : State) : (answered e r s).free = s.free := by
  cases e <;> rfl

@[simp] theorem resetEdge_engine (s : State) (e : EngineId) : (resetEdge s).engine e = Engine.reset := by
  cases e <;> rfl
@[simp] theorem resetEdge_channel (s : State) (e : EngineId) :
    (resetEdge s).channel e = { s.channel e with wait := 0, owner := none } := by cases e <;> rfl
@[simp] theorem resetEdge_params (s : State) : (resetEdge s).params = s.params := rfl
@[simp] theorem resetEdge_inputs (s : State) : (resetEdge s).inputs = s.inputs := rfl
@[simp] theorem resetEdge_calls (s : State) : (resetEdge s).calls = cutCalls s.calls s.free := rfl

end Sys2Proof.Machine
end

