-- ==== Sys2Proof/Laws/Memory.lean ====
section
/-! SUPPORT. The laws of byte memories and buffers: a read after a write, every other address left alone, and the
canonical form kept by every operation. -/

namespace Sys2Proof.Machine

theorem lookupCell_below {cells : List Host.Cell} {lo a : Nat} (h : cellsWf cells lo = true) (ha : a < lo) :
    lookupCell cells a = Memory.unlisted := by
  induction cells generalizing lo with
  | nil => rfl
  | cons x rest ih =>
    obtain ⟨b, v⟩ := x
    simp only [cellsWf, Bool.and_eq_true, decide_eq_true_eq] at h
    simp only [lookupCell, if_neg (show ¬ b = a by omega)]
    exact ih h.2 (by omega)

theorem lookupCell_insertCell {cells : List Host.Cell} {lo : Nat} (h : cellsWf cells lo = true) (a b : Nat) (v : Byte) :
    lookupCell (insertCell cells a v) b = if b = a then v else lookupCell cells b := by
  induction cells generalizing lo with
  | nil =>
    by_cases hv : v = Memory.unlisted
    · simp [insertCell, lookupCell, hv]
    · by_cases hb : b = a
      · simp [insertCell, lookupCell, hv, hb]
      · simp [insertCell, lookupCell, hv, hb, Ne.symm hb]
  | cons x rest ih =>
    obtain ⟨c, w⟩ := x
    simp only [cellsWf, Bool.and_eq_true, decide_eq_true_eq] at h
    have hlow := lookupCell_below h.2 (a := a)
    have hr := ih h.2
    by_cases hb : b = a
    · subst hb
      simp only [insertCell]
      split
      · next hlt =>
        split
        · next hv => simp [lookupCell, if_neg (show ¬ c = b by omega), hlow (by omega), hv]
        · simp [lookupCell]
      · next hlt =>
        split
        · next hc =>
          split
          · next hv => simp [hlow (by omega), hv]
          · simp [lookupCell]
        · next hc => simp [lookupCell, hr, if_neg (show ¬ c = b by omega)]
    · simp only [insertCell, if_neg hb]
      split
      · split
        · rfl
        · simp [lookupCell, Ne.symm hb]
      · split
        · next hc =>
          subst hc
          split <;> simp [lookupCell, Ne.symm hb]
        · simp [lookupCell, hr, hb]

theorem cellsWf_insertCell {cells : List Host.Cell} {lo : Nat} (h : cellsWf cells lo = true) {a : Nat} (v : Byte)
    (ha : lo ≤ a) : cellsWf (insertCell cells a v) lo = true := by
  induction cells generalizing lo with
  | nil =>
    by_cases hv : v = Memory.unlisted <;> simp [insertCell, cellsWf, hv, ha]
  | cons x rest ih =>
    obtain ⟨c, w⟩ := x
    have h' := h
    simp only [cellsWf, Bool.and_eq_true, decide_eq_true_eq] at h
    simp only [insertCell]
    split
    · next hlt =>
      split
      · exact h'
      · next hv => simp [cellsWf, hv, ha, Nat.succ_le_of_lt hlt, h.1.2, h.2]
    · next hlt =>
      split
      · next hc =>
        subst hc
        split
        · next hv =>
          exact (by
            have mono : ∀ (l : List Host.Cell) (m n : Nat), n ≤ m → cellsWf l m = true → cellsWf l n = true := by
              intro l m n hmn hl
              cases l with
              | nil => rfl
              | cons y ys =>
                simp only [cellsWf, Bool.and_eq_true, decide_eq_true_eq] at hl ⊢
                exact ⟨⟨by omega, hl.1.2⟩, hl.2⟩
            exact mono rest _ _ (by omega) h.2)
        · next hv => simp [cellsWf, hv, ha, h.2]
      · next hc =>
        simp only [cellsWf, Bool.and_eq_true, decide_eq_true_eq]
        exact ⟨⟨h.1.1, h.1.2⟩, ih h.2 (by omega)⟩

/-- A read after a write. -/
theorem Memory.read_write {m : Memory} (h : m.wf = true) (a b : Nat) (v : Byte) :
    (m.write a v).read b = if b = a then v else m.read b :=
  lookupCell_insertCell h a b v

/-- A write keeps the canonical form. -/
theorem Memory.wf_write {m : Memory} (h : m.wf = true) (a : Nat) (v : Byte) : (m.write a v).wf = true :=
  cellsWf_insertCell h v (Nat.zero_le a)

@[simp] theorem Memory.wf_empty : Memory.empty.wf = true := rfl
@[simp] theorem Memory.read_empty (a : Nat) : Memory.empty.read a = Memory.unlisted := rfl

theorem cells_ext {xs ys : List Host.Cell} {lo : Nat} (hx : cellsWf xs lo = true) (hy : cellsWf ys lo = true)
    (h : ∀ a, lookupCell xs a = lookupCell ys a) : xs = ys := by
  induction xs generalizing ys lo with
  | nil =>
    cases ys with
    | nil => rfl
    | cons y ys =>
      obtain ⟨b, v⟩ := y
      simp only [cellsWf, Bool.and_eq_true, decide_eq_true_eq, bne_iff_ne] at hy
      have := h b
      simp [lookupCell] at this
      exact absurd this.symm hy.1.2
  | cons x xs ih =>
    obtain ⟨a, u⟩ := x
    simp only [cellsWf, Bool.and_eq_true, decide_eq_true_eq, bne_iff_ne] at hx
    cases ys with
    | nil =>
      have := h a
      simp [lookupCell] at this
      exact absurd this hx.1.2
    | cons y ys =>
      obtain ⟨b, v⟩ := y
      simp only [cellsWf, Bool.and_eq_true, decide_eq_true_eq, bne_iff_ne] at hy
      have key : a = b := by
        rcases Nat.lt_trichotomy a b with hlt | heq | hgt
        · have := h a
          simp only [lookupCell, if_true, if_neg (show ¬ b = a by omega)] at this
          rw [lookupCell_below hy.2 (by omega)] at this
          exact absurd this hx.1.2
        · exact heq
        · have := h b
          simp only [lookupCell, if_true, if_neg (show ¬ a = b by omega)] at this
          rw [lookupCell_below hx.2 (by omega)] at this
          exact absurd this.symm hy.1.2
      subst key
      have huv : u = v := by simpa [lookupCell] using h a
      subst huv
      refine congrArg _ (ih hx.2 hy.2 fun c => ?_)
      by_cases hc : a = c
      · subst hc
        rw [lookupCell_below hx.2 (by omega), lookupCell_below hy.2 (by omega)]
      · simpa [lookupCell, hc] using h c

/-- Canonical memories that read alike are equal. -/
theorem Memory.ext_of_read {m n : Memory} (hm : m.wf = true) (hn : n.wf = true) (h : ∀ a, m.read a = n.read a) :
    m = n := by
  cases m; cases n
  exact congrArg _ (cells_ext hm hn h)

theorem all_insertCell {cells : List Host.Cell} {n a : Nat} {v : Byte}
    (h : cells.all (fun c => decide (c.1 < n)) = true) (ha : a < n) :
    (insertCell cells a v).all (fun c => decide (c.1 < n)) = true := by
  induction cells with
  | nil => by_cases hv : v = Memory.unlisted <;> simp [insertCell, hv, ha]
  | cons x rest ih =>
    obtain ⟨c, w⟩ := x
    have h0 := h
    simp only [List.all_cons, Bool.and_eq_true, decide_eq_true_eq] at h
    simp only [insertCell]
    split
    · split
      · exact h0
      · simp only [List.all_cons, Bool.and_eq_true, decide_eq_true_eq]
        exact ⟨ha, h⟩
    · split
      · split
        · exact h.2
        · simp only [List.all_cons, Bool.and_eq_true, decide_eq_true_eq]
          exact ⟨ha, h.2⟩
      · simp only [List.all_cons, Bool.and_eq_true, decide_eq_true_eq]
        exact ⟨h.1, ih h.2⟩

theorem Buffer.wf_iff (b : Buffer) :
    b.wf = true ↔ b.mem.wf = true ∧ b.mem.cells.all (fun c => decide (c.1 < b.size)) = true := by
  simp [Buffer.wf]

/-- What a write to a buffer can do. -/
theorem Buffer.write_eq_some {b c : Buffer} {i : Nat} {v : Byte} (h : b.write i v = some c) :
    i < b.size ∧ c.size = b.size ∧ c.mem = b.mem.write i v := by
  unfold Buffer.write at h
  split at h
  · cases h; exact ⟨‹_›, rfl, rfl⟩
  · cases h

theorem Buffer.wf_write {b c : Buffer} {i : Nat} {v : Byte} (hb : b.wf = true) (h : b.write i v = some c) :
    c.wf = true := by
  obtain ⟨hi, hs, hm⟩ := Buffer.write_eq_some h
  rw [Buffer.wf_iff] at hb ⊢
  rw [hm, hs]
  exact ⟨Memory.wf_write hb.1 i v, all_insertCell hb.2 hi⟩

/-- What a run of writes can do: it stays in the buffer, stores the bytes in order, and leaves every other byte alone. -/
theorem Buffer.writeAll_eq_some {vs : List Byte} {b c : Buffer} {i : Nat} (hb : b.wf = true)
    (h : b.writeAll i vs = some c) :
    c.size = b.size ∧ c.wf = true ∧ (vs ≠ [] → i + vs.length ≤ b.size) ∧
    ∀ a, c.mem.read a = if i ≤ a ∧ a < i + vs.length then vs.getD (a - i) 0 else b.mem.read a := by
  induction vs generalizing b i with
  | nil =>
    simp only [Buffer.writeAll, Option.some.injEq] at h
    subst h
    refine ⟨rfl, hb, by simp, fun a => ?_⟩
    rw [if_neg (by simp)]
  | cons v vs ih =>
    simp only [Buffer.writeAll] at h
    split at h
    · next b' hw =>
      obtain ⟨hi, hs, hm⟩ := Buffer.write_eq_some hw
      obtain ⟨h1, h2, h3, h4⟩ := ih (Buffer.wf_write hb hw) h
      refine ⟨h1.trans hs, h2, fun _ => ?_, fun a => ?_⟩
      · by_cases hv : vs = []
        · subst hv; simp; omega
        · have := h3 hv; simp only [List.length_cons]; omega
      · rw [h4, hm, Memory.read_write ((Buffer.wf_iff b).1 hb).1]
        by_cases ha : a = i
        · subst ha
          rw [if_neg (by omega), if_pos rfl, if_pos (by simp)]
          simp
        · rw [if_neg ha]
          by_cases hr : i + 1 ≤ a ∧ a < i + 1 + vs.length
          · rw [if_pos hr, if_pos (by simp only [List.length_cons]; omega)]
            rw [show a - i = (a - (i + 1)) + 1 by omega, List.getD_cons_succ]
          · rw [if_neg hr, if_neg (by simp only [List.length_cons]; omega)]
    · cases h

/-- A run of writes that ends in the buffer succeeds. -/
theorem Buffer.writeAll_isSome {vs : List Byte} {b : Buffer} {i : Nat} (h : i + vs.length ≤ b.size) :
    ∃ c, b.writeAll i vs = some c := by
  induction vs generalizing b i with
  | nil => exact ⟨b, rfl⟩
  | cons v vs ih =>
    simp only [List.length_cons] at h
    simp only [Buffer.writeAll, Buffer.write, if_pos (show i < b.size by omega)]
    exact ih (by simp; omega)

/-- A run of reads that ends in the buffer gives its bytes. -/
theorem Buffer.readAll_eq {b : Buffer} {i n : Nat} (h : i + n ≤ b.size) :
    b.readAll i n = some ((List.range n).map fun k => b.mem.read (i + k)) := by
  induction n generalizing i with
  | zero => rfl
  | succ n ih =>
    simp only [Buffer.readAll, Buffer.read, if_pos (show i < b.size by omega), ih (by omega : i + 1 + n ≤ b.size)]
    simp [List.range_succ_eq_map, Function.comp_def, Nat.add_assoc, Nat.add_comm 1]

theorem freeMemory_spec (base n : Nat) :
    (freeMemory base n).wf = true ∧ (freeMemory base n).cells.all (fun c => decide (c.1 < n)) = true ∧
    ∀ a, a < n → (freeMemory base n).read a = Config.freeByte (base + a) := by
  induction n with
  | zero => exact ⟨rfl, rfl, fun a h => absurd h (Nat.not_lt_zero a)⟩
  | succ n ih =>
    obtain ⟨h1, h2, h3⟩ := ih
    refine ⟨Memory.wf_write h1 _ _, all_insertCell ?_ (Nat.lt_succ_self n), fun a ha => ?_⟩
    · rw [List.all_eq_true] at h2 ⊢
      intro x hx
      have := h2 x hx
      simp only [decide_eq_true_eq] at this ⊢
      omega
    · simp only [freeMemory]
      rw [Memory.read_write h1]
      split
      · next h => rw [h]
      · exact h3 a (by omega)

/-- A buffer whose contents are unspecified is canonical, of the same size, and holds free values. -/
theorem Buffer.freed_spec (b : Buffer) (base : Nat) :
    (b.freed base).wf = true ∧ (b.freed base).size = b.size ∧
    ∀ a, a < b.size → (b.freed base).mem.read a = Config.freeByte (base + a) := by
  obtain ⟨h1, h2, h3⟩ := freeMemory_spec base b.size
  exact ⟨(Buffer.wf_iff _).2 ⟨h1, h2⟩, rfl, h3⟩

theorem placeBytes_spec {vs : List Byte} {m : Memory} {i n : Nat} (hm : m.wf = true)
    (ha : m.cells.all (fun c => decide (c.1 < n)) = true) (hn : i + vs.length ≤ n) :
    (placeBytes m i vs).wf = true ∧ (placeBytes m i vs).cells.all (fun c => decide (c.1 < n)) = true ∧
    ∀ a, (placeBytes m i vs).read a = if i ≤ a ∧ a < i + vs.length then vs.getD (a - i) 0 else m.read a := by
  induction vs generalizing m i with
  | nil =>
    refine ⟨hm, ha, fun a => ?_⟩
    rw [if_neg (by simp)]; rfl
  | cons v vs ih =>
    simp only [List.length_cons] at hn
    obtain ⟨h1, h2, h3⟩ := ih (i := i + 1) (Memory.wf_write hm i v) (all_insertCell (v := v) ha (by omega)) (by omega)
    refine ⟨h1, h2, fun a => ?_⟩
    simp only [placeBytes]
    rw [h3, Memory.read_write hm]
    by_cases hai : a = i
    · subst hai
      rw [if_neg (by omega), if_pos rfl, if_pos (by simp)]
      simp
    · rw [if_neg hai]
      by_cases hr : i + 1 ≤ a ∧ a < i + 1 + vs.length
      · rw [if_pos hr, if_pos (by simp only [List.length_cons]; omega),
          show a - i = (a - (i + 1)) + 1 by omega, List.getD_cons_succ]
      · rw [if_neg hr, if_neg (by simp only [List.length_cons]; omega)]

/-- The buffer of a byte sequence is canonical. -/
theorem Buffer.wf_ofBytes (bs : List Byte) : (Buffer.ofBytes bs).wf = true := by
  obtain ⟨h1, h2, _⟩ := placeBytes_spec (vs := bs) (n := bs.length) (i := 0) Memory.wf_empty rfl (by simp)
  exact (Buffer.wf_iff _).2 ⟨h1, h2⟩

/-- The buffer of a byte sequence holds it. -/
@[simp] theorem Buffer.bytes_ofBytes (bs : List Byte) : (Buffer.ofBytes bs).bytes = bs := by
  obtain ⟨_, _, h3⟩ := placeBytes_spec (vs := bs) (n := bs.length) (i := 0) Memory.wf_empty rfl (by simp)
  apply List.ext_getElem
  · simp [Buffer.bytes, Buffer.take, Buffer.ofBytes]
  · intro k hk hb
    simp only [Buffer.bytes, Buffer.take, Buffer.ofBytes, List.getElem_map, List.getElem_range]
    rw [h3, if_pos (by omega)]
    simp [hb]

@[simp] theorem Buffer.size_ofBytes (bs : List Byte) : (Buffer.ofBytes bs).size = bs.length := rfl
@[simp] theorem Buffer.size_blank (n : Nat) : (Buffer.blank n).size = n := rfl
@[simp] theorem Buffer.wf_blank (n : Nat) : (Buffer.blank n).wf = true := rfl

end Sys2Proof.Machine
end

