-- ==== Sys2Proof/Laws/Words.lean ====
section
/-! SUPPORT. The fields of the two word formats, and the lanes of a payload. -/

namespace Sys2Proof

@[simp] theorem commandOf_wordOf (c : Command) : commandOf (wordOf c) = c := by
  cases c
  simp only [commandOf, wordOf, Command.mk.injEq]
  refine ⟨?_, ?_, ?_, ?_⟩ <;>
  · ext i h
    simp [h]
    try grind

/-- Every word is made of its fields. -/
theorem wordOf_commandOf (w : Word) : wordOf (commandOf w) = w := by
  apply BitVec.eq_of_getLsbD_eq
  intro i h
  interval_cases i <;> simp [wordOf, commandOf]

@[simp] theorem lane_zero_lanes (a b c d e : Byte) : lane (lanes a b c d e) 0 = a := by
  ext i h; simp [lane, lanes, h]; grind
@[simp] theorem lane_one_lanes (a b c d e : Byte) : lane (lanes a b c d e) 1 = b := by
  ext i h; simp [lane, lanes, h]; grind
@[simp] theorem lane_two_lanes (a b c d e : Byte) : lane (lanes a b c d e) 2 = c := by
  ext i h; simp [lane, lanes, h]; grind
@[simp] theorem lane_three_lanes (a b c d e : Byte) : lane (lanes a b c d e) 3 = d := by
  ext i h; simp [lane, lanes, h]; grind
@[simp] theorem lane_four_lanes (a b c d e : Byte) : lane (lanes a b c d e) 4 = e := by
  ext i h; simp [lane, lanes, h]; grind

/-- A payload is made of its lanes. -/
theorem lanes_lane (p : Payload) : lanes (lane p 0) (lane p 1) (lane p 2) (lane p 3) (lane p 4) = p := by
  ext i h
  simp [lane, lanes]
  grind

namespace Machine

@[simp] theorem rspStatus_pack (st : Status) (ocnt epos : Nat) (zf : Bool) (p : Payload) :
    rspStatus (pack st ocnt epos zf p) = statusCode st := by
  ext i h; simp [rspStatus, pack, h]; grind

@[simp] theorem rspPayload_pack (st : Status) (ocnt epos : Nat) (zf : Bool) (p : Payload) :
    rspPayload (pack st ocnt epos zf p) = p := by
  ext i h; simp [rspPayload, pack, h]; grind

@[simp] theorem rspReserved_pack (st : Status) (ocnt epos : Nat) (zf : Bool) (p : Payload) :
    rspReserved (pack st ocnt epos zf p) = 0 := by
  ext i h; simp [rspReserved, pack]; grind

@[simp] theorem rspZf_pack (st : Status) (ocnt epos : Nat) (zf : Bool) (p : Payload) :
    rspZf (pack st ocnt epos zf p) = zf := by
  simp [rspZf, pack]

@[simp] theorem rspOcnt_pack (st : Status) (ocnt epos : Nat) (zf : Bool) (p : Payload) :
    rspOcnt (pack st ocnt epos zf p) = ocnt % 8 := by
  rw [rspOcnt, ← BitVec.toNat_ofNat ocnt 3]; congr 1; ext i h; simp [pack, h]; grind

@[simp] theorem rspEpos_pack (st : Status) (ocnt epos : Nat) (zf : Bool) (p : Payload) :
    rspEpos (pack st ocnt epos zf p) = epos % 8 := by
  rw [rspEpos, ← BitVec.toNat_ofNat epos 3]; congr 1; ext i h; simp [pack, h]; grind

@[simp] theorem statusOfCode_statusCode (st : Status) : statusOfCode (statusCode st) = some st := by
  cases st <;> rfl

/-- `accOf` is the big-endian value of its bytes (20_memory.md R49). -/
theorem toNat_accOf (b0 b1 b2 b3 : Byte) :
    (accOf b0 b1 b2 b3).toNat = b0.toNat * 2 ^ 24 + b1.toNat * 2 ^ 16 + b2.toNat * 2 ^ 8 + b3.toNat := by
  have h : accOf b0 b1 b2 b3 = b0 ++ b1 ++ b2 ++ b3 := by
    ext i h
    simp [accOf]
    grind
  have step : ∀ (n : Nat) (x : BitVec n) (b : Byte), (x ++ b).toNat = x.toNat * 256 + b.toNat := by
    intro n x b
    rw [BitVec.toNat_append, Nat.shiftLeft_eq, Nat.mul_comm, ← Nat.two_pow_add_eq_or_of_lt b.isLt]
  rw [h]
  show (b0 ++ b1 ++ b2 ++ b3).toNat = _
  rw [step, step, step]
  omega

end Machine

end Sys2Proof
end

