-- ==== Sys2Proof/Laws/Ops.lean ====
section
/-! SUPPORT. What the shared operations can do: sequencing, the response of a command, and the three steps of an engine. -/

namespace Sys2Proof.Machine

@[simp] theorem andThen_next {α β : Type} (a : α) (f : α → Host.Outcome β Fault Refusal) :
    andThen (.next a) f = f a := rfl
@[simp] theorem andThen_fault {α β : Type} (r : Fault) (f : α → Host.Outcome β Fault Refusal) :
    andThen (.fault r) f = .fault r := rfl
@[simp] theorem andThen_refused {α β : Type} (r : Refusal) (f : α → Host.Outcome β Fault Refusal) :
    andThen (.refused r) f = .refused r := rfl

/-- A sequence answers a next state only through a next state of its first part. -/
theorem andThen_eq_next {α β : Type} {o : Host.Outcome α Fault Refusal} {f : α → Host.Outcome β Fault Refusal} {b : β} :
    andThen o f = .next b ↔ ∃ a, o = .next a ∧ f a = .next b := by
  cases o <;> simp

/-- A sequence faults in its first part or in its second. -/
theorem andThen_eq_fault {α β : Type} {o : Host.Outcome α Fault Refusal} {f : α → Host.Outcome β Fault Refusal}
    {r : Fault} : andThen o f = .fault r ↔ o = .fault r ∨ ∃ a, o = .next a ∧ f a = .fault r := by
  cases o <;> simp

/-- A sequence is refused in its first part or in its second. -/
theorem andThen_eq_refused {α β : Type} {o : Host.Outcome α Fault Refusal} {f : α → Host.Outcome β Fault Refusal}
    {r : Refusal} : andThen o f = .refused r ↔ o = .refused r ∨ ∃ a, o = .next a ∧ f a = .refused r := by
  cases o <;> simp

/-- Every meaning ends in one write of the response. -/
theorem respond_eq_answered (e : EngineId) (r : Word) (s : State) : respond e r s = .next (answered e r s) := by
  cases e <;> rfl

/-- Every command answers, and does nothing else. -/
theorem exec_answers (i : Instr) (s : State) : ∃ r, exec i s = .next (answered i.engine r s) := by
  cases i <;> exact ⟨_, respond_eq_answered _ _ s⟩

/-- EXECUTE answers, and does nothing else. -/
theorem execute_answers (e : EngineId) (s : State) : ∃ r, execute e s = .next (answered e r s) := by
  unfold execute
  cases h : decodeFor e (s.engine e).cmd with
  | ok i =>
    have he : i.engine = e := by
      unfold decodeFor at h
      split at h
      · split at h
        · cases h; assumption
        · cases h
      · cases h
    obtain ⟨r, hr⟩ := exec_answers i s
    exact ⟨r, he ▸ hr⟩
  | error x => exact ⟨_, respond_eq_answered _ _ s⟩

@[simp] theorem accept_engine_same (e : EngineId) (w : Word) (k : Option Nat) (n : Nat) (s : State) :
    (accept e w k n s).engine e = { phase := .busy, cmd := w, rsp := (s.engine e).rsp } := by cases e <;> rfl
theorem accept_engine_other {e f : EngineId} (h : f ≠ e) (w : Word) (k : Option Nat) (n : Nat) (s : State) :
    (accept e w k n s).engine f = s.engine f := by
  cases e <;> cases f <;> first | rfl | exact absurd rfl h
@[simp] theorem accept_channel_same (e : EngineId) (w : Word) (k : Option Nat) (n : Nat) (s : State) :
    (accept e w k n s).channel e =
      { wait := latency s.params e - 1 + n, owner := k, log := (s.channel e).log } := by cases e <;> rfl
theorem accept_channel_other {e f : EngineId} (h : f ≠ e) (w : Word) (k : Option Nat) (n : Nat) (s : State) :
    (accept e w k n s).channel f = s.channel f := by
  cases e <;> cases f <;> first | rfl | exact absurd rfl h
@[simp] theorem accept_params (e : EngineId) (w : Word) (k : Option Nat) (n : Nat) (s : State) :
    (accept e w k n s).params = s.params := by cases e <;> rfl
@[simp] theorem accept_calls (e : EngineId) (w : Word) (k : Option Nat) (n : Nat) (s : State) :
    (accept e w k n s).calls = s.calls := by cases e <;> rfl
@[simp] theorem accept_inputs (e : EngineId) (w : Word) (k : Option Nat) (n : Nat) (s : State) :
    (accept e w k n s).inputs = s.inputs := by cases e <;> rfl

@[simp] theorem tick_engine (e f : EngineId) (s : State) : (tick e s).engine f = s.engine f := by
  cases e <;> cases f <;> rfl
@[simp] theorem tick_channel_same (e : EngineId) (s : State) :
    (tick e s).channel e = { s.channel e with wait := (s.channel e).wait - 1 } := by cases e <;> rfl
theorem tick_channel_other {e f : EngineId} (h : f ≠ e) (s : State) : (tick e s).channel f = s.channel f := by
  cases e <;> cases f <;> first | rfl | exact absurd rfl h
@[simp] theorem tick_params (e : EngineId) (s : State) : (tick e s).params = s.params := by cases e <;> rfl
@[simp] theorem tick_calls (e : EngineId) (s : State) : (tick e s).calls = s.calls := by cases e <;> rfl
@[simp] theorem tick_inputs (e : EngineId) (s : State) : (tick e s).inputs = s.inputs := by cases e <;> rfl

@[simp] theorem retire_engine_same (e : EngineId) (s : State) :
    (retire e s).engine e = { s.engine e with phase := .idle } := by cases e <;> rfl
theorem retire_engine_other {e f : EngineId} (h : f ≠ e) (s : State) : (retire e s).engine f = s.engine f := by
  cases e <;> cases f <;> first | rfl | exact absurd rfl h
@[simp] theorem retire_channel_same (e : EngineId) (s : State) :
    (retire e s).channel e =
      { wait := (s.channel e).wait, owner := none, log := ⟨(s.engine e).cmd, (s.engine e).rsp⟩ :: (s.channel e).log } := by
  cases e <;> rfl
theorem retire_channel_other {e f : EngineId} (h : f ≠ e) (s : State) : (retire e s).channel f = s.channel f := by
  cases e <;> cases f <;> first | rfl | exact absurd rfl h
@[simp] theorem retire_params (e : EngineId) (s : State) : (retire e s).params = s.params := by cases e <;> rfl
@[simp] theorem retire_calls (e : EngineId) (s : State) : (retire e s).calls = s.calls := by cases e <;> rfl
@[simp] theorem retire_inputs (e : EngineId) (s : State) : (retire e s).inputs = s.inputs := by cases e <;> rfl

end Sys2Proof.Machine
end

