-- ==== Sys2Proof/Laws/Stream.lean ====
section
/-! SUPPORT. What a stream call can do on its own, one inversion lemma a function. -/

namespace Sys2Proof.Machine

/-- The loop test changes the standing only, and only from between groups to finished. -/
theorem loopTest_cases (c : Call) :
    (c.loopTest = c ∧ (c.stat = .ready → c.i < c.input.size)) ∨
    (c.stat = .ready ∧ c.input.size ≤ c.i ∧ c.loopTest = { c with stat := .finished (.ok c.w) }) := by
  unfold Call.loopTest
  split
  · next h => exact .inr ⟨h.1, h.2, rfl⟩
  · next h =>
    refine .inl ⟨rfl, fun hs => ?_⟩
    exact Nat.lt_of_not_le fun hle => h ⟨hs, hle⟩

/-- What beginning a call can do. -/
theorem begin_eq_next {p : Params} {c d : Call} (h : c.begin p = .next d) :
    c.overlaps = false ∧
    ((p.capacityCheck = .worstCase ∧ c.output.size < worstCase c.kind c.input.size ∧
        d = { c with i := 0, w := 0, stat := .finished (.err .capacity) }) ∨
      (¬ (p.capacityCheck = .worstCase ∧ c.output.size < worstCase c.kind c.input.size) ∧
        d = { c with i := 0, w := 0, stat := .ready })) := by
  unfold Call.begin at h
  split at h
  · cases h
  · next ho =>
    refine ⟨by simpa using ho, ?_⟩
    split at h
    · next hw => cases h; exact .inl ⟨hw.1, hw.2, rfl⟩
    · next hw => cases h; exact .inr ⟨hw, rfl⟩

/-- Beginning a call never faults, and is refused only for overlapping buffers. -/
theorem begin_stops (p : Params) (c : Call) :
    (∀ r, c.begin p ≠ .fault r) ∧ (∀ r, c.begin p = .refused r → r = .overlappingBuffers ∧ c.overlaps = true) := by
  unfold Call.begin
  refine ⟨fun r => ?_, fun r h => ?_⟩
  · split
    · simp
    · split <;> simp
  · split at h
    · next ho => cases h; exact ⟨rfl, ho⟩
    · split at h <;> cases h

/-- Building a command leaves the call waiting for as many units as the command carries, and changes nothing else. -/
theorem issue_eq_next {c : Call} {w : Word} {d : Call} (h : c.issue = .next (w, d)) :
    ∃ n us, c.groupLen = some n ∧ c.input.readAll c.i n = some us ∧ w = groupCommand c.kind us ∧
      d = { c with stat := .waiting n } := by
  unfold Call.issue at h
  split at h
  · next n hn =>
    split at h
    · next us hu => cases h; exact ⟨n, us, hn, hu, rfl, rfl⟩
    · cases h
  · cases h

/-- A group before the end of the input has at least one unit and ends in the input. -/
theorem groupLen_of_lt {c : Call} (h : c.i < c.input.size) :
    ∃ n, c.groupLen = some n ∧ 1 ≤ n ∧ c.i + n ≤ c.input.size ∧ n ≤ 5 ∧ (c.kind = .enc → n ≤ 4) := by
  unfold Call.groupLen
  cases hk : c.kind with
  | enc => exact ⟨_, rfl, by omega, by omega, by omega, fun _ => by omega⟩
  | dec =>
    simp only [Buffer.read, if_pos h]
    refine ⟨_, rfl, ?_, ?_, ?_, fun hc => by cases hc⟩ <;> split <;> omega

/-- Before the end of the input a command can be built. -/
theorem issue_of_lt {c : Call} (h : c.i < c.input.size) :
    ∃ n us, c.issue = .next (groupCommand c.kind us, { c with stat := .waiting n }) ∧ c.groupLen = some n ∧
      us.length = n ∧ 1 ≤ n := by
  obtain ⟨n, hn, h1, h2, _⟩ := groupLen_of_lt h
  refine ⟨n, (List.range n).map fun k => c.input.mem.read (c.i + k), ?_, hn, ?_, h1⟩
  · unfold Call.issue
    simp only [hn, Buffer.readAll_eq h2]
  · simp

/-- What taking a response can do to a waiting call: fail with the response's error, fail for want of room, or write the
units and go on. -/
theorem take_eq_next {c d : Call} {r : Word} {n : Nat} (hc : c.stat = .waiting n) (h : c.take r = .next d) :
    conforms c.kind r = true ∧
    ((∃ k, responseError r = some k ∧ d = { c with stat := .finished (.err k) }) ∨
      (responseError r = none ∧ c.output.size < c.w + rspOcnt r ∧
        d = { c with stat := .finished (.err .capacity) }) ∨
      (responseError r = none ∧ c.w + rspOcnt r ≤ c.output.size ∧
        ∃ out, c.output.writeAll c.w (responseUnits c.kind r) = some out ∧
          d = ({ c with output := out, w := c.w + rspOcnt r, i := c.i + n, stat := .ready } : Call).loopTest)) := by
  unfold Call.take at h
  rw [hc] at h
  simp only at h
  split at h
  · next hf =>
    refine ⟨hf, ?_⟩
    split at h
    · next k hk => cases h; exact .inl ⟨k, hk, rfl⟩
    · next hk =>
      split at h
      · next hs => cases h; exact .inr (.inl ⟨hk, hs, rfl⟩)
      · next hs =>
        split at h
        · next out ho => cases h; exact .inr (.inr ⟨hk, by omega, out, ho, rfl⟩)
        · cases h
  · cases h

/-- Taking a response does nothing to a call that waits for none. -/
theorem take_of_not_waiting {c : Call} (h : ∀ n, c.stat ≠ .waiting n) (r : Word) : c.take r = .next c := by
  unfold Call.take
  split
  · next n hs => exact absurd hs (h n)
  all_goals rfl

/-- A response that conforms can be taken. -/
theorem take_of_conforms {c : Call} {r : Word} (h : conforms c.kind r = true) : ∃ d, c.take r = .next d := by
  unfold Call.take
  split
  · rw [if_pos h]
    split
    · exact ⟨_, rfl⟩
    · split
      · exact ⟨_, rfl⟩
      · next hs =>
        obtain ⟨out, ho⟩ := Buffer.writeAll_isSome (b := c.output) (i := c.w) (vs := responseUnits c.kind r)
          (by simp [responseUnits]; omega)
        rw [ho]
        exact ⟨_, rfl⟩
  all_goals exact ⟨_, rfl⟩

@[simp] theorem textGroups_nil : textGroups [] = [] := rfl
@[simp] theorem decodeGroups_nil (p : LoneTailPolicy) : decodeGroups p [] = .ok [] := rfl
@[simp] theorem goodBytes_nil (p : LoneTailPolicy) : goodBytes p [] = [] := rfl
theorem decodeGroups_cons_error {p : LoneTailPolicy} {g : List Byte} {k : ErrKind} (h : groupBytes p g = .error k)
    (gs : List (List Byte)) : decodeGroups p (g :: gs) = .error k := by
  rw [decodeGroups, h]
theorem decodeGroups_cons_ok {p : LoneTailPolicy} {g bs : List Byte} (h : groupBytes p g = .ok bs)
    (gs : List (List Byte)) : decodeGroups p (g :: gs) = prepend bs (decodeGroups p gs) := by
  rw [decodeGroups, h]
theorem goodBytes_cons_error {p : LoneTailPolicy} {g : List Byte} {k : ErrKind} (h : groupBytes p g = .error k)
    (gs : List (List Byte)) : goodBytes p (g :: gs) = [] := by
  rw [goodBytes, h]
theorem goodBytes_cons_ok {p : LoneTailPolicy} {g bs : List Byte} (h : groupBytes p g = .ok bs)
    (gs : List (List Byte)) : goodBytes p (g :: gs) = bs ++ goodBytes p gs := by
  rw [goodBytes, h]

/-- The groups decode to `bs` only if what follows the first group does. -/
theorem prepend_eq_ok {a bs : List Byte} {x : Except ErrKind (List Byte)} (h : prepend a x = .ok bs) :
    ∃ rest, x = .ok rest ∧ bs = a ++ rest := by
  cases x with
  | ok rest => cases h; exact ⟨rest, rfl, rfl⟩
  | error k => cases h

@[simp] theorem responseUnits_length (e : EngineId) (r : Word) : (responseUnits e r).length = rspOcnt r := by
  simp [responseUnits]

end Sys2Proof.Machine
end

