-- ==== Sys2Proof/Laws/Step.lean ====
section
/-! SUPPORT. What an edge can do: one inversion lemma for each of the host's and the engine's parts of it, and the frame
of a channel's edge. -/

namespace Sys2Proof.Machine

/-- Storing a call changes that call (its `OUT` freed if it has just returned `Err`) and the counter of free values. -/
theorem putCall_eq (k : Nat) (c : Call) (s : State) :
    ∃ out n, putCall k c s = { s with calls := s.calls.set k { c with output := out }, free := s.free + n } ∧
      ((out = c.output ∧ n = 0 ∧ ∀ x, c.stat ≠ .finished (.err x)) ∨
        (out = c.output.freed s.free ∧ n = c.output.size ∧ ∃ x, c.stat = .finished (.err x))) := by
  unfold putCall
  split
  · next x h => exact ⟨_, _, rfl, .inr ⟨rfl, rfl, x, h⟩⟩
  all_goals
    next h =>
      refine ⟨c.output, 0, rfl, .inl ⟨rfl, rfl, fun x hx => ?_⟩⟩
      rw [h] at hx
      cases hx

@[simp] theorem putCall_engine (k : Nat) (c : Call) (s : State) (e : EngineId) : (putCall k c s).engine e = s.engine e := by
  obtain ⟨out, n, h, _⟩ := putCall_eq k c s
  rw [h]; cases e <;> rfl
@[simp] theorem putCall_channel (k : Nat) (c : Call) (s : State) (e : EngineId) :
    (putCall k c s).channel e = s.channel e := by
  obtain ⟨out, n, h, _⟩ := putCall_eq k c s
  rw [h]; cases e <;> rfl
@[simp] theorem putCall_params (k : Nat) (c : Call) (s : State) : (putCall k c s).params = s.params := by
  obtain ⟨out, n, h, _⟩ := putCall_eq k c s
  rw [h]
@[simp] theorem putCall_inputs (k : Nat) (c : Call) (s : State) : (putCall k c s).inputs = s.inputs := by
  obtain ⟨out, n, h, _⟩ := putCall_eq k c s
  rw [h]
@[simp] theorem putCall_calls_length (k : Nat) (c : Call) (s : State) :
    (putCall k c s).calls.length = s.calls.length := by
  obtain ⟨out, n, h, _⟩ := putCall_eq k c s
  rw [h]; simp

/-- Storing a call leaves every other call alone. -/
theorem putCall_calls_other {k j : Nat} (h : j ≠ k) (c : Call) (s : State) : (putCall k c s).calls[j]? = s.calls[j]? := by
  obtain ⟨out, n, hp, _⟩ := putCall_eq k c s
  rw [hp]
  simp [Ne.symm h]

/-- What the host can put on a channel: nothing, a raw word, or what one of its calls makes of its turn. -/
theorem offer_eq_next {e : EngineId} {x : Port} {s u : State} {o : Option Offer} (h : offer e x s = .next (u, o)) :
    (u = s ∧ (o = none ∨ ∃ w, x.req = some (.word w) ∧ o = some (w, none))) ∨
    ∃ k c c1, x.req = some (.call k) ∧ s.calls[k]? = some c ∧ c.mayDrive e = true ∧ c.poll s.params = .next c1 ∧
      u = putCall k c1 s ∧
      ((c1.stat = .ready ∧ ∃ w c2, c1.issue = .next (w, c2) ∧ o = some (w, some (k, c2))) ∨
        (c1.stat ≠ .ready ∧ o = none)) := by
  unfold offer at h
  split at h
  · cases h; exact .inl ⟨rfl, .inl rfl⟩
  · next w hw => cases h; exact .inl ⟨rfl, .inr ⟨w, hw, rfl⟩⟩
  · next k hk =>
    split at h
    · cases h; exact .inl ⟨rfl, .inl rfl⟩
    · next c hc =>
      split at h
      · next hm =>
        obtain ⟨c1, hp, h⟩ := andThen_eq_next.1 h
        refine .inr ⟨k, c, c1, hk, hc, hm, hp, ?_⟩
        split at h
        · next hr =>
          obtain ⟨⟨w, c2⟩, hi, h⟩ := andThen_eq_next.1 h
          cases h
          exact ⟨rfl, .inl ⟨hr, w, c2, hi, rfl⟩⟩
        · next hr => cases h; exact ⟨rfl, .inr ⟨hr, rfl⟩⟩
      · cases h; exact .inl ⟨rfl, .inl rfl⟩

/-- The host's turn changes no engine, no channel, no parameter and no input. -/
theorem offer_frame {e : EngineId} {x : Port} {s u : State} {o : Option Offer} (h : offer e x s = .next (u, o)) :
    (∀ f, u.engine f = s.engine f) ∧ (∀ f, u.channel f = s.channel f) ∧ u.params = s.params ∧ u.inputs = s.inputs ∧
    u.calls.length = s.calls.length := by
  rcases offer_eq_next h with ⟨rfl, _⟩ | ⟨k, c, c1, _, _, _, _, rfl, _⟩
  · exact ⟨fun _ => rfl, fun _ => rfl, rfl, rfl, rfl⟩
  · simp

@[simp] theorem reqData_word {s : State} {e : EngineId} {w : Word} (h : (s.edge.port e).req = some (.word w)) :
    s.reqData e = some w := by
  simp [State.reqData, offer, h]
@[simp] theorem reqData_none {s : State} {e : EngineId} (h : (s.edge.port e).req = none) : s.reqData e = none := by
  simp [State.reqData, offer, h]

/-- Where no request is presented, the host's turn offers no word. -/
theorem offer_of_reqData_none {s u : State} {e : EngineId} {o : Option Offer} (h : s.reqData e = none)
    (ho : offer e (s.edge.port e) s.popEdge = .next (u, o)) : o = none := by
  unfold State.reqData at h
  rw [ho] at h
  cases o with
  | none => rfl
  | some o => cases h

/-- RETIRE is the engine's RETIRE, and at most the owner's call takes the response. -/
theorem retireEdge_eq_next {e : EngineId} {s t : State} (h : retireEdge e s = .next t) :
    t = retire e s ∨
    ∃ k c n d, (s.channel e).owner = some k ∧ s.calls[k]? = some c ∧ c.stat = .waiting n ∧
      c.take (rspData (s.engine e)) = .next d ∧ t = putCall k d (retire e s) := by
  unfold retireEdge at h
  split at h
  · cases h; exact .inl rfl
  · next k hk =>
    split at h
    · cases h; exact .inl rfl
    · next c hc =>
      split at h
      · next n hn =>
        obtain ⟨d, hd, h⟩ := andThen_eq_next.1 h
        cases h
        exact .inr ⟨k, c, n, d, hk, hc, hn, hd, rfl⟩
      all_goals (cases h; exact .inl rfl)

/-- What an engine can do at an edge, by its phase (70_reset_and_hazards.md R201 to R204). -/
theorem engineEdge_eq_next {e : EngineId} {x : Port} {o : Option Offer} {s t : State}
    (h : engineEdge e x o s = .next t) :
    ((s.engine e).phase = .idle ∧ o = none ∧ t = s) ∨
    ((s.engine e).phase = .idle ∧ ∃ p, o = some p ∧ t = acceptOffer e p x.extra s) ∨
    ((s.engine e).phase = .busy ∧ (s.channel e).wait = 0 ∧ execute e s = .next t) ∨
    ((s.engine e).phase = .busy ∧ (s.channel e).wait ≠ 0 ∧ t = tick e s) ∨
    ((s.engine e).phase = .done ∧ x.rspReady = false ∧ t = s) ∨
    ((s.engine e).phase = .done ∧ x.rspReady = true ∧ retireEdge e s = .next t) := by
  unfold engineEdge at h
  split at h
  · next hp =>
    split at h
    · cases h; exact .inr (.inl ⟨hp, _, rfl, rfl⟩)
    · cases h; exact .inl ⟨hp, rfl, rfl⟩
  · next hp =>
    split at h
    · next hw => exact .inr (.inr (.inl ⟨hp, hw, h⟩))
    · next hw => cases h; exact .inr (.inr (.inr (.inl ⟨hp, hw, rfl⟩)))
  · next hp =>
    split at h
    · next hr => exact .inr (.inr (.inr (.inr (.inr ⟨hp, hr, h⟩))))
    · next hr => cases h; exact .inr (.inr (.inr (.inr (.inl ⟨hp, by simpa using hr, rfl⟩))))

theorem acceptOffer_frame (e : EngineId) (o : Offer) (n : Nat) (s : State) :
    (∀ f, f ≠ e → (acceptOffer e o n s).engine f = s.engine f ∧ (acceptOffer e o n s).channel f = s.channel f) ∧
    (acceptOffer e o n s).params = s.params ∧ (acceptOffer e o n s).inputs = s.inputs ∧
    (acceptOffer e o n s).calls.length = s.calls.length := by
  obtain ⟨w, _ | ⟨k, c⟩⟩ := o
  · exact ⟨fun f hf => ⟨accept_engine_other hf _ _ _ _, accept_channel_other hf _ _ _ _⟩, by simp [acceptOffer],
      by simp [acceptOffer], by simp [acceptOffer]⟩
  · refine ⟨fun f hf => ⟨?_, ?_⟩, by simp [acceptOffer], by simp [acceptOffer], by simp [acceptOffer]⟩
    · simp [acceptOffer, accept_engine_other hf]
    · simp [acceptOffer, accept_channel_other hf]

/-- An engine's edge leaves the other engine, its channel, the parameters and the inputs alone. -/
theorem engineEdge_frame {e : EngineId} {x : Port} {o : Option Offer} {s t : State}
    (h : engineEdge e x o s = .next t) :
    (∀ f, f ≠ e → t.engine f = s.engine f ∧ t.channel f = s.channel f) ∧ t.params = s.params ∧ t.inputs = s.inputs ∧
    t.calls.length = s.calls.length := by
  rcases engineEdge_eq_next h with
    ⟨_, _, rfl⟩ | ⟨_, p, _, rfl⟩ | ⟨_, _, hx⟩ | ⟨_, _, rfl⟩ | ⟨_, _, rfl⟩ | ⟨_, _, hr⟩
  · exact ⟨fun _ _ => ⟨rfl, rfl⟩, rfl, rfl, rfl⟩
  · exact acceptOffer_frame e p x.extra s
  · obtain ⟨r, hr⟩ := execute_answers e s
    rw [hr] at hx
    cases hx
    exact ⟨fun f hf => ⟨answered_engine_other hf r s, by simp⟩, by simp, by simp, by simp⟩
  · exact ⟨fun f hf => ⟨by simp, tick_channel_other hf s⟩, by simp, by simp, by simp⟩
  · exact ⟨fun _ _ => ⟨rfl, rfl⟩, rfl, rfl, rfl⟩
  · rcases retireEdge_eq_next hr with rfl | ⟨k, c, n, d, _, _, _, _, rfl⟩
    · exact ⟨fun f hf => ⟨retire_engine_other hf s, retire_channel_other hf s⟩, by simp, by simp, by simp⟩
    · exact ⟨fun f hf => ⟨by simp [retire_engine_other hf], by simp [retire_channel_other hf]⟩, by simp, by simp, by simp⟩

/-- One channel's edge: the host's turn, then the engine's. -/
theorem channelEdge_eq_next {e : EngineId} {x : Port} {s t : State} :
    channelEdge e x s = .next t ↔ ∃ u o, offer e x s = .next (u, o) ∧ engineEdge e x o u = .next t := by
  unfold channelEdge
  rw [andThen_eq_next]
  constructor
  · rintro ⟨⟨u, o⟩, h1, h2⟩
    exact ⟨u, o, h1, h2⟩
  · rintro ⟨u, o, h1, h2⟩
    exact ⟨(u, o), h1, h2⟩

/-- One channel's edge leaves the other engine, its channel, the parameters and the inputs alone. -/
theorem channelEdge_frame {e : EngineId} {x : Port} {s t : State} (h : channelEdge e x s = .next t) :
    (∀ f, f ≠ e → t.engine f = s.engine f ∧ t.channel f = s.channel f) ∧ t.params = s.params ∧ t.inputs = s.inputs ∧
    t.calls.length = s.calls.length := by
  obtain ⟨u, o, h1, h2⟩ := channelEdge_eq_next.1 h
  obtain ⟨a1, a2, a3, a4, a5⟩ := offer_frame h1
  obtain ⟨b1, b2, b3, b4⟩ := engineEdge_frame h2
  exact ⟨fun f hf => ⟨(b1 f hf).1.trans (a1 f), (b1 f hf).2.trans (a2 f)⟩, b2.trans a3, b3.trans a4, b4.trans a5⟩

/-- A step is a reset edge, or the ENC channel's edge and then the DEC channel's. -/
theorem step_eq_next {s t : State} :
    step s = .next t ↔
      (s.edge.rst = true ∧ t = resetEdge s.popEdge) ∨
      (s.edge.rst = false ∧ ∃ u, channelEdge .enc s.edge.enc s.popEdge = .next u ∧
        channelEdge .dec s.edge.dec u = .next t) := by
  unfold step clockEdge
  cases h : s.edge.rst
  · simp [andThen_eq_next]
  · simp [eq_comm]

/-- In a step without reset, what happens to engine `e` and its channel is its own channel's edge, from the registers the
step began with. -/
theorem step_own_channel {s t : State} (hr : s.edge.rst = false) (h : step s = .next t) (e : EngineId) :
    ∃ u w v o, offer e (s.edge.port e) u = .next (w, o) ∧ engineEdge e (s.edge.port e) o w = .next v ∧
      w.engine e = s.engine e ∧ w.channel e = s.channel e ∧ w.params = s.params ∧
      t.engine e = v.engine e ∧ t.channel e = v.channel e := by
  rcases step_eq_next.1 h with ⟨h1, _⟩ | ⟨_, u, hu, ht⟩
  · rw [hr] at h1; cases h1
  · cases e with
    | enc =>
      have hf := channelEdge_frame ht
      obtain ⟨w, o, h7, h8⟩ := channelEdge_eq_next.1 hu
      have ho := offer_frame h7
      exact ⟨_, w, u, o, h7, h8, by simpa using ho.1 .enc, by simpa using ho.2.1 .enc, by simpa using ho.2.2.1,
        (hf.1 .enc (by simp)).1, (hf.1 .enc (by simp)).2⟩
    | dec =>
      have hf := channelEdge_frame hu
      obtain ⟨w, o, h7, h8⟩ := channelEdge_eq_next.1 ht
      have ho := offer_frame h7
      exact ⟨u, w, t, o, h7, h8, by simpa using (ho.1 .dec).trans (hf.1 .dec (by simp)).1,
        by simpa using (ho.2.1 .dec).trans (hf.1 .dec (by simp)).2, by simpa using ho.2.2.1.trans hf.2.1, rfl, rfl⟩

/-- ACCEPT of an offer: its word, and `BUSY` (70_reset_and_hazards.md R201). -/
theorem acceptOffer_engine (e : EngineId) (o : Offer) (n : Nat) (s : State) :
    (acceptOffer e o n s).engine e = { phase := .busy, cmd := o.1, rsp := (s.engine e).rsp } := by
  obtain ⟨w, _ | ⟨k, c⟩⟩ := o <;> simp [acceptOffer]

/-- RETIRE: `IDLE`, and the transaction on record (70_reset_and_hazards.md R203). -/
theorem retireEdge_engine {e : EngineId} {s t : State} (h : retireEdge e s = .next t) :
    t.engine e = { s.engine e with phase := .idle } ∧
    (t.channel e).log = ⟨(s.engine e).cmd, (s.engine e).rsp⟩ :: (s.channel e).log ∧ (t.channel e).owner = none := by
  rcases retireEdge_eq_next h with rfl | ⟨k, c, n, d, _, _, _, _, rfl⟩ <;> simp

/-- What a reset does to one call. -/
theorem getElem_cutCalls {cs : List Call} {n k : Nat} {c : Call} (h : cs[k]? = some c) :
    ∃ m, (cutCalls cs n)[k]? =
      some (if c.running then { c with output := c.output.freed m, stat := .cut } else c) := by
  induction cs generalizing n k with
  | nil => simp at h
  | cons x xs ih =>
    cases k with
    | zero =>
      simp only [List.getElem?_cons_zero, Option.some.injEq] at h
      subst h
      simp only [cutCalls]
      split <;> exact ⟨n, rfl⟩
    | succ k =>
      simp only [List.getElem?_cons_succ] at h
      simp only [cutCalls]
      split
      · simpa using ih (n := n + x.output.size) h
      · simpa using ih (n := n) h

/-- An edge with reset always answers a next state (70_reset_and_hazards.md R196). -/
theorem step_of_rst {s : State} (h : s.edge.rst = true) : step s = .next (resetEdge s.popEdge) := by
  unfold step clockEdge
  rw [if_pos h]

end Sys2Proof.Machine
end

