-- ==== Sys2Proof/Laws/Invariant.lean ====
section
/-! SUPPORT. What a call's own moves keep, and a state in which the invariant plainly holds. -/

namespace Sys2Proof.Machine

/-- A call that polls keeps its engine, its buffers and its placement, and is between groups afterwards only before the
end of its input. -/
theorem poll_eq_next {p : Params} {c d : Call} {e : EngineId} (hm : c.mayDrive e = true) (h : c.poll p = .next d) :
    c.kind = e ∧ d.kind = c.kind ∧ d.input = c.input ∧ d.output = c.output ∧ d.inAddr = c.inAddr ∧
    d.outAddr = c.outAddr ∧ (callOk c → callOk d) ∧ (d.stat = .ready → d.i < d.input.size) := by
  have hk : c.kind = e ∧ (c.stat = .start ∨ c.stat = .ready) := by
    simpa [Call.mayDrive] using hm
  refine ⟨hk.1, ?_⟩
  unfold Call.poll at h
  rcases hk.2 with hs | hs <;> rw [hs] at h <;> simp only at h
  · obtain ⟨b, hb, h⟩ := andThen_eq_next.1 h
    cases h
    obtain ⟨_, ⟨_, _, rfl⟩ | ⟨_, rfl⟩⟩ := begin_eq_next hb
    · simp only [Call.loopTest, reduceCtorEq, false_and, if_false]
      exact ⟨trivial, trivial, trivial, trivial, trivial, fun hc => ⟨hc.1, hc.2.1, fun h => by cases h⟩, fun h => by cases h⟩
    · rcases loopTest_cases { c with i := 0, w := 0, stat := .ready } with ⟨he, hx⟩ | ⟨_, _, he⟩ <;> rw [he]
      · exact ⟨rfl, rfl, rfl, rfl, rfl, fun hc => ⟨hc.1, hc.2.1, fun _ => Nat.zero_le _⟩, fun _ => hx rfl⟩
      · exact ⟨rfl, rfl, rfl, rfl, rfl, fun hc => ⟨hc.1, hc.2.1, fun h => by cases h⟩, fun h => by cases h⟩
  · cases h
    rcases loopTest_cases c with ⟨he, hx⟩ | ⟨_, _, he⟩ <;> rw [he]
    · exact ⟨rfl, rfl, rfl, rfl, rfl, fun hc => hc, hx⟩
    · exact ⟨rfl, rfl, rfl, rfl, rfl, fun hc => ⟨hc.1, hc.2.1, fun h => by cases h⟩, fun h => by cases h⟩

/-- Taking a response keeps a call's buffers canonical and its position in them. -/
theorem callOk_take {c d : Call} {r : Word} (hc : callOk c) (h : c.take r = .next d) : callOk d ∧ d.kind = c.kind := by
  by_cases hw : ∃ n, c.stat = .waiting n
  · obtain ⟨n, hn⟩ := hw
    obtain ⟨_, h | h | ⟨_, hle, out, ho, rfl⟩⟩ := take_eq_next hn h
    · obtain ⟨k, _, rfl⟩ := h
      exact ⟨⟨hc.1, hc.2.1, fun h => by cases h⟩, rfl⟩
    · obtain ⟨_, _, rfl⟩ := h
      exact ⟨⟨hc.1, hc.2.1, fun h => by cases h⟩, rfl⟩
    · obtain ⟨h1, h2, _, _⟩ := Buffer.writeAll_eq_some hc.2.1 ho
      rcases loopTest_cases { c with output := out, w := c.w + rspOcnt r, i := c.i + n, stat := .ready } with
        ⟨he, _⟩ | ⟨_, _, he⟩ <;> rw [he]
      · exact ⟨⟨hc.1, h2, fun _ => by simp only; omega⟩, rfl⟩
      · exact ⟨⟨hc.1, h2, fun h => by cases h⟩, rfl⟩
  · rw [take_of_not_waiting (fun n hn => hw ⟨n, hn⟩)] at h
    cases h
    exact ⟨hc, rfl⟩

/-- The call stored under its number. -/
theorem putCall_calls_same {k : Nat} {c : Call} {s : State} (hk : k < s.calls.length) :
    ∃ d, (putCall k c s).calls[k]? = some d ∧ (callOk c → callOk d) ∧
      ((∀ x, c.stat ≠ .finished (.err x)) → d = c) := by
  obtain ⟨out, n, hp, h | h⟩ := putCall_eq k c s
  · refine ⟨c, ?_, id, fun _ => rfl⟩
    rw [hp]
    simp [hk]
    rw [h.1]
  · refine ⟨{ c with output := out }, by rw [hp]; simp [hk], ?_, fun hx => ?_⟩
    · obtain ⟨rfl, _, x, hx⟩ := h
      intro hc
      exact ⟨hc.1, (Buffer.freed_spec c.output s.free).1, fun hr => by simp [Call.running, hx] at hr⟩
    · obtain ⟨_, _, x, hx'⟩ := h
      exact absurd hx' (hx x)

/-- A call made from a byte sequence and a capacity can be made. -/
theorem fresh_valid (e : EngineId) (bs : List Byte) (n : Nat) : (Call.fresh e bs n).valid e := by
  refine ⟨rfl, rfl, ⟨Buffer.wf_ofBytes bs, Buffer.wf_blank n, fun h => by cases h⟩, ?_⟩
  simp [Call.overlaps, Call.fresh, rangesMeet]

/-- The invariant holds where no response is pending, no call owns an engine and nothing is on record. -/
theorem inv_of_quiet {s : State} (h1 : ∀ e, (s.engine e).phase ≠ .done) (h2 : ∀ e, (s.channel e).log = [])
    (h3 : ∀ e, (s.channel e).owner = none) (h4 : ∀ c ∈ s.calls, callOk c) : s.Inv := by
  refine ⟨fun e => ⟨fun h => absurd h (h1 e), ?_, ?_⟩, h4⟩
  · intro t ht
    rw [h2] at ht
    cases ht
  · intro k hk
    rw [h3] at hk
    cases hk

end Sys2Proof.Machine
end

