-- ==== Sys2Proof/Laws/PerInstr.lean ====
section
/-! SUPPORT. Facts of every command as syntax, one lemma a constructor. -/

namespace Sys2Proof.Laws

/-- The command's word matches the row of its mnemonic: bits [63:40] are the row's pattern (30_encoding.md R82), and the
row belongs to its engine. -/
def Header.Statement (i : Instr) : Prop :=
  ∃ r ∈ opcodeTable, r.mnemonic = i.mnemonic ∧ r.engine = i.engine ∧ r.matches (encode i) = true

/-- A command word keeps its header whatever the payload. -/
theorem commandWord_header (e : EngineId) (n : Nat) (p : Payload) :
    commandWord e n p &&& rowMask = commandWord e n 0 := by
  have h : ∀ (op : BitVec 4) (cnt : BitVec 3),
      (op.setWidth 64 <<< 60 ||| cnt.setWidth 64 <<< 57 ||| (0#17).setWidth 64 <<< 40 ||| p.setWidth 64) &&& rowMask =
        (op.setWidth 64 <<< 60 ||| cnt.setWidth 64 <<< 57 ||| (0#17).setWidth 64 <<< 40 |||
          (0 : Payload).setWidth 64) := by
    intro op cnt
    apply BitVec.eq_of_getLsbD_eq
    intro i hi
    interval_cases i <;> simp [rowMask]
  exact h _ _

theorem Header.of_row {i : Instr} {e : EngineId} {n : Nat} {p : Payload} (r : OpcodeRow) (hr : r ∈ opcodeTable)
    (h1 : r.mnemonic = i.mnemonic) (h2 : r.engine = i.engine) (h3 : encode i = commandWord e n p)
    (h4 : r.mask = rowMask) (h5 : r.pattern = commandWord e n 0) : Header.Statement i := by
  refine ⟨r, hr, h1, h2, ?_⟩
  unfold OpcodeRow.matches
  rw [h3, h4, commandWord_header, h5]
  exact beq_self_eq_true _

theorem Header.enc0 : Header.Statement .enc0 :=
  Header.of_row ⟨"enc.0", .enc, 0x1000000000000000, rowMask⟩ (by simp [opcodeTable]) rfl rfl rfl rfl (by decide)
theorem Header.enc1 (b0 : Byte) : Header.Statement (.enc1 b0) :=
  Header.of_row ⟨"enc.1", .enc, 0x1200000000000000, rowMask⟩ (by simp [opcodeTable]) rfl rfl rfl rfl (by decide)
theorem Header.enc2 (b0 b1 : Byte) : Header.Statement (.enc2 b0 b1) :=
  Header.of_row ⟨"enc.2", .enc, 0x1400000000000000, rowMask⟩ (by simp [opcodeTable]) rfl rfl rfl rfl (by decide)
theorem Header.enc3 (b0 b1 b2 : Byte) : Header.Statement (.enc3 b0 b1 b2) :=
  Header.of_row ⟨"enc.3", .enc, 0x1600000000000000, rowMask⟩ (by simp [opcodeTable]) rfl rfl rfl rfl (by decide)
theorem Header.enc4 (b0 b1 b2 b3 : Byte) : Header.Statement (.enc4 b0 b1 b2 b3) :=
  Header.of_row ⟨"enc.4", .enc, 0x1800000000000000, rowMask⟩ (by simp [opcodeTable]) rfl rfl rfl rfl (by decide)
theorem Header.dec0 : Header.Statement .dec0 :=
  Header.of_row ⟨"dec.0", .dec, 0x2000000000000000, rowMask⟩ (by simp [opcodeTable]) rfl rfl rfl rfl (by decide)
theorem Header.dec1 (c0 : Byte) : Header.Statement (.dec1 c0) :=
  Header.of_row ⟨"dec.1", .dec, 0x2200000000000000, rowMask⟩ (by simp [opcodeTable]) rfl rfl rfl rfl (by decide)
theorem Header.dec2 (c0 c1 : Byte) : Header.Statement (.dec2 c0 c1) :=
  Header.of_row ⟨"dec.2", .dec, 0x2400000000000000, rowMask⟩ (by simp [opcodeTable]) rfl rfl rfl rfl (by decide)
theorem Header.dec3 (c0 c1 c2 : Byte) : Header.Statement (.dec3 c0 c1 c2) :=
  Header.of_row ⟨"dec.3", .dec, 0x2600000000000000, rowMask⟩ (by simp [opcodeTable]) rfl rfl rfl rfl (by decide)
theorem Header.dec4 (c0 c1 c2 c3 : Byte) : Header.Statement (.dec4 c0 c1 c2 c3) :=
  Header.of_row ⟨"dec.4", .dec, 0x2800000000000000, rowMask⟩ (by simp [opcodeTable]) rfl rfl rfl rfl (by decide)
theorem Header.dec5 (c0 c1 c2 c3 c4 : Byte) : Header.Statement (.dec5 c0 c1 c2 c3 c4) :=
  Header.of_row ⟨"dec.5", .dec, 0x2A00000000000000, rowMask⟩ (by simp [opcodeTable]) rfl rfl rfl rfl (by decide)

end Sys2Proof.Laws
end

