-- ==== Sys2Proof/Tests/Slice0.lean ====
section
/-! SUPPORT. Tests of the model against the vectors of spec/95_test_vectors.md, and a witness for the hypotheses of each
statement. -/

namespace Sys2Proof.Tests

open Sys2Proof Sys2Proof.Machine

/-! ### WellFormed refuses what is ill-formed -/

theorem test_legal_enc : (commandOf 0x120000006F000000).legalFor .enc = true := by decide
theorem test_illegal_op : (commandOf 0x320000006F000000).legalFor .enc = false := by decide
theorem test_illegal_engine : (commandOf 0x2A00000000000000).legalFor .enc = false := by decide
theorem test_illegal_rsv : (commandOf 0x1800010000000000).legalFor .enc = false := by decide
theorem test_illegal_cnt_enc : (commandOf 0x1A00000000000000).legalFor .enc = false := by decide
theorem test_illegal_cnt_dec : (commandOf 0x2C00000000000000).legalFor .dec = false := by decide
theorem test_params_default : Params.default.wf = true := by decide
theorem test_params_enc_latency_zero : ({ Params.default with encLatency := 0 } : Params).wf = false := by decide
theorem test_params_dec_latency_zero : ({ Params.default with decLatency := 0 } : Params).wf = false := by decide
theorem test_sentinels_equal : (⟨-1, -1, -3⟩ : Sentinels).wf = false := by decide
theorem test_sentinels_equal' : (⟨-1, -2, -1⟩ : Sentinels).wf = false := by decide
theorem test_sentinels_equal'' : (⟨-3, -2, -2⟩ : Sentinels).wf = false := by decide
theorem test_sentinels_positive : (⟨1, -2, -3⟩ : Sentinels).wf = false := by decide
theorem test_sentinels_positive' : (⟨-1, 2, -3⟩ : Sentinels).wf = false := by decide
theorem test_sentinels_positive'' : (⟨-1, -2, 3⟩ : Sentinels).wf = false := by decide

/-! ### Decoding, each word written from 30_encoding.md R66 to R68 (vectors E1 to E37, D1 to D65) -/

theorem test_decode_enc0 : decodeTableWord 64 0x10000000DEADBEEF = some .enc0 := by decide
theorem test_decode_enc1 : decodeTableWord 64 0x12000055FF112233 = some (.enc1 0xFF) := by decide
theorem test_decode_enc2 : decodeTableWord 64 0x1400000012340000 = some (.enc2 0x12 0x34) := by decide
theorem test_decode_enc3 : decodeTableWord 64 0x1600000012345600 = some (.enc3 0x12 0x34 0x56) := by decide
theorem test_decode_enc4 : decodeTableWord 64 0x18000000DEADBEEF = some (.enc4 0xDE 0xAD 0xBE 0xEF) := by decide
theorem test_decode_dec0 : decodeTableWord 64 0x2000000041424344 = some .dec0 := by decide
theorem test_decode_dec1 : decodeTableWord 64 0x2200007A41000000 = some (.dec1 0x7A) := by decide
theorem test_decode_dec2 : decodeTableWord 64 0x240000445AFF007A = some (.dec2 0x44 0x5A) := by decide
theorem test_decode_dec3 : decodeTableWord 64 0x2600002669390000 = some (.dec3 0x26 0x69 0x39) := by decide
theorem test_decode_dec4 : decodeTableWord 64 0x28000026693C5600 = some (.dec4 0x26 0x69 0x3C 0x56) := by decide
theorem test_decode_dec5 :
    decodeTableWord 64 0x2A0000424F752172 = some (.dec5 0x42 0x4F 0x75 0x21 0x72) := by decide
theorem test_decode_op_0 : decode 0x0000000000000000 = .error .reservedOp := by decide
theorem test_decode_op_15 : decode 0xF000000000000000 = .error .reservedOp := by decide
theorem test_decode_rsv : decode 0x1880000000000000 = .error .reservedBits := by decide
theorem test_decode_cnt_enc : decode 0x1A00000000000000 = .error .countRange := by decide
theorem test_decode_cnt_dec : decode 0x2E00000000000000 = .error .countRange := by decide
theorem test_decode_other_engine : decodeFor .enc 0x2A00000000000000 = .error .wrongEngine := by decide
theorem test_encode_dec2 : encode (.dec2 0x44 0x5A) = 0x240000445A000000 := by decide
theorem test_encode_enc4 : encode (.enc4 0x68 0x65 0x6C 0x6C) = 0x1800000068656C6C := by decide

/-! ### One step: the response to a word (vectors E and D) -/

/-- The response after the step that executes `w` on its engine, the policy given. -/
def rspAfter (policy : LoneTailPolicy) (w : Nat) : Option Word :=
  let s := ({ State.reset with params := { Params.default with loneTail := policy } } : State).withFetchWord 64 w
  match step s with
  | .next t => some (t.engine (loadEngine (BitVec.ofNat 64 w))).rsp
  | .fault _ => none
  | .refused _ => none

theorem test_enc0_ignores_payload : rspAfter .checks 0x10000000DEADBEEF = some 0x0000000000000000 := by decide
theorem test_enc1_junk_lanes : rspAfter .checks 0x12000055FF112233 = some 0x0800007272000000 := by decide
theorem test_enc1_zero : rspAfter .checks 0x1200000000000000 = some 0x0800002121000000 := by decide
theorem test_enc2_ffff : rspAfter .checks 0x14000000FFFF0000 = some 0x0C000073384E0000 := by decide
theorem test_enc3_zero : rspAfter .checks 0x1600000000000000 = some 0x1000002121212100 := by decide
theorem test_enc3_ffffff : rspAfter .checks 0x16000000FFFFFF00 = some 0x1000007338572A00 := by decide
theorem test_enc4_shortcut : rspAfter .checks 0x1800000000000000 = some 0x0440007A00000000 := by decide
theorem test_enc4_deadbeef : rspAfter .checks 0x18000000DEADBEEF = some 0x14000068513D4E5C := by decide
theorem test_dec0_ignores_payload : rspAfter .checks 0x2000000041424344 = some 0x0000000000000000 := by decide
theorem test_dec1_s_overflows : rspAfter .checks 0x2200007300000000 = some 0x4000000000000000 := by decide
theorem test_dec1_s_rejected : rspAfter .reject 0x2200007300000000 = some 0x2000000000000000 := by decide
theorem test_dec2_s7 : rspAfter .checks 0x2400007337000000 = some 0x04000000FF000000 := by decide
theorem test_dec2_z_inside : rspAfter .checks 0x240000217A000000 = some 0x2080000000000000 := by decide
theorem test_dec3_s8V : rspAfter .checks 0x2600007338560000 = some 0x08000000FFFF0000 := by decide
theorem test_dec3_newline : rspAfter .checks 0x26000021210A0000 = some 0x2100000000000000 := by decide
theorem test_dec4_noncanonical : rspAfter .checks 0x2800007338572100 = some 0x0C000000FFFFFC00 := by decide
theorem test_dec4_abcx : rspAfter .checks 0x2800006162637800 = some 0x2180000000000000 := by decide
theorem test_dec5_largest : rspAfter .checks 0x2A00007338572D21 = some 0x10000000FFFFFFFF := by decide
theorem test_dec5_overflow : rspAfter .checks 0x2A00007338572D22 = some 0x4000000000000000 := by decide
theorem test_illegal_answered : rspAfter .checks 0x1A00000000000000 = some 0x8000000000000000 := by decide

/-! ### One step: the channel (vectors H1 to H5) -/

/-- A port that presents a word. -/
def wordPort (w : Word) : Port := { req := some (.word w), rspReady := false, extra := 0 }
/-- A port that lets call `k` act and takes responses. -/
def callPort (k : Nat) : Port := { req := some (.call k), rspReady := true, extra := 0 }
/-- An edge of the ENC channel alone. -/
def encEdge (x : Port) : Edge := { rst := false, enc := x, dec := Port.idle }
/-- An edge of the DEC channel alone. -/
def decEdge (x : Port) : Edge := { rst := false, enc := Port.idle, dec := x }
/-- An edge with reset. -/
def rstEdge : Edge := { rst := true, enc := callPort 0, dec := callPort 0 }
/-- The phase and the response of an engine after a step. -/
def afterStep (e : EngineId) (s : State) : Option (Phase × Word × Word) :=
  match step s with
  | .next t => some ((t.engine e).phase, (t.engine e).cmd, (t.engine e).rsp)
  | .fault _ => none
  | .refused _ => none
/-- ENC in `DONE` with the response of vector H1. -/
def doneState (xs : List Edge) : State :=
  { State.reset with enc := { phase := .done, cmd := 0x18000000DEADBEEF, rsp := 0x14000068513D4E5C }, inputs := xs }

theorem test_accept : afterStep .enc { State.reset with inputs := [encEdge (wordPort 0x18000000DEADBEEF)] } =
    some (.busy, 0x18000000DEADBEEF, 0) := by decide
theorem test_retire : afterStep .enc (doneState [encEdge (callPort 0)]) =
    some (.idle, 0x18000000DEADBEEF, 0x14000068513D4E5C) := by decide
theorem test_back_pressure : afterStep .enc (doneState [encEdge (wordPort 0x1200000000000000)]) =
    some (.done, 0x18000000DEADBEEF, 0x14000068513D4E5C) := by decide
theorem test_reset_wins : afterStep .enc (doneState [rstEdge]) = some (.idle, 0, 0) := by decide

/-! ### The stream framing (vectors S8, S13, S22, S24, S31, S33, S5 and S19 under their parameters) -/

theorem test_encode_partial_zero : encodeText [0, 0, 0, 0, 0] = [0x7A, 0x21, 0x21] := by decide
theorem test_encode_unaligned_zeros :
    encodeText [1, 0, 0, 0, 0, 2] = [0x21, 0x3C, 0x3C, 0x2A, 0x22, 0x21, 0x21, 0x33] := by decide
theorem test_decode_lone_tail : decodeText .checks [0x7A, 0x21] = .ok [0, 0, 0, 0] := by decide
theorem test_decode_lone_tail_rejected : decodeText .reject [0x7A, 0x21] = .error .badDecodeChar := by decide
theorem test_decode_lone_s : decodeText .checks [0x7A, 0x7A, 0x73] = .error .decodeOverflow := by decide
theorem test_decode_z_starts_group : decodeText .checks [0x7A, 0x21, 0x21, 0x21, 0x21] = .ok [0, 0, 0, 0, 0, 0, 0] := by
  decide
theorem test_decode_delimiters :
    decodeText .checks [0x3C, 0x7E, 0x42, 0x4F, 0x75, 0x21, 0x72, 0x44, 0x5A, 0x7E, 0x3E] = .error .badDecodeChar := by
  decide
theorem test_call_encode_hello :
    (Call.fresh .enc [0x68, 0x65, 0x6C, 0x6C, 0x6F] 7).verdict Params.default =
      some (.ok 7, some (Buffer.ofBytes [0x42, 0x4F, 0x75, 0x21, 0x72, 0x44, 0x5A])) := by decide
theorem test_call_encode_hello_worst_case :
    (Call.fresh .enc [0x68, 0x65, 0x6C, 0x6C, 0x6F] 7).verdict { Params.default with capacityCheck := .worstCase } =
      some (.err .capacity, none) := by decide
theorem test_call_decode_no_room : (Call.fresh .dec [0x7A, 0x7A] 4).verdict Params.default =
    some (.err .capacity, none) := by decide
/-- Vector S28: the first group's error comes before its capacity check. -/
theorem test_call_decode_overflow_first : (Call.fresh .dec [0x73, 0x38, 0x57, 0x2D, 0x22] 4).verdict Params.default =
    some (.err .decodeOverflow, none) := by decide
/-- Vectors S30 and S31. -/
theorem test_text_groups : textGroups [0x21, 0x21, 0x7A, 0x21, 0x21] = [[0x21, 0x21, 0x7A, 0x21, 0x21]] ∧
    textGroups [0x7A, 0x21, 0x21, 0x21, 0x21] = [[0x7A], [0x21, 0x21, 0x21, 0x21]] := by decide
theorem test_memory_canonical :
    ((Memory.empty.write 3 7).write 1 9).write 3 0 = { cells := [(1, 9)] } := by decide

/-! ### The assembler (30_encoding.md R85, R86) -/

theorem test_assemble_enc4 : assemble "enc.4 68656c6c".toList = some 0x1800000068656C6C := by decide
theorem test_assemble_dec3 : assemble "dec.3 \"!!\\x0A\"".toList = some 0x26000021210A0000 := by decide
theorem test_assemble_wrong_count : assemble "enc.2 68".toList = none := by decide
theorem test_assemble_word : assemble ".word 0x1880000000000000".toList = some 0x1880000000000000 := by decide
theorem test_disassemble_dec2 : disassemble 0x240000445AFF007A = "dec.2 \"DZ\"".toList := by decide

/-! ### Witnesses: states and operands that meet the hypotheses of each statement -/

/-- An engine about to execute the word. -/
def aboutTo (w : Word) : State := loadCommand w State.reset
/-- A call of each engine, not begun. -/
def encCall : Call := Call.fresh .enc [1, 2, 3, 4, 5] 9
def decCall : Call := Call.fresh .dec [0x7A, 0x21, 0x21] 9
/-- A state with the two calls, and these inputs. -/
def withCalls (xs : List Edge) : State := { State.reset with calls := [encCall, decCall], inputs := xs }
/-- A call whose buffers overlap. -/
def overlapCall : Call := { encCall with outAddr := 4 }
/-- A call that waits for the response of its first group. -/
def waitingCall : Call := { encCall with stat := .waiting 4 }

theorem not_legal_of_error {e : EngineId} {w : Word} {x : DecodeError} (h : decodeFor e w = .error x) :
    ¬ legalOn e w := by
  rintro ⟨i, hi⟩
  rw [h] at hi
  cases hi

theorem inv_aboutTo_enc : (aboutTo 0x18000000DEADBEEF).Inv :=
  inv_of_quiet (by intro e; cases e <;> decide) (by intro e; cases e <;> rfl) (by intro e; cases e <;> rfl)
    (by intro c hc; cases hc)

theorem inv_withCalls (xs : List Edge) : (withCalls xs).Inv := by
  refine inv_of_quiet (by intro e; cases e <;> simp [withCalls, State.reset, Engine.reset])
    (by intro e; cases e <;> rfl) (by intro e; cases e <;> rfl) ?_
  intro c hc
  simp only [withCalls, List.mem_cons, List.not_mem_nil, or_false] at hc
  rcases hc with rfl | rfl
  · exact (fresh_valid .enc _ _).2.2.1
  · exact (fresh_valid .dec _ _).2.2.1

theorem witness_EncodeAfterDecode : decode 0x12000055FF112233 = .ok (.enc1 0xFF) := by decide
theorem witness_EveryWordMatches :
    (0x12000055FF112233 : Word).extractLsb' 40 24 = (0x1200000000000000 : Word).extractLsb' 40 24 := by decide
theorem witness_IllegalWords : ¬ legalOn .enc ((aboutTo 0x3000000000000000).engine .enc).cmd :=
  not_legal_of_error (x := .reservedOp) (by decide)
theorem witness_UnusedLanes : decode 0x12000055FF112233 = .ok (.enc1 0xFF) ∧
    (0x12000055FF112233 : Word) &&& usedMask (.enc1 0xFF) = 0x12000000FF000000 &&& usedMask (.enc1 0xFF) := by decide
theorem witness_ResponseFields : 5 < 8 ∧ 4 < 8 := by decide
theorem witness_Enc0 : (0x10000000DEADBEEF : Word) &&& 0xFFFFFF0000000000 = 0x1000000000000000 := by decide
theorem witness_Enc1 : (0x12000055FF112233 : Word) &&& 0xFFFFFF0000000000 = 0x1200000000000000 ∧
    ∃ t, exec (.enc1 0xFF) State.reset = .next t := ⟨by decide, _, rfl⟩
theorem witness_Enc2 : (0x1400000012340000 : Word) &&& 0xFFFFFF0000000000 = 0x1400000000000000 := by decide
theorem witness_Enc3 : (0x1600000012345600 : Word) &&& 0xFFFFFF0000000000 = 0x1600000000000000 := by decide
theorem witness_Enc4 : (0x18000000DEADBEEF : Word) &&& 0xFFFFFF0000000000 = 0x1800000000000000 ∧
    ∃ t, exec (.enc4 0 0 0 1) State.reset = .next t ∧ rspZf t.enc.rsp = false := ⟨by decide, _, rfl, by decide⟩
theorem witness_EncoderAnswersOk : legalOn .enc 0x1800000000000000 ∧ rspZf (fEnc 0x1800000000000000) = true ∧
    legalOn .enc 0x12000000FF000000 ∧ rspZf (fEnc 0x12000000FF000000) = false ∧ ¬ legalOn .enc 0x1A00000000000000 :=
  ⟨⟨.enc4 0 0 0 0, by decide⟩, by decide, ⟨.enc1 0xFF, by decide⟩, by decide,
    not_legal_of_error (x := .countRange) (by decide)⟩
theorem witness_Dec0 : (0x2000000041424344 : Word) &&& 0xFFFFFF0000000000 = 0x2000000000000000 := by decide
theorem witness_Dec1 : (0x2200007A41000000 : Word) &&& 0xFFFFFF0000000000 = 0x2200000000000000 ∧
    State.reset.params.loneTail = .checks ∧ 33 ≤ (114 : Byte).toNat ∧ (114 : Byte).toNat ≤ 114 ∧
    115 ≤ (115 : Byte).toNat ∧ (117 : Byte).toNat ≤ 117 := by decide
theorem witness_Dec2 : (0x240000445AFF007A : Word) &&& 0xFFFFFF0000000000 = 0x2400000000000000 ∧
    isDigit 115 = true ∧ isDigit 56 = true ∧ 256 * 115 + 56 ≤ 256 * (115 : Byte).toNat + (56 : Byte).toNat := by decide
theorem witness_Dec3 : (0x2600002669390000 : Word) &&& 0xFFFFFF0000000000 = 0x2600000000000000 := by decide
theorem witness_Dec4 : (0x28000026693C5600 : Word) &&& 0xFFFFFF0000000000 = 0x2800000000000000 := by decide
theorem witness_Dec5 : (0x2A0000424F752172 : Word) &&& 0xFFFFFF0000000000 = 0x2A00000000000000 := by decide
theorem witness_DecoderOutcomes_illegal : ¬ legalOn .dec 0x2C00000000000000 :=
  not_legal_of_error (x := .countRange) (by decide)
theorem witness_DecoderOutcomes_empty : legalOn .dec 0x2000000041424344 ∧
    ((0x2000000041424344 : Word).extractLsb' 57 3).toNat = 0 := ⟨⟨.dec0, by decide⟩, by decide⟩
theorem witness_DecoderOutcomes_shortcut : legalOn .dec 0x2200007A41000000 ∧
    charsOfCommand 0x2200007A41000000 1 = [shortcutChar] := ⟨⟨.dec1 0x7A, by decide⟩, by decide⟩
theorem witness_DecoderOutcomes_lone : legalOn .dec 0x2200002100000000 ∧
    ((0x2200002100000000 : Word).extractLsb' 57 3).toNat = 1 ∧ charsOfCommand 0x2200002100000000 1 ≠ [shortcutChar] :=
  ⟨⟨.dec1 0x21, by decide⟩, by decide, by decide⟩
theorem witness_DecoderOutcomes_bad : legalOn .dec 0x2800006162637800 ∧
    (charsOfCommand 0x2800006162637800 4)[3]? = some 0x78 ∧ isDigit 0x78 = false ∧
    ∀ b ∈ (charsOfCommand 0x2800006162637800 4).take 3, isDigit b = true :=
  ⟨⟨.dec4 0x61 0x62 0x63 0x78, by decide⟩, by decide, by decide, by decide⟩
theorem witness_DecoderOutcomes_overflow : legalOn .dec 0x2A00007338572D22 ∧
    (∀ c ∈ charsOfCommand 0x2A00007338572D22 5, isDigit c = true) ∧
    2 ^ 32 - 1 < polyValue (charsOfCommand 0x2A00007338572D22 5) :=
  ⟨⟨.dec5 115 56 87 45 34, by decide⟩, by decide, by decide⟩
theorem witness_DecoderOutcomes_ok : legalOn .dec 0x2A00007338572D21 ∧
    (∀ c ∈ charsOfCommand 0x2A00007338572D21 5, isDigit c = true) ∧
    polyValue (charsOfCommand 0x2A00007338572D21 5) ≤ 2 ^ 32 - 1 :=
  ⟨⟨.dec5 115 56 87 45 33, by decide⟩, by decide, by decide⟩
theorem witness_SerialEvaluator : ([115, 56, 87, 45, 34] : List Byte).length ≤ 5 ∧
    (∀ c ∈ ([115, 56, 87, 45, 34] : List Byte), isDigit c = true) ∧
    2 ^ 32 - 1 < polyValue [115, 56, 87, 45, 34] := by decide
theorem witness_OverflowThresholds :
    (∀ c ∈ ([115, 56, 87, 45, 33] : List Byte), isDigit c = true) ∧ polyValue [114] ≤ 2 ^ 32 - 1 ∧
    2 ^ 32 - 1 < polyValue [115] ∧ polyValue [115, 55] ≤ 2 ^ 32 - 1 ∧ 2 ^ 32 - 1 < polyValue [115, 56] ∧
    polyValue [115, 56, 86] ≤ 2 ^ 32 - 1 ∧ 2 ^ 32 - 1 < polyValue [115, 56, 87] ∧
    polyValue [115, 56, 87, 44] ≤ 2 ^ 32 - 1 ∧ 2 ^ 32 - 1 < polyValue [115, 56, 87, 45] ∧
    polyValue [115, 56, 87, 45, 33] ≤ 2 ^ 32 - 1 ∧ 2 ^ 32 - 1 < polyValue [115, 56, 87, 45, 34] ∧
    paddedDigit [114] 0 ≤ 81 := by decide
theorem witness_GroupRoundTrip : 1 ≤ ([0] : List Byte).length ∧ ([0, 0, 0, 0] : List Byte).length ≤ 4 := by decide
theorem witness_CommandsChange : (∃ t, exec (.enc1 1) (withCalls []) = .next t) ∧
    (∃ t, exec (.dec1 1) (withCalls []) = .next t ∧ t.calls[0]? = some encCall) ∧
    (withCalls []).calls[0]? = some encCall := ⟨⟨_, rfl⟩, ⟨_, rfl, rfl⟩, rfl⟩
theorem witness_StepRuns : ((aboutTo 0x18000000DEADBEEF).engine .enc).phase = .busy ∧
    ((aboutTo 0x18000000DEADBEEF).channel .enc).wait = 0 ∧
    decodeFor .enc ((aboutTo 0x18000000DEADBEEF).engine .enc).cmd = .ok (.enc4 0xDE 0xAD 0xBE 0xEF) ∧
    (aboutTo 0x18000000DEADBEEF).edge.rst = false ∧ (aboutTo 0x18000000DEADBEEF).edge.enc.req = none ∧
    (aboutTo 0x18000000DEADBEEF).edge.dec.req = none ∧
    ((aboutTo 0x18000000DEADBEEF).engine .dec).phase = .idle := by decide
theorem witness_StepRuns_both :
    let s := loadCommand 0x2A000068513D4E5C (aboutTo 0x18000000DEADBEEF)
    s.edge.rst = false ∧ s.edge.enc.req = none ∧ s.edge.dec.req = none ∧ s.enc.phase = .busy ∧ s.dec.phase = .busy ∧
    s.encCh.wait = 0 ∧ s.decCh.wait = 0 ∧ decodeFor .enc s.enc.cmd = .ok (.enc4 0xDE 0xAD 0xBE 0xEF) ∧
    decodeFor .dec s.dec.cmd = .ok (.dec5 0x68 0x51 0x3D 0x4E 0x5C) := by decide
theorem witness_PlacedWord : decode 0x2A000068513D4E5C = .ok (.dec5 0x68 0x51 0x3D 0x4E 0x5C) ∧
    (State.reset.engine .enc).phase ≠ .busy := by decide
theorem witness_ResetEdge : (doneState [rstEdge]).edge.rst = true := by decide
theorem witness_ResetEdgeCuts :
    let s : State := { State.reset with calls := [waitingCall, decCall], inputs := [rstEdge] }
    s.edge.rst = true ∧ s.calls[0]? = some waitingCall ∧ waitingCall.running = true ∧ s.calls[1]? = some decCall ∧
    decCall.running = false := by decide
theorem witness_IdleAccepts_word :
    let s : State := { State.reset with inputs := [decEdge (wordPort 5)] }
    s.edge.rst = false ∧ (s.engine .dec).phase = .idle ∧ (s.edge.port .dec).req = some (.word 5) ∧
    ∃ t, step s = .next t := ⟨by decide, by decide, by decide, _, rfl⟩
theorem witness_IdleAccepts_call :
    (withCalls [encEdge (callPort 0)]).Inv ∧ (withCalls [encEdge (callPort 0)]).edge.rst = false ∧
    ((withCalls [encEdge (callPort 0)]).engine .enc).phase = .idle ∧
    (∃ t, step (withCalls [encEdge (callPort 0)]) = .next t) ∧
    ∃ u w k c, offer .enc ((withCalls [encEdge (callPort 0)]).edge.port .enc) (withCalls [encEdge (callPort 0)]).popEdge =
      .next (u, some (w, some (k, c))) := ⟨inv_withCalls _, rfl, rfl, ⟨_, rfl⟩, _, _, _, _, rfl⟩
theorem witness_BusyExecutes : (∃ t, step (aboutTo 0x18000000DEADBEEF) = .next t) ∧
    (aboutTo 0x18000000DEADBEEF).edge.rst = false ∧
    (let s : State := { aboutTo 0x18000000DEADBEEF with encCh := { wait := 2, owner := none, log := [] } }
     s.enc.phase = .busy ∧ s.encCh.wait = 1 + 1 ∧ ∃ t, step s = .next t) :=
  ⟨⟨_, rfl⟩, rfl, rfl, rfl, _, rfl⟩
theorem witness_DoneRetires : (∃ t, step (doneState [encEdge (callPort 0)]) = .next t) ∧
    ((doneState [encEdge (callPort 0)]).edge.port .enc).rspReady = true ∧
    (∃ t, step (doneState [encEdge (wordPort 1)]) = .next t) ∧
    ((doneState [encEdge (wordPort 1)]).edge.port .enc).rspReady = false ∧
    ((doneState []).engine .enc).phase = .done := ⟨⟨_, rfl⟩, rfl, ⟨_, rfl⟩, rfl, rfl⟩
theorem witness_BusyChannel :
    let c : Call := { encCall with stat := .ready }
    let s : State := { doneState [encEdge (callPort 0)] with calls := [c] }
    s.edge.rst = false ∧ (s.engine .enc).phase ≠ .idle ∧ s.calls[0]? = some c ∧ c.kind = .enc ∧ c.stat = .ready ∧
    c.i < c.input.size ∧ ∃ t, step s = .next t := ⟨rfl, by decide, rfl, rfl, rfl, by decide, _, rfl⟩
theorem witness_Registers : State.reset.edge.rst = false ∧ ∃ t, step State.reset = .next t := ⟨rfl, _, rfl⟩
theorem witness_EnginesAreIndependent :
    let s := withCalls [encEdge (callPort 0)]
    let s' : State := { s with inputs := [{ rst := false, enc := callPort 0, dec := wordPort 7 }] }
    s.Inv ∧ s'.Inv ∧ agreeOn .enc s s' ∧ (∃ t, step s = .next t) ∧ ∃ t, step s' = .next t :=
  ⟨inv_withCalls _, inv_withCalls _, ⟨rfl, rfl, rfl, rfl, rfl, fun _ _ _ => Iff.rfl⟩, ⟨_, rfl⟩, _, rfl⟩
theorem witness_BusyEngineCompletes : (aboutTo 0x18000000DEADBEEF).Inv ∧
    (∀ c ∈ (aboutTo 0x18000000DEADBEEF).calls, c.overlaps = false) ∧
    ((aboutTo 0x18000000DEADBEEF).engine .enc).phase = .busy ∧ ((aboutTo 0x18000000DEADBEEF).channel .enc).wait = 0 ∧
    ∀ x ∈ (aboutTo 0x18000000DEADBEEF).inputs.take 1, x.rst = false :=
  ⟨inv_aboutTo_enc, by decide, by decide, by decide, by decide⟩
/-- A state whose ENC call has returned and whose turn it is. -/
def overState : State :=
  { withCalls [encEdge (callPort 0)] with calls := [{ encCall with stat := .finished (.ok 7) }] }
/-- A state whose ENC call has an empty input and whose turn it is. -/
def emptyState : State :=
  { withCalls [encEdge (callPort 0)] with calls := [Call.fresh .enc [] 3] }
theorem test_no_request_from_finished : overState.reqData .enc = none := rfl
theorem test_request_from_call : (withCalls [encEdge (callPort 0)]).reqData .enc = some 0x1800000001020304 := by decide
theorem witness_FinishedRun_ends : emptyState.runOver ∧ emptyState.edge.rst = false ∧
    (∃ t, step emptyState = .next t) ∧ emptyState.calls[0]? = some (Call.fresh .enc [] 3) :=
  ⟨by intro e; cases e <;> exact ⟨rfl, rfl⟩, rfl, ⟨_, rfl⟩, rfl⟩
theorem witness_FinishedRun_stands : overState.runOver ∧ overState.edge.rst = false ∧
    ∀ (e : EngineId) (k : Nat) (c : Call), (overState.edge.port e).req = some (.call k) →
      overState.calls[k]? = some c → c.mayDrive e = false := by
  refine ⟨by intro e; cases e <;> exact ⟨rfl, rfl⟩, rfl, ?_⟩
  intro e k c h hc
  cases e with
  | enc => cases h; cases hc; rfl
  | dec => cases h
theorem witness_FinishedRun_over : (∃ t, step overState = .next t) ∧
    ∃ c, overState.calls[0]? = some c ∧ c.over := ⟨⟨_, rfl⟩, _, rfl, _, rfl⟩
theorem witness_Parameters : ∃ t, step (withCalls [encEdge (callPort 0)]) = .next t := ⟨_, rfl⟩
theorem witness_StepKeepsTheInvariant :
    (withCalls [encEdge (callPort 0)]).Inv ∧ ∃ t, step (withCalls [encEdge (callPort 0)]) = .next t :=
  ⟨inv_withCalls _, _, rfl⟩
theorem witness_StepStopsOnlyForOverlap :
    let s : State := { State.reset with calls := [overlapCall], inputs := [encEdge (callPort 0)] }
    s.Inv ∧ step s = .refused .overlappingBuffers ∧ ∀ c ∈ (withCalls []).calls, c.overlaps = false := by
  refine ⟨inv_of_quiet (by intro e; cases e <;> simp [State.reset, Engine.reset]) (by intro e; cases e <;> rfl)
    (by intro e; cases e <;> rfl) ?_, rfl, by decide⟩
  intro c hc
  simp only [List.mem_cons, List.not_mem_nil, or_false] at hc
  subst hc
  exact ⟨Buffer.wf_ofBytes _, Buffer.wf_blank _, fun h => by cases h⟩
theorem witness_Overlap : overlapCall.stat = .start ∧ overlapCall.overlaps = true ∧ overlapCall.kind = .enc ∧
    (callPort 0).req = some (.call 0) ∧ [overlapCall][0]? = some overlapCall := by decide
theorem witness_EmptyInput :
    let c := Call.fresh .dec [] 3
    let s : State := { State.reset with calls := [c] }
    c.valid .dec ∧ c.input.size = 0 ∧ s.params = Params.default ∧ s.calls[0]? = some c ∧
    (callPort 0).req = some (.call 0) := ⟨fresh_valid _ _ _, rfl, rfl, rfl, rfl⟩
theorem witness_EncodeReturns : Params.default.capacityCheck = .exact ∧ encCall.valid .enc ∧
    (encodeText encCall.input.bytes).length ≤ encCall.output.size ∧
    (Call.fresh .enc [1, 2, 3, 4, 5] 6).output.size < (encodeText (Call.fresh .enc [1, 2, 3, 4, 5] 6).input.bytes).length :=
  ⟨rfl, fresh_valid _ _ _, by decide, by decide⟩
theorem witness_WorstCase : (Call.fresh .enc [1, 2, 3, 4, 5] 9).valid .enc ∧
    (Call.fresh .enc [1, 2, 3, 4, 5] 9).output.size < 5 * ((5 + 3) / 4) ∧ (Call.fresh .enc [1, 2, 3, 4, 5] 10).valid .enc ∧
    5 * ((5 + 3) / 4) ≤ (Call.fresh .enc [1, 2, 3, 4, 5] 10).output.size :=
  ⟨fresh_valid _ _ _, by decide, fresh_valid _ _ _, by decide⟩
theorem witness_EncodeLength : encCall.valid .enc ∧ ∃ out, encCall.verdict Params.default = some (.ok 7, out) :=
  ⟨fresh_valid _ _ _, _, rfl⟩
theorem witness_ZeroGroups : ([1, 2, 3, 4] : List Byte).length = 4 * 1 ∧
    5 * ((([1, 2, 3, 4] : List Byte).length + 4 * 2 + ([0, 9] : List Byte).length + 3) / 4) ≤ 20 ∧ 1 ≤ 3 ∧ 3 ≤ 3 ∧
    5 * ((([1, 2, 3, 4] : List Byte).length + 3 + 3) / 4) ≤ 10 := by decide
theorem witness_DecodeReturns : Params.default.capacityCheck = .exact ∧ decCall.valid .dec ∧
    decodeText .checks decCall.input.bytes = .ok [0, 0, 0, 0, 0] ∧ 5 ≤ decCall.output.size ∧
    decodeText .checks [0x7A, 0x7E] = .error .badDecodeChar ∧ (bytesBeforeError .checks [0x7A, 0x7E]).length = 4 ∧
    (Call.fresh .dec [0x7A, 0x7E] 4).valid .dec ∧ (Call.fresh .dec [0x7A, 0x7E] 3).valid .dec ∧
    (Call.fresh .dec [0x7A, 0x7E] 4).input.bytes = [0x7A, 0x7E] :=
  ⟨rfl, fresh_valid _ _ _, by decide, by decide, by decide, by decide, fresh_valid _ _ _, fresh_valid _ _ _, by decide⟩
theorem witness_DecodedLength :
    (∃ out, (Call.fresh .dec [0x7A, 0x21, 0x21] 5).verdict Params.default = some (.ok 5, out)) ∧
    (Call.fresh .dec [0x7A, 0x21, 0x21] 5).valid .dec ∧
    (∃ out, (Call.fresh .dec [0x21, 0x21] 1).verdict Params.default = some (.ok 1, out)) ∧
    (Call.fresh .dec [0x21, 0x21] 1).valid .dec ∧ shortcutChar ∉ (Call.fresh .dec [0x21, 0x21] 1).input.bytes :=
  ⟨⟨_, rfl⟩, fresh_valid _ _ _, ⟨_, rfl⟩, fresh_valid _ _ _, by decide⟩
theorem witness_RoundTrip : 5 * ((5 + 3) / 4) ≤ 10 ∧
    (Params.default.capacityCheck = .exact ∧ ([1, 2, 3, 4, 5] : List Byte).length ≤ 5) ∧
    max 5 (4 * (((encodeText [1, 2, 3, 4, 5]).length + 4) / 5)) ≤ 8 := by decide
theorem witness_StepKeepsEveryCallsResult : (withCalls [encEdge (callPort 0)]).Inv ∧
    (withCalls [encEdge (callPort 0)]).edge.rst = false ∧ (∃ t, step (withCalls [encEdge (callPort 0)]) = .next t) ∧
    (withCalls [encEdge (callPort 0)]).calls[0]? = some encCall := ⟨inv_withCalls _, rfl, ⟨_, rfl⟩, rfl⟩
theorem witness_EveryCallCanEnd : encCall.valid .enc ∧ decCall.valid .dec := ⟨fresh_valid _ _ _, fresh_valid _ _ _⟩
theorem witness_NoWrite : callOk waitingCall ∧ ∃ d, waitingCall.take 0x14000068513D4E5C = .next d :=
  ⟨⟨Buffer.wf_ofBytes _, Buffer.wf_blank _, fun _ => by decide⟩, _, rfl⟩
theorem witness_Sentinels : (⟨-7, -40, -2⟩ : Sentinels).wf = true ∧
    toInt32 ⟨-7, -40, -2⟩ (.ok (2 ^ 31 - 1)) = .next 0x7FFFFFFF ∧
    toInt32 ⟨-7, -40, -2⟩ (.ok (2 ^ 31)) = .refused .lengthBeyondInt32 := ⟨by decide, rfl, rfl⟩
theorem witness_Assemble : decode 0x240000445AFF007A = .ok (.dec2 0x44 0x5A) ∧
    decode 0x1880000000000000 = .error .reservedBits := by decide

end Sys2Proof.Tests
end

/-! ## The engines' registers and the build's parameters over one edge (10_state.md R22 to R24, R30, R33) -/

namespace Sys2Proof.Machine

/-- The three steps of an engine as moves of its registers, each from its own phase (10_state.md R22 to R24). -/
inductive Engine.Move : Engine → Engine → Prop where
  | stay (r : Engine) : Move r r
  | accept {r : Engine} (h : r.phase = .idle) (w : Word) : Move r { phase := .busy, cmd := w, rsp := r.rsp }
  | execute {r : Engine} (h : r.phase = .busy) (v : Word) : Move r { phase := .done, cmd := r.cmd, rsp := v }
  | retire {r : Engine} (h : r.phase = .done) : Move r { r with phase := .idle }

/-- Whatever an engine does at an edge without reset, its registers make one of the moves. -/
theorem engineEdge_move {e : EngineId} {x : Port} {o : Option Offer} {s t : State}
    (h : engineEdge e x o s = .next t) : (s.engine e).Move (t.engine e) := by
  rcases engineEdge_eq_next h with
    ⟨_, _, rfl⟩ | ⟨hp, p, _, rfl⟩ | ⟨hp, _, hx⟩ | ⟨_, _, rfl⟩ | ⟨_, _, rfl⟩ | ⟨hp, _, hr⟩
  · exact .stay _
  · rw [acceptOffer_engine]
    exact .accept hp p.1
  · obtain ⟨v, hv⟩ := execute_answers e s
    rw [hv] at hx
    cases hx
    rw [answered_engine_same]
    exact .execute hp v
  · rw [tick_engine]
    exact .stay _
  · exact .stay _
  · rw [(retireEdge_engine hr).1]
    exact .retire hp

/-- A step without reset makes one move of each engine's registers. -/
theorem step_move {s t : State} (hr : s.edge.rst = false) (h : step s = .next t) (e : EngineId) :
    (s.engine e).Move (t.engine e) := by
  obtain ⟨_, w, v, _, _, hv, hw, _, _, ht, _⟩ := step_own_channel hr h e
  rw [ht, ← hw]
  exact engineEdge_move hv

/-- Which phases a move goes between, that only ACCEPT writes `cmd`, and that only EXECUTE writes `rsp`. -/
theorem Engine.Move.registers {r q : Engine} (h : r.Move q) :
    (q.phase = r.phase ∨ (r.phase = .idle ∧ q.phase = .busy) ∨ (r.phase = .busy ∧ q.phase = .done) ∨
      (r.phase = .done ∧ q.phase = .idle)) ∧
    (q.cmd ≠ r.cmd → r.phase = .idle ∧ q.phase = .busy) ∧
    (q.rsp ≠ r.rsp → r.phase = .busy ∧ q.phase = .done) := by
  cases h with
  | stay => simp
  | accept hp w => simp [hp]
  | execute hp v => simp [hp]
  | retire hp => simp [hp]

/-- Settles O38: each engine's registers make one move, and the claim holds of every move. -/
theorem registersChangeOnlyByTheirSteps : Obligations.RegistersChangeOnlyByTheirSteps :=
  fun e _ _ hr h => (step_move hr h e).registers

@[simp] theorem length_cutCalls (cs : List Call) (n : Nat) : (cutCalls cs n).length = cs.length := by
  induction cs generalizing n with
  | nil => rfl
  | cons c cs ih =>
    unfold cutCalls
    split <;> simp [ih]

/-- Settles O42: a reset edge by its own laws, any other by the frames of the two channels' edges. -/
theorem parametersNeverChange : Obligations.ParametersNeverChange := by
  intro s t h
  rcases step_eq_next.1 h with ⟨_, rfl⟩ | ⟨_, u, hu, ht⟩
  · simp
  · obtain ⟨_, hup, hui, huc⟩ := channelEdge_frame hu
    obtain ⟨_, htp, hti, htc⟩ := channelEdge_frame ht
    exact ⟨htp.trans hup, hti.trans hui, htc.trans huc⟩

/-- Settles O31: the reset values of 10_state.md R33, engine by engine. -/
theorem resetStateIsIdleAndZero : Obligations.ResetStateIsIdleAndZero := by
  intro e
  cases e with
  | enc => decide
  | dec => decide

/-- Settles O43: at reset no response is pending, no call owns an engine, nothing is on record and no call is loaded. -/
theorem resetStateHasTheInvariant : Obligations.ResetStateHasTheInvariant := by
  refine inv_of_quiet (fun e => ?_) (fun e => ?_) (fun e => ?_) (fun c hc => ?_)
  · cases e <;> decide
  · cases e <;> rfl
  · cases e <;> rfl
  · cases hc

/-! ## A word placed for execution (10_state.md R23, R28; log entry 6) -/

theorem decodeEnc_engine {c : Command} {i : Instr} (h : decodeEnc c = .ok i) : i.engine = .enc := by
  unfold decodeEnc at h
  split at h
  · cases h
  · split at h <;> cases h <;> rfl

theorem decodeDec_engine {c : Command} {i : Instr} (h : decodeDec c = .ok i) : i.engine = .dec := by
  unfold decodeDec at h
  split at h
  · cases h
  · split at h <;> cases h <;> rfl

/-- A command's word is loaded into the command's engine. -/
theorem loadEngine_of_decode {w : Word} {i : Instr} (h : decode w = .ok i) : loadEngine w = i.engine := by
  simp only [decode] at h
  unfold loadEngine
  split at h
  · next he =>
    have hne : (commandOf w).op ≠ EngineId.dec.opcode := by rw [he]; decide
    rw [if_neg hne, decodeEnc_engine h]
  · split at h
    · next hd => rw [if_pos hd, decodeDec_engine h]
    · cases h

theorem decodeFor_of_decode {w : Word} {i : Instr} (h : decode w = .ok i) : decodeFor i.engine w = .ok i := by
  simp [decodeFor, h]

theorem withFetchWord_toNat (s : State) (w : Word) : s.withFetchWord 64 w.toNat = loadCommand w s := by
  simp [State.withFetchWord, Nat.mod_eq_of_lt w.isLt]

/-- Loading a word writes the registers of its engine and no others. -/
theorem loadCommand_engine (w : Word) (s : State) (f : EngineId) :
    (loadCommand w s).engine f =
      (s.setEngine (loadEngine w) { s.engine (loadEngine w) with cmd := w, phase := .busy }).engine f := by
  unfold loadCommand
  cases s.inputs with
  | nil => exact engine_setChannel _ _ f _
  | cons x xs =>
    cases f with
    | enc => exact engine_setChannel _ _ .enc _
    | dec => exact engine_setChannel _ _ .dec _

@[simp] theorem loadCommand_engine_same (w : Word) (s : State) :
    (loadCommand w s).engine (loadEngine w) =
      { phase := .busy, cmd := w, rsp := (s.engine (loadEngine w)).rsp } := by
  rw [loadCommand_engine, engine_setEngine_same]

theorem loadCommand_engine_other {w : Word} {f : EngineId} (h : f ≠ loadEngine w) (s : State) :
    (loadCommand w s).engine f = s.engine f := by
  rw [loadCommand_engine, engine_setEngine_other s h]

@[simp] theorem loadCommand_wait (w : Word) (s : State) : ((loadCommand w s).channel (loadEngine w)).wait = 0 := by
  unfold loadCommand
  cases loadEngine w <;> cases s.inputs <;> rfl

/-- The edge that executes a loaded word is one at which the host does nothing. -/
@[simp] theorem loadCommand_edge (w : Word) (s : State) : (loadCommand w s).edge = Edge.idle := by
  unfold loadCommand
  cases h : s.inputs <;> simp [State.edge, h]

/-- After that edge the inputs are those that were to come. -/
@[simp] theorem loadCommand_inputs_tail (w : Word) (s : State) : (loadCommand w s).inputs.tail = s.inputs := by
  unfold loadCommand
  cases h : s.inputs <;> simp [h]

/-- With an idle port, an engine that is not `BUSY` does nothing. -/
theorem channelEdge_idlePort_of_not_busy {e : EngineId} {s : State} (h : (s.engine e).phase ≠ .busy) :
    channelEdge e Port.idle s = .next s := by
  unfold channelEdge engineEdge
  cases hp : (s.engine e).phase with
  | busy => exact absurd hp h
  | idle => simp [offer, Port.idle, hp]
  | done => simp [offer, Port.idle, hp]

/-- With an idle port, a `BUSY` engine with nothing left to wait for executes its command. -/
theorem channelEdge_idlePort_of_due {e : EngineId} {s : State} {i : Instr} (hp : (s.engine e).phase = .busy)
    (hw : (s.channel e).wait = 0) (hd : decodeFor e (s.engine e).cmd = .ok i) :
    channelEdge e Port.idle s = exec i s := by
  simp [channelEdge, engineEdge, execute, offer, Port.idle, hp, hw, hd]

/-- An idle edge at which exactly one engine is due is that engine's EXECUTE (70_reset_and_hazards.md R202). -/
theorem step_eq_exec {s : State} {i : Instr} (he : s.edge = Edge.idle)
    (hp : (s.engine i.engine).phase = .busy) (hw : (s.channel i.engine).wait = 0)
    (hd : decodeFor i.engine (s.engine i.engine).cmd = .ok i)
    (ho : ∀ e, e ≠ i.engine → (s.engine e).phase ≠ .busy) : step s = exec i s.popEdge := by
  have hi : channelEdge i.engine Port.idle s.popEdge = exec i s.popEdge :=
    channelEdge_idlePort_of_due (by simpa using hp) (by simpa using hw) (by simpa using hd)
  have hs : step s = andThen (channelEdge .enc Port.idle s.popEdge) (channelEdge .dec Port.idle) := by
    simp [step, clockEdge, he, Edge.idle]
  obtain ⟨r, hr⟩ := exec_answers i s.popEdge
  rw [hs]
  cases hk : i.engine with
  | enc =>
    rw [hk] at hi hr ho
    rw [hi, hr, andThen_next]
    exact channelEdge_idlePort_of_not_busy (by
      rw [answered_engine_other (by decide), popEdge_engine]
      exact ho .dec (by decide))
  | dec =>
    rw [hk] at hi ho
    rw [channelEdge_idlePort_of_not_busy (by simpa using ho .enc (by decide)), andThen_next, hi]

/-- Settles O30: the word is loaded into its command's engine with nothing to wait for, and the next edge is idle. -/
theorem placedWordIsExecutedNext : Obligations.PlacedWordIsExecutedNext := by
  intro s w i hd ho
  have hl : loadEngine w = i.engine := loadEngine_of_decode hd
  have he := loadCommand_engine_same w s
  have hw := loadCommand_wait w s
  rw [hl] at he hw
  simp only [withFetchWord_toNat]
  refine ⟨by rw [he], by rw [he], by rw [loadCommand_edge]; rfl, ?_, loadCommand_inputs_tail w s⟩
  refine step_eq_exec (loadCommand_edge w s) (by rw [he]) hw (by rw [he]; exact decodeFor_of_decode hd) fun e hne => ?_
  rw [loadCommand_engine_other (hl ▸ hne)]
  exact ho e hne

end Sys2Proof.Machine

/-! ## Which call begins, and where it is refused (20_memory.md R48) -/

namespace Sys2Proof.Machine

/-- Two ranges meet exactly if an address lies in both: the larger of the two first addresses. -/
theorem rangesMeet_iff (a n b m : Nat) :
    rangesMeet a n b m = true ↔ ∃ x, a ≤ x ∧ x < a + n ∧ b ≤ x ∧ x < b + m := by
  simp only [rangesMeet, Bool.and_eq_true, decide_eq_true_eq]
  constructor
  · intro h
    exact ⟨max a b, by omega⟩
  · rintro ⟨x, hx⟩
    omega

/-- A call that has not begun polls by beginning. -/
theorem poll_of_start {c : Call} (h : c.stat = .start) (p : Params) :
    c.poll p = andThen (c.begin p) fun d => .next d.loopTest := by
  unfold Call.poll
  rw [h]

/-- A call that has begun is not stopped when it polls. -/
theorem poll_of_not_start {c : Call} (h : c.stat ≠ .start) (p : Params) : ∃ d, c.poll p = .next d := by
  unfold Call.poll
  split
  · next hs => exact absurd hs h
  all_goals exact ⟨_, rfl⟩

theorem begin_of_overlaps {c : Call} (h : c.overlaps = true) (p : Params) :
    c.begin p = .refused .overlappingBuffers := by
  unfold Call.begin
  rw [if_pos h]

/-- A poll never faults, and is refused only where a call with overlapping buffers would begin. -/
theorem poll_stops (p : Params) (c : Call) :
    (∀ f, c.poll p ≠ .fault f) ∧
    (∀ r, c.poll p = .refused r → r = .overlappingBuffers ∧ c.stat = .start ∧ c.overlaps = true) := by
  by_cases hs : c.stat = .start
  · obtain ⟨hf, hr⟩ := begin_stops p c
    rw [poll_of_start hs]
    refine ⟨fun f h => ?_, fun r h => ?_⟩
    · rcases andThen_eq_fault.1 h with h | ⟨_, _, h⟩
      · exact hf f h
      · cases h
    · rcases andThen_eq_refused.1 h with h | ⟨_, _, h⟩
      · exact ⟨(hr r h).1, hs, (hr r h).2⟩
      · cases h
  · obtain ⟨d, hd⟩ := poll_of_not_start hs p
    rw [hd]
    simp

/-- A call that has not begun is refused exactly if its buffers overlap. -/
theorem poll_refused_iff {c : Call} (h : c.stat = .start) (p : Params) :
    c.poll p = .refused .overlappingBuffers ↔ c.overlaps = true := by
  refine ⟨fun hr => ((poll_stops p c).2 _ hr).2.2, fun ho => ?_⟩
  rw [poll_of_start h, begin_of_overlaps ho, andThen_refused]

/-- What the host's turn is when it is a call's: the poll, and the command of a call that is then between groups. -/
theorem offer_of_mayDrive {e : EngineId} {x : Port} {s : State} {k : Nat} {c : Call} (hx : x.req = some (.call k))
    (hk : s.calls[k]? = some c) (hm : c.mayDrive e = true) :
    offer e x s = andThen (c.poll s.params) fun c1 =>
      if c1.stat = .ready then andThen c1.issue fun wc => .next (putCall k c1 s, some (wc.1, some (k, wc.2)))
      else .next (putCall k c1 s, none) := by
  simp [offer, hx, hk, hm]

/-- Settles O46: the refusal comes from `poll`, and the channel's edge begins with it. -/
theorem overlappingCallIsRefused : Obligations.OverlappingCallIsRefused := by
  refine ⟨fun p c hs => ?_, fun e x s k c hx hk he hs ho => ?_⟩
  · rw [poll_refused_iff hs]
    exact rangesMeet_iff _ _ _ _
  · have hm : c.mayDrive e = true := by simp [Call.mayDrive, he, hs]
    unfold channelEdge
    rw [offer_of_mayDrive hx hk hm, (poll_refused_iff hs s.params).2 ho, andThen_refused, andThen_refused]

end Sys2Proof.Machine

/-! ## What one engine's edge can see of the state, and that the other engine's edge leaves it alone (20_memory.md R56,
60_exceptions.md R181) -/

namespace Sys2Proof.Machine

/-- The two states hold the same calls of engine `e`, under the same numbers. -/
def callsAgree (e : EngineId) (s t : State) : Prop :=
  ∀ (k : Nat) (c : Call), c.kind = e → (s.calls[k]? = some c ↔ t.calls[k]? = some c)

/-- The two states are the same in all that an edge of engine `e` depends on: `agreeOn` without the inputs. -/
def seenAlike (e : EngineId) (s t : State) : Prop :=
  s.engine e = t.engine e ∧ s.channel e = t.channel e ∧ s.params = t.params ∧ callsAgree e s t

theorem callsAgree.refl (e : EngineId) (s : State) : callsAgree e s s := fun _ _ _ => Iff.rfl

theorem callsAgree.trans {e : EngineId} {s t u : State} (h : callsAgree e s t) (h' : callsAgree e t u) :
    callsAgree e s u := fun k c hc => (h k c hc).trans (h' k c hc)

theorem seenAlike.symm {e : EngineId} {s t : State} (h : seenAlike e s t) : seenAlike e t s := by
  obtain ⟨he, hc, hp, hk⟩ := h
  exact ⟨he.symm, hc.symm, hp.symm, fun k c hce => (hk k c hce).symm⟩

theorem seenAlike.trans {e : EngineId} {s t u : State} (h : seenAlike e s t) (h' : seenAlike e t u) :
    seenAlike e s u := by
  obtain ⟨he, hc, hp, hk⟩ := h
  obtain ⟨he', hc', hp', hk'⟩ := h'
  exact ⟨he.trans he', hc.trans hc', hp.trans hp', hk.trans hk'⟩

/-- Using up an edge of the inputs changes nothing an engine's edge depends on. -/
theorem seenAlike_popEdge (e : EngineId) (s : State) : seenAlike e s s.popEdge :=
  ⟨by simp, by simp, rfl, callsAgree.refl e s⟩

/-- `agreeOn` is the agreement of the inputs at this edge and of all else an engine's edge depends on. -/
theorem agreeOn_iff {e : EngineId} {s t : State} :
    agreeOn e s t ↔ s.edge.rst = t.edge.rst ∧ s.edge.port e = t.edge.port e ∧ seenAlike e s t := by
  constructor
  · rintro ⟨he, hc, hp, hr, hx, hk⟩
    exact ⟨hr, hx, he, hc, hp, hk⟩
  · rintro ⟨hr, hx, he, hc, hp, hk⟩
    exact ⟨he, hc, hp, hr, hx, hk⟩

/-! ### A call stays on its engine -/

@[simp] theorem loopTest_kind (c : Call) : c.loopTest.kind = c.kind := by
  rcases loopTest_cases c with ⟨h, _⟩ | ⟨_, _, h⟩ <;> rw [h]

theorem issue_kind {c d : Call} {w : Word} (h : c.issue = .next (w, d)) : d.kind = c.kind := by
  obtain ⟨n, us, _, _, _, rfl⟩ := issue_eq_next h
  rfl

theorem take_kind {c d : Call} {r : Word} (h : c.take r = .next d) : d.kind = c.kind := by
  by_cases hw : ∃ n, c.stat = .waiting n
  · obtain ⟨n, hn⟩ := hw
    obtain ⟨_, ⟨_, _, rfl⟩ | ⟨_, _, rfl⟩ | ⟨_, _, _, _, rfl⟩⟩ := take_eq_next hn h
    · rfl
    · rfl
    · exact loopTest_kind _
  · rw [take_of_not_waiting (fun n hn => hw ⟨n, hn⟩)] at h
    cases h
    rfl

theorem mayDrive_kind {c : Call} {e : EngineId} (h : c.mayDrive e = true) : c.kind = e := by
  simp only [Call.mayDrive, Bool.and_eq_true, beq_iff_eq] at h
  exact h.1

/-- A call that waits has no turn. -/
theorem mayDrive_of_waiting {c : Call} {n : Nat} (h : c.stat = .waiting n) (e : EngineId) : c.mayDrive e = false := by
  simp [Call.mayDrive, h]

/-- What stands under the number of a stored call is of that call's engine. -/
theorem putCall_calls_kind {k : Nat} {c d : Call} {s : State} (h : (putCall k d s).calls[k]? = some c) :
    c.kind = d.kind := by
  obtain ⟨out, n, hp, _⟩ := putCall_eq k d s
  rw [hp] at h
  obtain ⟨_, hc⟩ := List.getElem?_eq_some_iff.1 h
  rw [← hc, List.getElem_set_self]

/-- Storing a call of another engine in place of a call of another engine leaves this engine's calls alone. -/
theorem callsAgree_putCall {e : EngineId} {k : Nat} {b d : Call} {s : State} (hb : s.calls[k]? = some b)
    (hbe : b.kind ≠ e) (hde : d.kind ≠ e) : callsAgree e s (putCall k d s) := by
  intro j c hc
  by_cases hj : j = k
  · subst hj
    constructor
    · intro h
      rw [hb] at h
      cases h
      exact absurd hc hbe
    · intro h
      exact absurd ((putCall_calls_kind h).symm.trans hc) hde
  · rw [putCall_calls_other hj]

/-! ### The other engine's edge -/

/-- The call that presents an offer belongs to engine `e`, as it is stored and as it will be. -/
def offerFrom (e : EngineId) (o : Option Offer) (s : State) : Prop :=
  ∀ w k d, o = some (w, some (k, d)) → d.kind = e ∧ ∃ c, s.calls[k]? = some c ∧ c.kind = e

/-- What is offered on a channel comes from a call of that channel. -/
theorem offer_offerFrom {f : EngineId} {x : Port} {s u : State} {o : Option Offer}
    (h : offer f x s = .next (u, o)) : offerFrom f o u := by
  intro w k d ho
  subst ho
  rcases offer_eq_next h with ⟨_, ho | ⟨_, _, ho⟩⟩ | ⟨k', c, c1, _, hk, hm, hp, rfl, ⟨_, w', c2, hi, ho⟩ | ⟨_, ho⟩⟩
  · cases ho
  · cases ho
  · cases ho
    obtain ⟨hc, hc1, _⟩ := poll_eq_next hm hp
    have hlt : k < s.calls.length := (List.getElem?_eq_some_iff.1 hk).1
    obtain ⟨b, hb, _⟩ := putCall_calls_same (c := c1) hlt
    exact ⟨(issue_kind hi).trans (hc1.trans hc), b, hb, (putCall_calls_kind hb).trans (hc1.trans hc)⟩
  · cases ho

/-- The host's turn on one channel leaves the calls of the other engine alone. -/
theorem offer_callsAgree {e f : EngineId} (hne : f ≠ e) {x : Port} {s u : State} {o : Option Offer}
    (h : offer f x s = .next (u, o)) : callsAgree e s u := by
  rcases offer_eq_next h with ⟨rfl, _⟩ | ⟨k, c, c1, _, hk, hm, hp, rfl, _⟩
  · exact callsAgree.refl e u
  · obtain ⟨hc, hc1, _⟩ := poll_eq_next hm hp
    exact callsAgree_putCall hk (hc ▸ hne) (hc1 ▸ hc ▸ hne)

/-- A call that an engine works for waits, so the host's turn does not touch it. -/
theorem offer_keeps_ownerMatches {e : EngineId} {x : Port} {s u : State} {o : Option Offer}
    (hs : ownerMatches e s) (h : offer e x s = .next (u, o)) : ownerMatches e u := by
  obtain ⟨hE, hC, _⟩ := offer_frame h
  intro k hk
  rw [hC] at hk
  rw [hE]
  obtain ⟨hp, c, hc, hce, hlt, hi⟩ := hs k hk
  refine ⟨hp, c, ?_, hce, hlt, hi⟩
  rcases offer_eq_next h with ⟨rfl, _⟩ | ⟨j, b, b1, _, hj, hm, _, rfl, _⟩
  · exact hc
  · have hjk : k ≠ j := by
      rintro rfl
      rw [hc] at hj
      cases hj
      obtain ⟨n, _, _, _, _, hw⟩ := issue_eq_next hi
      rw [mayDrive_of_waiting (congrArg Call.stat hw) e] at hm
      cases hm
    rw [putCall_calls_other hjk, hc]

/-- What one engine does at an edge leaves the calls of the other engine alone. -/
theorem engineEdge_callsAgree {e f : EngineId} (hne : f ≠ e) {x : Port} {o : Option Offer} {s t : State}
    (hs : ownerMatches f s) (ho : offerFrom f o s) (h : engineEdge f x o s = .next t) : callsAgree e s t := by
  have same {t : State} (ht : t.calls = s.calls) : callsAgree e s t := fun k c _ => by rw [ht]
  rcases engineEdge_eq_next h with
    ⟨_, _, rfl⟩ | ⟨_, ⟨w, _ | ⟨k, d⟩⟩, rfl, rfl⟩ | ⟨_, _, hx⟩ | ⟨_, _, rfl⟩ | ⟨_, _, rfl⟩ | ⟨_, _, hr⟩
  · exact same rfl
  · exact same (by simp [acceptOffer])
  · obtain ⟨hd, c, hc, hce⟩ := ho w k d rfl
    have hput : callsAgree e s (putCall k d s) := callsAgree_putCall hc (hce ▸ hne) (hd ▸ hne)
    exact fun j b hb => (hput j b hb).trans (by simp [acceptOffer])
  · obtain ⟨r, hr⟩ := execute_answers f s
    rw [hr] at hx
    cases hx
    exact same (by simp)
  · exact same (by simp)
  · exact same rfl
  · rcases retireEdge_eq_next hr with rfl | ⟨k, c, n, d, hk, hc, _, hd, rfl⟩
    · exact same (by simp)
    · obtain ⟨_, c', hc', hce, _⟩ := hs k hk
      rw [hc] at hc'
      cases hc'
      have hput : callsAgree e (retire f s) (putCall k d (retire f s)) :=
        callsAgree_putCall (by simpa using hc) (hce ▸ hne) (take_kind hd ▸ hce ▸ hne)
      exact (same (by simp)).trans hput

/-- One channel's edge leaves all that the other engine's edge depends on alone. -/
theorem channelEdge_seenAlike {e f : EngineId} (hne : f ≠ e) {x : Port} {s t : State} (hs : ownerMatches f s)
    (h : channelEdge f x s = .next t) : seenAlike e s t := by
  obtain ⟨hec, hp, _⟩ := channelEdge_frame h
  obtain ⟨he, hc⟩ := hec e hne.symm
  obtain ⟨u, o, hu, ht⟩ := channelEdge_eq_next.1 h
  have hk : callsAgree e s t := (offer_callsAgree hne hu).trans
    (engineEdge_callsAgree hne (offer_keeps_ownerMatches hs hu) (offer_offerFrom hu) ht)
  exact ⟨he.symm, hc.symm, hp.symm, hk⟩

/-! ### The engine's own edge -/

theorem decodeFor_engine {e : EngineId} {w : Word} {i : Instr} (h : decodeFor e w = .ok i) : i.engine = e := by
  unfold decodeFor at h
  split at h
  · split at h
    · next he => cases h; exact he
    · cases h
  · cases h

/-- A command's response depends on the parameters only. -/
theorem exec_answers_of_params (i : Instr) (p : Params) :
    ∃ r, ∀ s, s.params = p → exec i s = .next (answered i.engine r s) := by
  cases i with
  | dec1 c0 =>
    refine ⟨decLone p.loneTail c0, fun s hs => ?_⟩
    rw [← hs]
    exact respond_eq_answered _ _ s
  | _ => exact ⟨_, fun s _ => respond_eq_answered _ _ s⟩

/-- What EXECUTE answers depends on the command word and the parameters only. -/
theorem execute_answers_of_params (e : EngineId) (w : Word) (p : Params) :
    ∃ r, ∀ s, (s.engine e).cmd = w → s.params = p → execute e s = .next (answered e r s) := by
  cases h : decodeFor e w with
  | ok i =>
    obtain ⟨r, hr⟩ := exec_answers_of_params i p
    refine ⟨r, fun s hw hp => ?_⟩
    rw [execute, hw, h, ← decodeFor_engine h]
    exact hr s hp
  | error x =>
    refine ⟨raise .illegalCommand 0, fun s hw _ => ?_⟩
    rw [execute, hw, h]
    exact respond_eq_answered _ _ s

/-- No call of engine `e` has a turn, and the offer is the same in every state with the same calls of `e`; or one has. -/
theorem offer_turn (e : EngineId) (x : Port) (s : State) :
    (∃ o, ∀ s', callsAgree e s s' → offer e x s' = .next (s', o)) ∨
    ∃ k c, x.req = some (.call k) ∧ s.calls[k]? = some c ∧ c.mayDrive e = true := by
  match hx : x.req with
  | none => exact .inl ⟨none, fun s' _ => by simp only [offer, hx]⟩
  | some (.word w) => exact .inl ⟨some (w, none), fun s' _ => by simp only [offer, hx]⟩
  | some (.call k) =>
    by_cases ht : ∃ c, s.calls[k]? = some c ∧ c.mayDrive e = true
    · obtain ⟨c, hc, hm⟩ := ht
      exact .inr ⟨k, c, rfl, hc, hm⟩
    · refine .inl ⟨none, fun s' hs => ?_⟩
      cases hc : s'.calls[k]? with
      | none => simp only [offer, hx, hc]
      | some c =>
        have hm : ¬ c.mayDrive e = true := fun hm => ht ⟨c, (hs k c (mayDrive_kind hm)).2 hc, hm⟩
        simp only [offer, hx, hc, if_neg hm]

/-- The host makes the same offer in states that agree on the channel's calls and the parameters. -/
theorem offer_congr {e : EngineId} {x : Port} {s s' u u' : State} {o o' : Option Offer} (hp : s.params = s'.params)
    (hs : callsAgree e s s') (h : offer e x s = .next (u, o)) (h' : offer e x s' = .next (u', o')) : o = o' := by
  rcases offer_turn e x s with ⟨p, ho⟩ | ⟨k, c, hx, hc, hm⟩
  · rw [ho s (callsAgree.refl e s)] at h
    rw [ho s' hs] at h'
    cases h
    cases h'
    rfl
  · rw [offer_of_mayDrive hx hc hm, hp] at h
    rw [offer_of_mayDrive hx ((hs k c (mayDrive_kind hm)).1 hc) hm] at h'
    obtain ⟨c1, hc1, h⟩ := andThen_eq_next.1 h
    rw [hc1, andThen_next] at h'
    split at h
    · next hr =>
      obtain ⟨wc, hi, h⟩ := andThen_eq_next.1 h
      rw [if_pos hr, hi, andThen_next] at h'
      cases h
      cases h'
      rfl
    · next hr =>
      rw [if_neg hr] at h'
      cases h
      cases h'
      rfl

theorem acceptOffer_channel (e : EngineId) (o : Offer) (n : Nat) (s : State) :
    (acceptOffer e o n s).channel e =
      { wait := latency s.params e - 1 + n, owner := o.2.map Prod.fst, log := (s.channel e).log } := by
  obtain ⟨w, _ | ⟨k, c⟩⟩ := o <;> simp [acceptOffer]

/-- RETIRE leaves the engine's registers and channel the same whether or not a call takes the response. -/
theorem retireEdge_own {e : EngineId} {s t : State} (h : retireEdge e s = .next t) :
    t.engine e = (retire e s).engine e ∧ t.channel e = (retire e s).channel e := by
  rcases retireEdge_eq_next h with rfl | ⟨k, c, n, d, _, _, _, _, rfl⟩
  · exact ⟨rfl, rfl⟩
  · simp

/-! What an engine does at an edge, an equation for each of its cases (70_reset_and_hazards.md R201 to R204). -/

theorem engineEdge_of_idle_none {e : EngineId} {s : State} (h : (s.engine e).phase = .idle) (x : Port) :
    engineEdge e x none s = .next s := by
  unfold engineEdge
  rw [h]

theorem engineEdge_of_idle_some {e : EngineId} {s : State} (h : (s.engine e).phase = .idle) (x : Port) (o : Offer) :
    engineEdge e x (some o) s = .next (acceptOffer e o x.extra s) := by
  unfold engineEdge
  rw [h]

theorem engineEdge_of_busy {e : EngineId} {s : State} (h : (s.engine e).phase = .busy) (x : Port) (o : Option Offer) :
    engineEdge e x o s = if (s.channel e).wait = 0 then execute e s else .next (tick e s) := by
  unfold engineEdge
  rw [h]

theorem engineEdge_of_done {e : EngineId} {s : State} (h : (s.engine e).phase = .done) (x : Port) (o : Option Offer) :
    engineEdge e x o s = if x.rspReady then retireEdge e s else .next s := by
  unfold engineEdge
  rw [h]

/-- What an engine's edge leaves in its registers and its channel is fixed by what stood in them, the parameters and the
offer. -/
theorem engineEdge_own (e : EngineId) (x : Port) (o : Option Offer) (r : Engine) (c : Channel) (p : Params) :
    ∃ r' c', ∀ s t, s.engine e = r → s.channel e = c → s.params = p → engineEdge e x o s = .next t →
      t.engine e = r' ∧ t.channel e = c' := by
  cases hr : r.phase with
  | idle =>
    cases o with
    | none =>
      refine ⟨r, c, ?_⟩
      rintro s t rfl rfl rfl h
      rw [engineEdge_of_idle_none hr] at h
      cases h
      exact ⟨rfl, rfl⟩
    | some w =>
      refine ⟨{ phase := .busy, cmd := w.1, rsp := r.rsp },
        { wait := latency p e - 1 + x.extra, owner := w.2.map Prod.fst, log := c.log }, ?_⟩
      rintro s t rfl rfl rfl h
      rw [engineEdge_of_idle_some hr] at h
      cases h
      exact ⟨acceptOffer_engine e w x.extra s, acceptOffer_channel e w x.extra s⟩
  | busy =>
    by_cases hw : c.wait = 0
    · obtain ⟨v, hv⟩ := execute_answers_of_params e r.cmd p
      refine ⟨{ phase := .done, cmd := r.cmd, rsp := v }, c, ?_⟩
      rintro s t rfl rfl rfl h
      rw [engineEdge_of_busy hr, if_pos hw, hv s rfl rfl] at h
      cases h
      simp
    · refine ⟨r, { c with wait := c.wait - 1 }, ?_⟩
      rintro s t rfl rfl rfl h
      rw [engineEdge_of_busy hr, if_neg hw] at h
      cases h
      simp
  | done =>
    by_cases hx : x.rspReady = true
    · refine ⟨{ r with phase := .idle }, { c with owner := none, log := ⟨r.cmd, r.rsp⟩ :: c.log }, ?_⟩
      rintro s t rfl rfl rfl h
      rw [engineEdge_of_done hr, if_pos hx] at h
      simpa using retireEdge_own h
    · refine ⟨r, c, ?_⟩
      rintro s t rfl rfl rfl h
      rw [engineEdge_of_done hr, if_neg hx] at h
      cases h
      exact ⟨rfl, rfl⟩

/-- What a channel's edge leaves in its engine's registers and its channel is fixed by what the edge can see. -/
theorem channelEdge_congr {e : EngineId} {x : Port} {s s' t t' : State} (hs : seenAlike e s s')
    (h : channelEdge e x s = .next t) (h' : channelEdge e x s' = .next t') :
    t.engine e = t'.engine e ∧ t.channel e = t'.channel e := by
  obtain ⟨he, hc, hp, hk⟩ := hs
  obtain ⟨u, o, hu, ht⟩ := channelEdge_eq_next.1 h
  obtain ⟨u', o', hu', ht'⟩ := channelEdge_eq_next.1 h'
  obtain ⟨ue, uc, up, _⟩ := offer_frame hu
  obtain ⟨ue', uc', up', _⟩ := offer_frame hu'
  rw [← offer_congr hp hk hu hu'] at ht'
  obtain ⟨r, c, hown⟩ := engineEdge_own e x o (s.engine e) (s.channel e) s.params
  obtain ⟨hr, hch⟩ := hown u t (ue e) (uc e) up ht
  obtain ⟨hr', hch'⟩ := hown u' t' ((ue' e).trans he.symm) ((uc' e).trans hc.symm) (up'.trans hp.symm) ht'
  exact ⟨hr.trans hr'.symm, hch.trans hch'.symm⟩

/-! ### The two edges of a step -/

theorem ownerMatches_congr {e : EngineId} {s t : State} (hs : seenAlike e s t) (h : ownerMatches e s) :
    ownerMatches e t := by
  obtain ⟨he, hc, _, hk⟩ := hs
  intro k ho
  rw [← hc] at ho
  obtain ⟨hp, c, hck, hce, hi⟩ := h k ho
  rw [← he]
  exact ⟨hp, c, (hk k c hce).1 hck, hce, hi⟩

/-- In a step without reset, engine `e` and its channel become what the channel's own edge makes of them, from a state
that this edge cannot tell from the one the step began in. -/
theorem step_own_edge {s t : State} (hi : s.Inv) (hr : s.edge.rst = false) (h : step s = .next t) (e : EngineId) :
    ∃ u v, seenAlike e s u ∧ channelEdge e (s.edge.port e) u = .next v ∧ t.engine e = v.engine e ∧
      t.channel e = v.channel e := by
  rcases step_eq_next.1 h with ⟨hr', _⟩ | ⟨_, u, hu, ht⟩
  · rw [hr] at hr'
    cases hr'
  · cases e with
    | enc =>
      obtain ⟨hd, _⟩ := channelEdge_frame ht
      obtain ⟨he, hc⟩ := hd .enc (by decide)
      exact ⟨s.popEdge, u, seenAlike_popEdge .enc s, hu, he, hc⟩
    | dec =>
      have ho : ownerMatches .enc s.popEdge := ownerMatches_congr (seenAlike_popEdge .enc s) (hi.1 .enc).2.2
      have hsu : seenAlike .dec s u := (seenAlike_popEdge .dec s).trans (channelEdge_seenAlike (by decide) ho hu)
      exact ⟨u, t, hsu, ht, rfl, rfl⟩

/-- Settles O39: each step makes of the engine what its own channel's edge does, and the two edges cannot tell the two
states apart. -/
theorem enginesAreIndependent : Obligations.EnginesAreIndependent := by
  intro e s s' t t' hi hi' ha h h'
  obtain ⟨hrst, hport, hs⟩ := agreeOn_iff.1 ha
  cases hr : s.edge.rst with
  | true =>
    rw [step_of_rst hr] at h
    rw [step_of_rst (hrst ▸ hr)] at h'
    cases h
    cases h'
    simp [hs.2.1]
  | false =>
    obtain ⟨u, v, hu, hv, he, hc⟩ := step_own_edge hi hr h e
    obtain ⟨u', v', hu', hv', he', hc'⟩ := step_own_edge hi' (hrst ▸ hr) h' e
    rw [← hport] at hv'
    obtain ⟨hve, hvc⟩ := channelEdge_congr ((hu.symm.trans hs).trans hu') hv hv'
    exact ⟨he.trans (hve.trans he'.symm), hc.trans (hvc.trans hc'.symm)⟩

end Sys2Proof.Machine

/-! ## A response to a stream call's command can be taken (30_encoding.md R81; 41_encoder.md R108; 42_decoder.md R133) -/

namespace Sys2Proof.Machine

theorem legalFor_iff (c : Command) (e : EngineId) :
    c.legalFor e = true ↔ c.op = e.opcode ∧ c.rsv = 0 ∧ c.cnt.toNat ≤ e.maxCount := by
  simp [Command.legalFor, and_assoc]

/-- A group of a legal length makes a legal command. -/
theorem groupCommand_legalFor {e : EngineId} {us : List Byte} (h : us.length ≤ e.maxCount) :
    (commandOf (groupCommand e us)).legalFor e = true := by
  rw [groupCommand, commandWord, commandOf_wordOf, legalFor_iff]
  refine ⟨rfl, rfl, ?_⟩
  have hm : e.maxCount ≤ 5 := by cases e <;> decide
  simp only [BitVec.toNat_ofNat]
  omega

theorem conforms_ok_enc {n : Nat} (h : n ≤ 5) (k : Nat) (zf : Bool) (p : Payload) :
    conforms .enc (pack .ok n k zf p) = true := by
  simp only [conforms, rspStatus_pack, statusOfCode_statusCode, rspOcnt_pack, decide_eq_true_eq]
  omega

theorem conforms_ok_dec {n : Nat} (h : n ≤ 4) (k : Nat) (zf : Bool) (p : Payload) :
    conforms .dec (pack .ok n k zf p) = true := by
  simp only [conforms, rspStatus_pack, statusOfCode_statusCode, rspOcnt_pack, decide_eq_true_eq]
  omega

theorem conforms_badDecodeChar (k : Nat) : conforms .dec (raise .badDecodeChar k) = true := by
  simp [conforms, raise]

theorem conforms_decodeOverflow (k : Nat) : conforms .dec (raise .decodeOverflow k) = true := by
  simp [conforms, raise]

/-- A legal command is none of the illegal words the response functions answer first (30_encoding.md R80). -/
theorem not_illegal_of_legalFor {e : EngineId} {w : Word} (h : (commandOf w).legalFor e = true) :
    ¬ (w.extractLsb' 60 4 ≠ e.opcode ∨ w.extractLsb' 40 17 ≠ 0 ∨ (w.extractLsb' 57 3).toNat > e.maxCount) := by
  obtain ⟨hop, hrsv, hcnt⟩ := (legalFor_iff _ _).1 h
  rintro (h | h | h)
  · exact h hop
  · exact h hrsv
  · exact absurd hcnt (Nat.not_le.2 h)

/-- ENC answers a legal command with at most five characters. -/
theorem conforms_fEnc {w : Word} (h : (commandOf w).legalFor .enc = true) : conforms .enc (fEnc w) = true := by
  obtain ⟨_, _, hcnt⟩ := (legalFor_iff _ _).1 h
  unfold fEnc
  dsimp only
  split
  · next hi => exact absurd hi (not_illegal_of_legalFor h)
  split
  · exact conforms_ok_enc (by decide) _ _ _
  split
  · exact conforms_ok_enc (by decide) _ _ _
  · exact conforms_ok_enc (Nat.succ_le_succ hcnt) _ _ _

/-- DEC answers a legal command with at most four bytes, or with one of the two errors of its own. -/
theorem conforms_fDec {w : Word} (h : (commandOf w).legalFor .dec = true) (policy : LoneTailPolicy) :
    conforms .dec (fDec policy w) = true := by
  obtain ⟨_, _, hcnt⟩ := (legalFor_iff _ _).1 h
  unfold fDec
  dsimp only
  split
  · next hi => exact absurd hi (not_illegal_of_legalFor h)
  split
  · exact conforms_ok_dec (by decide) _ _ _
  split
  · exact conforms_ok_dec (by decide) _ _ _
  split
  · exact conforms_badDecodeChar 0
  split
  · exact conforms_badDecodeChar _
  · exact iteInduction (motive := (conforms .dec · = true)) (fun _ => conforms_decodeOverflow 0)
      fun _ => conforms_ok_dec (Nat.sub_le_of_le_add hcnt) _ _ _

/-- An engine's response to a legal command is one a stream call can take. -/
theorem conforms_engineResponse {e : EngineId} {w : Word} (h : (commandOf w).legalFor e = true) (p : Params) :
    conforms e (engineResponse p e w) = true := by
  cases e with
  | enc => exact conforms_fEnc h
  | dec => exact conforms_fDec h p.loneTail

/-- The command a call issues before the end of its input is legal on the call's engine. -/
theorem issue_legalFor {c d : Call} {w : Word} (hlt : c.i < c.input.size) (h : c.issue = .next (w, d)) :
    (commandOf w).legalFor c.kind = true := by
  obtain ⟨n, us, hi, hn, hus, _⟩ := issue_of_lt hlt
  obtain ⟨m, hm, _, _, hm5, hm4⟩ := groupLen_of_lt hlt
  rw [hi] at h
  cases h
  rw [hn] at hm
  cases hm
  refine groupCommand_legalFor ?_
  cases hk : c.kind with
  | enc => exact hus ▸ hm4 hk
  | dec => exact hus ▸ hm5

/-! ## Where a step stops (20_memory.md R48, R50; 60_exceptions.md R176) -/

/-- Some call of engine `e` has not begun and has overlapping buffers. -/
def overlapAhead (e : EngineId) (s : State) : Prop :=
  ∃ c ∈ s.calls, c.kind = e ∧ c.stat = .start ∧ c.overlaps = true

/-- The outcome is a next state, or the refusal of an overlapping call of engine `e` of `s` that would begin. -/
def stopsOnlyForOverlap {α : Type} (e : EngineId) (s : State) (o : Host.Outcome α Fault Refusal) : Prop :=
  (∃ a, o = .next a) ∨ (o = .refused .overlappingBuffers ∧ overlapAhead e s)

theorem offer_stopsOnlyForOverlap (e : EngineId) (x : Port) (s : State) :
    stopsOnlyForOverlap e s (offer e x s) := by
  rcases offer_turn e x s with ⟨o, ho⟩ | ⟨k, c, hx, hc, hm⟩
  · exact .inl ⟨_, ho s (callsAgree.refl e s)⟩
  · rw [offer_of_mayDrive hx hc hm]
    obtain ⟨hf, hr⟩ := poll_stops s.params c
    cases hp : c.poll s.params with
    | next c1 =>
      left
      rw [andThen_next]
      split
      · next hready =>
        obtain ⟨_, _, _, _, _, _, _, hlt⟩ := poll_eq_next hm hp
        obtain ⟨n, us, hi, _⟩ := issue_of_lt (hlt hready)
        rw [hi]
        exact ⟨_, rfl⟩
      · exact ⟨_, rfl⟩
    | fault f => exact absurd hp (hf f)
    | refused r =>
      obtain ⟨rfl, hs, ho⟩ := hr r hp
      exact .inr ⟨rfl, c, List.mem_of_getElem? hc, mayDrive_kind hm, hs, ho⟩

/-- A response that belongs to its command is taken by the call that waits for it. -/
theorem retireEdge_isNext {e : EngineId} {s : State} (hd : (s.engine e).phase = .done) (hr : responseMatches e s)
    (ho : ownerMatches e s) : ∃ t, retireEdge e s = .next t := by
  unfold retireEdge
  split
  · exact ⟨_, rfl⟩
  · next k hk =>
    obtain ⟨_, c, hc, rfl, hlt, hi⟩ := ho k hk
    have hconf : conforms c.kind (rspData (s.engine c.kind)) = true := by
      rw [rspData, hr hd]
      exact conforms_engineResponse (issue_legalFor hlt hi) s.params
    obtain ⟨d, htake⟩ := take_of_conforms hconf
    rw [hc]
    simp only [htake, andThen_next]
    split <;> exact ⟨_, rfl⟩

theorem engineEdge_isNext {e : EngineId} {s : State} (hr : responseMatches e s) (ho : ownerMatches e s) (x : Port)
    (o : Option Offer) : ∃ t, engineEdge e x o s = .next t := by
  cases hp : (s.engine e).phase with
  | idle =>
    cases o with
    | none => exact ⟨_, engineEdge_of_idle_none hp x⟩
    | some w => exact ⟨_, engineEdge_of_idle_some hp x w⟩
  | busy =>
    rw [engineEdge_of_busy hp]
    split
    · obtain ⟨v, hv⟩ := execute_answers e s
      exact ⟨_, hv⟩
    · exact ⟨_, rfl⟩
  | done =>
    rw [engineEdge_of_done hp]
    split
    · exact retireEdge_isNext hp hr ho
    · exact ⟨_, rfl⟩

theorem responseMatches_congr {e : EngineId} {s t : State} (he : t.engine e = s.engine e) (hp : t.params = s.params)
    (h : responseMatches e s) : responseMatches e t := by
  unfold responseMatches
  rw [he, hp]
  exact h

theorem channelEdge_stopsOnlyForOverlap {e : EngineId} {s : State} (hr : responseMatches e s) (ho : ownerMatches e s)
    (x : Port) : stopsOnlyForOverlap e s (channelEdge e x s) := by
  unfold channelEdge
  rcases offer_stopsOnlyForOverlap e x s with ⟨⟨u, o⟩, hu⟩ | ⟨hu, hc⟩
  · obtain ⟨he, _, hp, _⟩ := offer_frame hu
    rw [hu]
    exact .inl (engineEdge_isNext (responseMatches_congr (he e) hp hr) (offer_keeps_ownerMatches ho hu) x o)
  · rw [hu]
    exact .inr ⟨rfl, hc⟩

theorem overlapAhead_congr {e : EngineId} {s t : State} (hs : callsAgree e s t) (h : overlapAhead e t) :
    overlapAhead e s := by
  obtain ⟨c, hc, hce, h⟩ := h
  obtain ⟨k, hk⟩ := List.getElem?_of_mem hc
  exact ⟨c, List.mem_of_getElem? ((hs k c hce).2 hk), hce, h⟩

/-- Under the invariant a channel's edge stops only for an overlapping call, also after the other channel's edge. -/
theorem channelEdge_stops_of_seenAlike {e : EngineId} {s u : State} (hi : s.Inv) (hs : seenAlike e s u) (x : Port) :
    stopsOnlyForOverlap e s (channelEdge e x u) := by
  obtain ⟨hr, _, ho⟩ := hi.1 e
  rcases channelEdge_stopsOnlyForOverlap (responseMatches_congr hs.1.symm hs.2.2.1.symm hr)
    (ownerMatches_congr hs ho) x with h | ⟨h, hc⟩
  · exact .inl h
  · exact .inr ⟨h, overlapAhead_congr hs.2.2.2 hc⟩

/-- Under the invariant a step gives a next state, or it is refused for an overlapping call that would begin. -/
theorem step_stopsOnlyForOverlap {s : State} (hi : s.Inv) : ∃ e, stopsOnlyForOverlap e s (step s) := by
  cases hr : s.edge.rst with
  | true => exact ⟨.enc, .inl ⟨_, step_of_rst hr⟩⟩
  | false =>
    have hstep : step s = andThen (channelEdge .enc s.edge.enc s.popEdge) (channelEdge .dec s.edge.dec) := by
      simp [step, clockEdge, hr]
    rw [hstep]
    have hpop := seenAlike_popEdge .enc s
    rcases channelEdge_stops_of_seenAlike hi hpop s.edge.enc with ⟨u, hu⟩ | ⟨hu, hc⟩
    · have hsu : seenAlike .dec s u := (seenAlike_popEdge .dec s).trans
        (channelEdge_seenAlike (by decide) (ownerMatches_congr hpop (hi.1 .enc).2.2) hu)
      rw [hu]
      exact ⟨.dec, channelEdge_stops_of_seenAlike hi hsu s.edge.dec⟩
    · rw [hu]
      exact ⟨.enc, .inr ⟨rfl, hc⟩⟩

/-- Settles O45: a step under the invariant is a next state or that one refusal, and the refusal needs an overlapping
call. -/
theorem stepStopsOnlyForOverlap : Obligations.StepStopsOnlyForOverlap := by
  intro s hi
  obtain ⟨e, ⟨t, ht⟩ | ⟨hr, c, hc, _, hs, ho⟩⟩ := step_stopsOnlyForOverlap hi
  · rw [ht]
    exact ⟨nofun, nofun, fun _ => ⟨t, rfl⟩⟩
  · rw [hr]
    refine ⟨nofun, fun r h => ?_, fun hn => ?_⟩
    · cases h
      exact ⟨rfl, c, hc, hs, ho⟩
    · rw [hn c hc] at ho
      cases ho

end Sys2Proof.Machine

/-! ## The decoder against the encoder and the opcode table (30_encoding.md R66 to R68, R80 to R83) -/

namespace Sys2Proof.Machine

theorem decode_commandWord_enc (n : Nat) (p : Payload) :
    decode (commandWord .enc n p) = decodeEnc { op := 1, cnt := BitVec.ofNat 3 n, rsv := 0, payload := p } := by
  simp [decode, commandWord, EngineId.opcode]

theorem decode_commandWord_dec (n : Nat) (p : Payload) :
    decode (commandWord .dec n p) = decodeDec { op := 2, cnt := BitVec.ofNat 3 n, rsv := 0, payload := p } := by
  simp [decode, commandWord, EngineId.opcode]

/-- Settles O1: the word's fields are those it was made of, and the lanes of its payload those the command names. -/
theorem decodeAfterEncodeIsIdentity : Obligations.DecodeAfterEncodeIsIdentity := by
  intro i
  cases i <;> simp [encode, decode_commandWord_enc, decode_commandWord_dec, decodeEnc, decodeDec]

theorem encode_injective {i j : Instr} (h : encode i = encode j) : i = j := by
  have hd := decodeAfterEncodeIsIdentity i
  rw [h, decodeAfterEncodeIsIdentity j] at hd
  cases hd
  rfl

/-! ### What a word decodes to -/

/-- The `n` input units of engine `e` in a payload, in lane order (30_encoding.md R67, R68). -/
def inputUnits (e : EngineId) (p : Payload) (n : Nat) : List Byte :=
  (List.range n).map fun k => lane p (inLane e + k)

/-- The fields of a command word of `i`: its engine's operation, no reserved bit, and as many units as `i` names. -/
def hasFieldsOf (i : Instr) (c : Command) : Prop :=
  c.op = i.engine.opcode ∧ c.rsv = 0 ∧ c.cnt.toNat = (operands i).length ∧
    operands i = inputUnits i.engine c.payload (operands i).length

theorem decodeEnc_hasFieldsOf {c : Command} {i : Instr} (hop : c.op = EngineId.enc.opcode)
    (h : decodeEnc c = .ok i) : hasFieldsOf i c := by
  unfold decodeEnc at h
  split at h
  · cases h
  · next hr =>
    split at h <;> cases h <;> exact ⟨hop, not_not.1 hr, ‹_›, rfl⟩

theorem decodeDec_hasFieldsOf {c : Command} {i : Instr} (hop : c.op = EngineId.dec.opcode)
    (h : decodeDec c = .ok i) : hasFieldsOf i c := by
  unfold decodeDec at h
  split at h
  · cases h
  · next hr =>
    split at h <;> cases h <;> exact ⟨hop, not_not.1 hr, ‹_›, rfl⟩

/-- A word decodes only to a command whose fields it has. -/
theorem decode_hasFieldsOf {w : Word} {i : Instr} (h : decode w = .ok i) : hasFieldsOf i (commandOf w) := by
  simp only [decode] at h
  split at h
  · next he => exact decodeEnc_hasFieldsOf he h
  · split at h
    · next hd => exact decodeDec_hasFieldsOf hd h
    · cases h

theorem length_operands_le (i : Instr) : (operands i).length ≤ i.engine.maxCount := by
  cases i <;> simp [operands, Instr.engine, EngineId.maxCount]

theorem inLane_add_length_operands_le (i : Instr) : inLane i.engine + (operands i).length ≤ 5 := by
  cases i <;> simp [operands, Instr.engine, inLane]

theorem decodeEnc_isOk {c : Command} (hr : c.rsv = 0) (hc : c.cnt.toNat ≤ 4) : ∃ i, decodeEnc c = .ok i := by
  rw [decodeEnc, if_neg (not_not.2 hr)]
  generalize c.cnt.toNat = n at hc
  interval_cases n <;> exact ⟨_, rfl⟩

theorem decodeDec_isOk {c : Command} (hr : c.rsv = 0) (hc : c.cnt.toNat ≤ 5) : ∃ i, decodeDec c = .ok i := by
  rw [decodeDec, if_neg (not_not.2 hr)]
  generalize c.cnt.toNat = n at hc
  interval_cases n <;> exact ⟨_, rfl⟩

theorem legalOn_iff_decode {e : EngineId} {w : Word} : legalOn e w ↔ ∃ i, decode w = .ok i ∧ i.engine = e := by
  constructor
  · rintro ⟨i, hi⟩
    have he := decodeFor_engine hi
    unfold decodeFor at hi
    split at hi
    · next j hj =>
      split at hi
      · cases hi
        exact ⟨i, hj, he⟩
      · cases hi
    · cases hi
  · rintro ⟨i, hd, rfl⟩
    exact ⟨i, decodeFor_of_decode hd⟩

/-- A word is legal on an engine exactly if none of the grounds of 30_encoding.md R80 holds of its fields. -/
theorem legalOn_iff_legalFor {e : EngineId} {w : Word} : legalOn e w ↔ (commandOf w).legalFor e = true := by
  rw [legalOn_iff_decode, legalFor_iff]
  constructor
  · rintro ⟨i, hd, rfl⟩
    obtain ⟨hop, hr, hc, _⟩ := decode_hasFieldsOf hd
    exact ⟨hop, hr, hc ▸ length_operands_le i⟩
  · rintro ⟨hop, hr, hc⟩
    cases e with
    | enc =>
      obtain ⟨i, hi⟩ := decodeEnc_isOk hr hc
      exact ⟨i, by simpa [decode, hop] using hi, decodeEnc_engine hi⟩
    | dec =>
      obtain ⟨i, hi⟩ := decodeDec_isOk hr hc
      exact ⟨i, by simpa [decode, hop, EngineId.opcode] using hi, decodeDec_engine hi⟩

/-! ### Words as fields and lanes -/

theorem extractLsb'_extractLsb' {m s n t len : Nat} (x : BitVec m) (h : t + len ≤ n) :
    (x.extractLsb' s n).extractLsb' t len = x.extractLsb' (s + t) len := by
  ext j hj
  simp [Nat.add_assoc, show t + j < n by omega]

theorem commandOf_and (w v : Word) :
    commandOf (w &&& v) =
      { op := (commandOf w).op &&& (commandOf v).op, cnt := (commandOf w).cnt &&& (commandOf v).cnt,
        rsv := (commandOf w).rsv &&& (commandOf v).rsv,
        payload := (commandOf w).payload &&& (commandOf v).payload } := by
  simp [commandOf, BitVec.extractLsb'_and]

/-- The assembler's word of a command is the one the stream framing builds of its operands. -/
theorem encode_eq_groupCommand (i : Instr) : encode i = groupCommand i.engine (operands i) := by
  cases i <;> simp [encode, groupCommand, operands, Instr.engine, inLane, orLanes, lanes, BitVec.or_assoc]

/-- All bits of bytes `[63:40]`, and of the lanes of a command's operands. -/
theorem usedMask_eq_wordOf (i : Instr) :
    usedMask i = wordOf
      { op := BitVec.allOnes 4, cnt := BitVec.allOnes 3, rsv := BitVec.allOnes 17,
        payload := orLanes (List.replicate (operands i).length (BitVec.allOnes 8)) (inLane i.engine) } := by
  cases i <;> simp [usedMask, operands, Instr.engine, inLane, orLanes, wordOf]

/-- Masking a payload with one byte in lane `Ll`. -/
theorem and_byteInLane {l : Nat} (h : l ≤ 4) (p : Payload) (b : Byte) :
    p &&& b.setWidth 40 <<< (8 * (4 - l)) = (lane p l &&& b).setWidth 40 <<< (8 * (4 - l)) := by
  ext j hj
  simp only [lane, BitVec.getElem_and, BitVec.getElem_shiftLeft, BitVec.getElem_setWidth, BitVec.getLsbD_and,
    BitVec.getLsbD_extractLsb']
  grind

/-- Masking `n` lanes out of a payload. -/
theorem and_lanesMask (p : Payload) {n l : Nat} (h : l + n ≤ 5) :
    p &&& orLanes (List.replicate n (BitVec.allOnes 8)) l = orLanes ((List.range n).map fun k => lane p (l + k)) l := by
  induction n generalizing l with
  | zero => simp [orLanes]
  | succ n ih =>
    rw [List.replicate_succ, List.range_succ_eq_map, List.map_cons, orLanes, orLanes, BitVec.and_or_distrib_left,
      and_byteInLane (by omega), BitVec.and_allOnes, ih (by omega)]
    simp [Function.comp_def, Nat.add_assoc, Nat.add_comm 1]

/-- Settles O2: what is left of the header is the header, what is left of the payload is the operands in
their lanes. -/
theorem encodeAfterDecodeKeepsUsedBits : Obligations.EncodeAfterDecodeKeepsUsedBits := by
  intro w i h
  obtain ⟨hop, hr, hc, hu⟩ := decode_hasFieldsOf h
  have hp : (commandOf w).payload &&&
      orLanes (List.replicate (operands i).length (BitVec.allOnes 8)) (inLane i.engine) =
        orLanes (operands i) (inLane i.engine) := by
    rw [and_lanesMask _ (inLane_add_length_operands_le i), ← inputUnits, ← hu]
  have hn : (commandOf w).cnt = BitVec.ofNat 3 (operands i).length := by
    rw [← hc, BitVec.ofNat_toNat, BitVec.setWidth_eq]
  calc
    encode i = wordOf { op := i.engine.opcode, cnt := BitVec.ofNat 3 (operands i).length, rsv := 0,
                        payload := orLanes (operands i) (inLane i.engine) } := encode_eq_groupCommand i
    _ = wordOf (commandOf (w &&& usedMask i)) := by
      rw [commandOf_and, usedMask_eq_wordOf, commandOf_wordOf]
      simp only [hop, hr, hn, hp, BitVec.and_allOnes]
    _ = w &&& usedMask i := wordOf_commandOf _

/-! ### The header, bits `[63:40]`, decides the row (30_encoding.md R82, R83) -/

/-- Words with the same header have the same operation, count and reserved bits. -/
theorem header_fields {w v : Word} (h : w.extractLsb' 40 24 = v.extractLsb' 40 24) :
    (commandOf w).op = (commandOf v).op ∧ (commandOf w).cnt = (commandOf v).cnt ∧
      (commandOf w).rsv = (commandOf v).rsv := by
  have field (start len : Nat) (hl : start + len ≤ 24) :
      w.extractLsb' (40 + start) len = v.extractLsb' (40 + start) len := by
    rw [← extractLsb'_extractLsb' _ hl, h, extractLsb'_extractLsb' _ hl]
  exact ⟨field 20 4 (by decide), field 17 3 (by decide), field 0 17 (by decide)⟩

theorem legalOn_congr {w v : Word} (h : w.extractLsb' 40 24 = v.extractLsb' 40 24) (e : EngineId) :
    legalOn e w ↔ legalOn e v := by
  obtain ⟨hop, hc, hr⟩ := header_fields h
  rw [legalOn_iff_legalFor, legalOn_iff_legalFor, legalFor_iff, legalFor_iff, hop, hc, hr]

/-- Masking a word with the mask of the rows leaves its header. -/
theorem header_and_rowMask (w : Word) : (w &&& rowMask).extractLsb' 40 24 = w.extractLsb' 40 24 := by
  rw [BitVec.extractLsb'_and, show rowMask.extractLsb' 40 24 = BitVec.allOnes 24 by simp [rowMask], BitVec.and_allOnes]

/-- A command reads the whole header. -/
theorem usedMask_and_rowMask (i : Instr) : usedMask i &&& rowMask = rowMask := by
  cases i <;> rw [usedMask, rowMask] <;> rfl

theorem header_statement (i : Instr) : Laws.Header.Statement i :=
  match i with
  | .enc0 => Laws.Header.enc0
  | .enc1 b0 => Laws.Header.enc1 b0
  | .enc2 b0 b1 => Laws.Header.enc2 b0 b1
  | .enc3 b0 b1 b2 => Laws.Header.enc3 b0 b1 b2
  | .enc4 b0 b1 b2 b3 => Laws.Header.enc4 b0 b1 b2 b3
  | .dec0 => Laws.Header.dec0
  | .dec1 c0 => Laws.Header.dec1 c0
  | .dec2 c0 c1 => Laws.Header.dec2 c0 c1
  | .dec3 c0 c1 c2 => Laws.Header.dec3 c0 c1 c2
  | .dec4 c0 c1 c2 c3 => Laws.Header.dec4 c0 c1 c2 c3
  | .dec5 c0 c1 c2 c3 c4 => Laws.Header.dec5 c0 c1 c2 c3 c4

theorem mask_of_mem_opcodeTable : ∀ r ∈ opcodeTable, r.mask = rowMask := by decide

theorem pattern_injOn_opcodeTable : ∀ r ∈ opcodeTable, ∀ q ∈ opcodeTable, q.pattern = r.pattern → q = r := by decide

theorem pattern_legalFor_of_mem_opcodeTable :
    ∀ r ∈ opcodeTable, (commandOf r.pattern).legalFor r.engine = true := by decide

theorem matches_iff {r : OpcodeRow} (hr : r ∈ opcodeTable) (w : Word) :
    r.matches w = true ↔ w &&& rowMask = r.pattern := by
  rw [OpcodeRow.matches, mask_of_mem_opcodeTable r hr, beq_iff_eq]

/-- A word matches at most one row. -/
theorem matches_unique {r q : OpcodeRow} (hr : r ∈ opcodeTable) (hq : q ∈ opcodeTable) {w : Word}
    (hrw : r.matches w = true) (hqw : q.matches w = true) : q = r := by
  rw [matches_iff hr] at hrw
  rw [matches_iff hq] at hqw
  exact pattern_injOn_opcodeTable r hr q hq (hqw.symm.trans hrw)

/-- A word that matches a row is legal on the row's engine. -/
theorem legalOn_of_matches {r : OpcodeRow} (hr : r ∈ opcodeTable) {w : Word} (hw : r.matches w = true) :
    legalOn r.engine w := by
  rw [matches_iff hr] at hw
  refine (legalOn_congr (header_and_rowMask w) _).1 ?_
  rw [hw, legalOn_iff_legalFor]
  exact pattern_legalFor_of_mem_opcodeTable r hr

/-- A word that decodes to a command matches the command's row. -/
theorem decode_matches {w : Word} {i : Instr} (h : decode w = .ok i) :
    ∃ r ∈ opcodeTable, r.mnemonic = i.mnemonic ∧ r.engine = i.engine ∧ r.matches w = true := by
  obtain ⟨r, hr, hm, he, hi⟩ := header_statement i
  refine ⟨r, hr, hm, he, ?_⟩
  rw [matches_iff hr] at hi ⊢
  rw [← hi, encodeAfterDecodeKeepsUsedBits w i h, BitVec.and_assoc, usedMask_and_rowMask]

/-- A word that decodes to a command is legal on the command's engine only. -/
theorem legalOn_iff_of_decode {w : Word} {i : Instr} (h : decode w = .ok i) (e : EngineId) :
    legalOn e w ↔ e = i.engine := by
  rw [legalOn_iff_decode]
  constructor
  · rintro ⟨j, hj, he⟩
    rw [h] at hj
    cases hj
    exact he.symm
  · rintro rfl
    exact ⟨i, h, rfl⟩

/-- Settles O3: a word that decodes to a command matches that command's row, and one that matches a row decodes. -/
theorem everyWordMatchesOneRowOrNone : Obligations.EveryWordMatchesOneRowOrNone := by
  refine ⟨fun w => ?_, fun e w v h => legalOn_congr h e⟩
  by_cases hd : ∃ i, decode w = .ok i
  · obtain ⟨i, hi⟩ := hd
    obtain ⟨r, hr, hm, he, hw⟩ := decode_matches hi
    refine .inl ⟨r, hr, hw, fun q hq hqw => matches_unique hr hq hw hqw, fun e => ?_, i, hi, hm.symm, he.symm⟩
    rw [he]
    exact legalOn_iff_of_decode hi e
  · have hn (e : EngineId) : ¬ legalOn e w := by
      rw [legalOn_iff_decode]
      rintro ⟨i, hi, _⟩
      exact hd ⟨i, hi⟩
    refine .inr ⟨fun r hr => ?_, hn⟩
    rw [← Bool.not_eq_true]
    exact fun hw => hn r.engine (legalOn_of_matches hr hw)

/-! ### Illegal words (30_encoding.md R80) -/

theorem not_legalOn_iff {e : EngineId} {w : Word} :
    ¬ legalOn e w ↔
      w.extractLsb' 60 4 ≠ e.opcode ∨ w.extractLsb' 40 17 ≠ 0 ∨ e.maxCount < (w.extractLsb' 57 3).toNat := by
  rw [legalOn_iff_legalFor, legalFor_iff, not_and_or, not_and_or, Nat.not_le]
  rfl

/-- EXECUTE of an illegal word answers ILLEGAL_COMMAND and nothing else. -/
theorem execute_of_not_legalOn {e : EngineId} {s : State} (h : ¬ legalOn e (s.engine e).cmd) :
    execute e s = .next (answered e (raise .illegalCommand 0) s) := by
  unfold execute
  cases hd : decodeFor e (s.engine e).cmd with
  | ok i => exact absurd ⟨i, hd⟩ h
  | error x => exact respond_eq_answered _ _ s

/-- Settles O4: the two conditions are one for any engine, and an illegal word reaches the one illegal answer. -/
theorem illegalWordsAreAnswered : Obligations.IllegalWordsAreAnswered :=
  ⟨fun _ => not_legalOn_iff, fun _ => not_legalOn_iff, fun _ _ h => execute_of_not_legalOn h⟩

/-! ### Unused lanes (30_encoding.md R81) -/

/-- The used bits are fixed by the engine and the number of operands. -/
theorem usedMask_congr {i j : Instr} (he : i.engine = j.engine) (hn : (operands i).length = (operands j).length) :
    usedMask i = usedMask j := by
  rw [usedMask_eq_wordOf, usedMask_eq_wordOf, he, hn]

/-- A word with the used bits of a word of a command decodes to that command. -/
theorem decode_of_usedBits {w v : Word} {i : Instr} (h : decode w = .ok i)
    (hm : w &&& usedMask i = v &&& usedMask i) : decode v = .ok i := by
  have hwv : w &&& rowMask = v &&& rowMask := by
    rw [← usedMask_and_rowMask i, ← BitVec.and_assoc, hm, BitVec.and_assoc]
  have hh : w.extractLsb' 40 24 = v.extractLsb' 40 24 := by
    rw [← header_and_rowMask w, hwv, header_and_rowMask]
  obtain ⟨j, hj, hje⟩ := legalOn_iff_decode.1 ((legalOn_congr hh i.engine).1 ((legalOn_iff_of_decode h _).2 rfl))
  obtain ⟨_, _, hwn, _⟩ := decode_hasFieldsOf h
  obtain ⟨_, _, hvn, _⟩ := decode_hasFieldsOf hj
  have hn : (operands j).length = (operands i).length := by rw [← hvn, ← hwn, (header_fields hh).2.1]
  have hji : encode j = encode i := by
    rw [encodeAfterDecodeKeepsUsedBits v j hj, usedMask_congr hje hn, ← hm, encodeAfterDecodeKeepsUsedBits w i h]
  rw [hj, encode_injective hji]

end Sys2Proof.Machine

/-! ## Words of one command get one response (30_encoding.md R81; 41_encoder.md R99; 42_decoder.md R119) -/

namespace Sys2Proof.Machine

/-- Lane `Lk` of a command word's payload as the response functions cut it out of the word. -/
theorem lane_commandOf (w : Word) {k : Nat} (h : k ≤ 4) :
    lane (commandOf w).payload k = w.extractLsb' (32 - 8 * k) 8 := by
  rw [lane, commandOf, extractLsb'_extractLsb' w (by omega)]
  congr 1
  omega

/-- Words with the same operation, count and reserved bits, and the same units in the lanes that engine `e` reads. -/
def sameCommand (e : EngineId) (w v : Word) : Prop :=
  w.extractLsb' 60 4 = v.extractLsb' 60 4 ∧ w.extractLsb' 57 3 = v.extractLsb' 57 3 ∧
    w.extractLsb' 40 17 = v.extractLsb' 40 17 ∧
    ∀ k < (v.extractLsb' 57 3).toNat,
      lane (commandOf w).payload (inLane e + k) = lane (commandOf v).payload (inLane e + k)

/-- The accumulator of `n` bytes reads the lanes `L1` to `Ln` (41_encoder.md R99). -/
theorem encAcc_congr {w v : Word} {n : Nat} (hn : n ≤ 4)
    (h : ∀ k < n, lane (commandOf w).payload (1 + k) = lane (commandOf v).payload (1 + k)) :
    encAcc w n = encAcc v n := by
  ext j hj
  by_cases hlow : j < 8 * (4 - n)
  · simp [encAcc, hlow]
  · have hk := congrArg (·.getLsbD (j % 8)) (h (3 - j / 8) (by omega))
    simp only [lane_commandOf _ (show 1 + (3 - j / 8) ≤ 4 by omega), BitVec.getLsbD_extractLsb',
      show 32 - 8 * (1 + (3 - j / 8)) + j % 8 = j by omega] at hk
    have hj8 : j % 8 < 8 := by omega
    simpa [encAcc, hlow, hj8, hj, Nat.add_sub_of_le (Nat.le_of_not_lt hlow)] using hk

/-- `F_ENC` reads the fields of a word and the bytes its count covers. -/
theorem fEnc_congr {w v : Word} (h : sameCommand .enc w v) : fEnc w = fEnc v := by
  obtain ⟨hop, hc, hr, hl⟩ := h
  unfold fEnc
  rw [hop, hc, hr]
  dsimp only
  split
  · rfl
  · rw [encAcc_congr (by omega) hl]

/-- `F_DEC` reads the fields of a word and the characters its count covers. -/
theorem fDec_congr {w v : Word} (h : sameCommand .dec w v) (policy : LoneTailPolicy) :
    fDec policy w = fDec policy v := by
  obtain ⟨hop, hc, hr, hl⟩ := h
  unfold fDec
  rw [hop, hc, hr]
  generalize (v.extractLsb' 57 3).toNat = m at hl
  generalize hcw : (fun k => (w.extractLsb' (32 - 8 * k) 8).toNat) = cw
  generalize hcv : (fun k => (v.extractLsb' (32 - 8 * k) 8).toNat) = cv
  dsimp only
  split
  · rfl
  split
  · rfl
  have hchar (k : Nat) (hk : k < m) : cw k = cv k := by
    rw [← hcw, ← hcv]
    dsimp only
    rw [← lane_commandOf w (by omega), ← lane_commandOf v (by omega)]
    simpa [inLane] using congrArg BitVec.toNat (hl k hk)
  have hdigit (k : Nat) : (if k < m then cw k - 33 else 84) = if k < m then cv k - 33 else 84 := by
    split
    · next hk => rw [hchar k hk]
    · rfl
  have hfind : (List.range m).find? (fun k => ¬ (33 ≤ cw k ∧ cw k ≤ 117)) =
      (List.range m).find? (fun k => ¬ (33 ≤ cv k ∧ cv k ≤ 117)) :=
    List.find?_congr fun k hk => by rw [hchar k (List.mem_range.1 hk)]
  simp only [hchar 0 (by omega), hdigit, hfind]

theorem engineResponse_congr {e : EngineId} {w v : Word} (h : sameCommand e w v) (p : Params) :
    engineResponse p e w = engineResponse p e v := by
  cases e with
  | enc => exact fEnc_congr h
  | dec => exact fDec_congr h p.loneTail

/-- An engine answers ILLEGAL_COMMAND to a word that is not legal on it (30_encoding.md R80). -/
theorem engineResponse_of_not_legalOn {e : EngineId} {w : Word} (h : ¬ legalOn e w) (p : Params) :
    engineResponse p e w = raise .illegalCommand 0 := by
  rw [not_legalOn_iff] at h
  cases e with
  | enc => exact if_pos h
  | dec => exact if_pos h

theorem sameCommand_of_decode {w v : Word} {i : Instr} (hw : decode w = .ok i) (hv : decode v = .ok i) :
    sameCommand i.engine w v := by
  obtain ⟨hwop, hwr, hwn, hwu⟩ := decode_hasFieldsOf hw
  obtain ⟨hvop, hvr, hvn, hvu⟩ := decode_hasFieldsOf hv
  refine ⟨hwop.trans hvop.symm, BitVec.eq_of_toNat_eq (hwn.trans hvn.symm), hwr.trans hvr.symm, fun k hk => ?_⟩
  have hunits := hwu.symm.trans hvu
  rw [← hvn, inputUnits, inputUnits, List.map_inj_left] at hunits
  exact hunits k (List.mem_range.2 hk)

/-- Settles O6: the other word decodes alike, so on the command's engine the response functions read the same fields
and units, and on the other engine both words are illegal. -/
theorem unusedLanesAreIgnored : Obligations.UnusedLanesAreIgnored := by
  intro p w v i hw hm
  have hv := decode_of_usedBits hw hm
  refine ⟨hv, fun e => ?_⟩
  by_cases he : e = i.engine
  · subst he
    exact engineResponse_congr (sameCommand_of_decode hw hv) p
  · rw [engineResponse_of_not_legalOn (mt (legalOn_iff_of_decode hw e).1 he),
      engineResponse_of_not_legalOn (mt (legalOn_iff_of_decode hv e).1 he)]

/-! ## The response word (30_encoding.md R72) -/

/-- A response word is the sum of its fields, each at its place. -/
theorem toNat_eq_responseFields (r : Word) :
    r.toNat = (rspStatus r).toNat * 2 ^ 61 + rspOcnt r * 2 ^ 58 + rspEpos r * 2 ^ 55 + (rspZf r).toNat * 2 ^ 54 +
      (rspReserved r).toNat * 2 ^ 40 + (rspPayload r).toNat := by
  have hlt := r.isLt
  simp only [rspStatus, rspOcnt, rspEpos, rspZf, rspReserved, rspPayload, BitVec.extractLsb'_toNat,
    Nat.shiftRight_eq_div_pow, BitVec.getLsbD, Nat.toNat_testBit]
  omega

/-- Settles O7: the fields of a packed response read back, and they make up the word. -/
theorem responseFieldsReadBack : Obligations.ResponseFieldsReadBack := by
  intro st ocnt epos zf payload ho he r
  have hocnt : rspOcnt r = ocnt := by rw [rspOcnt_pack, Nat.mod_eq_of_lt ho]
  have hepos : rspEpos r = epos := by rw [rspEpos_pack, Nat.mod_eq_of_lt he]
  refine ⟨rspStatus_pack .., hocnt, hepos, rspZf_pack .., rspReserved_pack .., rspPayload_pack .., ?_⟩
  rw [toNat_eq_responseFields, hocnt, hepos, rspStatus_pack, rspZf_pack, rspReserved_pack, rspPayload_pack]
  simp

/-! ## Words of the spec's vectors (95_test_vectors.md) -/

/-- Settles O5: the decoder is evaluated on each fixed word. -/
theorem specWordsDecode : Obligations.SpecWordsDecode := by
  unfold Obligations.SpecWordsDecode
  decide

end Sys2Proof.Machine

/-! ## The assembler reads what the disassembler prints (30_encoding.md R85) -/

namespace Sys2Proof.Machine

/-! ### Bytes in hexadecimal -/

theorem hexValue_hexLower : ∀ n < 16, hexValue (hexLower n) = some n := by decide

theorem hexValue_hexUpper : ∀ n < 16, hexValue (hexUpper n) = some n := by decide

/-- The two digits of a byte read back as the byte. -/
theorem hexByte_of_digits {h l : Char} {b : Byte} (hh : hexValue h = some (b.toNat / 16))
    (hl : hexValue l = some (b.toNat % 16)) : hexByte h l = some b := by
  rw [hexByte, hh, hl]
  dsimp only
  rw [Nat.div_add_mod, BitVec.ofNat_toNat, BitVec.setWidth_eq]

theorem hexByte_hexLower (b : Byte) : hexByte (hexLower (b.toNat / 16)) (hexLower (b.toNat % 16)) = some b :=
  hexByte_of_digits (hexValue_hexLower _ (by omega)) (hexValue_hexLower _ (by omega))

theorem hexByte_hexUpper (b : Byte) : hexByte (hexUpper (b.toNat / 16)) (hexUpper (b.toNat % 16)) = some b :=
  hexByte_of_digits (hexValue_hexUpper _ (by omega)) (hexValue_hexUpper _ (by omega))

theorem parseHex_printHex (bs : List Byte) : parseHex (printHex bs) = some bs := by
  induction bs with
  | nil => rfl
  | cons b bs ih => rw [printHex, parseHex, hexByte_hexLower, ih]

theorem parseHex_printHexUpper (bs : List Byte) : parseHex (printHexUpper bs) = some bs := by
  induction bs with
  | nil => rfl
  | cons b bs ih => rw [printHexUpper, parseHex, hexByte_hexUpper, ih]

theorem wordOfBytes_bytesOfWord (w : Word) : wordOfBytes (bytesOfWord w) = some w := by
  rw [bytesOfWord, wordOfBytes, Option.some_inj]
  ext i h
  simp only [BitVec.getElem_or, BitVec.getElem_shiftLeft, BitVec.getElem_setWidth, BitVec.getLsbD_extractLsb']
  grind

/-! ### Characters in quotes -/

theorem parseQuoted_escape (b : Byte) (t : List Char) :
    parseQuoted ('\\' :: 'x' :: hexUpper (b.toNat / 16) :: hexUpper (b.toNat % 16) :: t) =
      (parseQuoted t).map (b :: ·) := by
  rw [parseQuoted, hexByte_hexUpper]
  cases parseQuoted t <;> rfl

theorem parseQuoted_plain {c : Char} (hq : c ≠ '"') (hb : c ≠ '\\') (hc : c.toNat < 256) (t : List Char) :
    parseQuoted (c :: t) = (parseQuoted t).map (BitVec.ofNat 8 c.toNat :: ·) := by
  have hp : ¬ (c = '"' ∨ c = '\\' ∨ 256 ≤ c.toNat) := by
    rintro (h | h | h)
    · exact hq h
    · exact hb h
    · omega
  rw [parseQuoted, if_neg hp]
  · exact fun h => absurd h hq
  · exact fun _ _ _ h => absurd h hb
  · exact fun _ h => absurd h hb
  · exact fun _ h => absurd h hb

/-- A printed character reads back as its byte. -/
theorem parseQuoted_printChar (b : Byte) (t : List Char) :
    parseQuoted (printChar b ++ t) = (parseQuoted t).map (b :: ·) := by
  have hb : b = BitVec.ofNat 8 b.toNat := by simp
  unfold printChar
  split
  · next h => rw [hb, h]; rfl
  split
  · next h => rw [hb, h]; rfl
  split
  · next hq hs h =>
    have hn : (Char.ofNat b.toNat).toNat = b.toNat := by
      rw [Char.toNat_ofNat, if_pos (.inl (by omega))]
    have hne {c : Char} (hc : b.toNat ≠ c.toNat) : Char.ofNat b.toNat ≠ c := fun h => hc (by rw [← h, hn])
    rw [List.singleton_append, parseQuoted_plain (hne hq) (hne hs) (by omega), hn, ← hb]
  · exact parseQuoted_escape b t

theorem parseQuoted_printChars (bs : List Byte) : parseQuoted (printChars bs ++ ['"']) = some bs := by
  induction bs with
  | nil => rfl
  | cons b bs ih => rw [printChars, List.append_assoc, parseQuoted_printChar, ih, Option.map_some]

/-! ### Lines -/

theorem assemble_encLine {n : Nat} (h : n ≤ 4) (t : List Char) :
    assemble ('e' :: 'n' :: 'c' :: '.' :: Char.ofNat (48 + n) :: t) = assembleEnc n t := by
  interval_cases n <;> simp [assemble, expandPseudo, assembleBase, afterPrefix]

theorem assemble_decLine {n : Nat} (h : n ≤ 5) (t : List Char) :
    assemble ('d' :: 'e' :: 'c' :: '.' :: Char.ofNat (48 + n) :: t) = assembleDec n t := by
  interval_cases n <;> simp [assemble, expandPseudo, assembleBase, afterPrefix]

theorem assemble_wordLine (w : Word) :
    assemble (['.', 'w', 'o', 'r', 'd', ' ', '0', 'x'] ++ printHexUpper (bytesOfWord w)) = some w := by
  simp [assemble, expandPseudo, assembleBase, afterPrefix, parseHex_printHexUpper, wordOfBytes_bytesOfWord]

theorem assembleEnc_printHex (us : List Byte) :
    assembleEnc us.length (if us = [] then [] else ' ' :: printHex us) = some (groupCommand .enc us) := by
  cases us with
  | nil => rfl
  | cons u us => simp [assembleEnc, parseHex_printHex, unitsWord]

theorem assembleDec_printChars (us : List Byte) :
    assembleDec us.length (if us = [] then [] else [' ', '"'] ++ printChars us ++ ['"']) =
      some (groupCommand .dec us) := by
  cases us with
  | nil => rfl
  | cons u us => simp [assembleDec, parseQuoted_printChars, unitsWord]

/-- The text of a command assembles to its word. -/
theorem assemble_printInstr (i : Instr) : assemble (printInstr i) = some (encode i) := by
  have hn := length_operands_le i
  rw [encode_eq_groupCommand, printInstr]
  cases he : i.engine with
  | enc =>
    rw [he] at hn
    exact (assemble_encLine hn _).trans (assembleEnc_printHex _)
  | dec =>
    rw [he] at hn
    exact (assemble_decLine hn _).trans (assembleDec_printChars _)

/-- Settles O59: a legal word's line is that of its command, an illegal word's line holds its eight bytes. -/
theorem assembleAfterDisassemble : Obligations.AssembleAfterDisassemble := by
  refine ⟨fun w i h => ?_, fun w x h => ?_⟩
  · rw [disassemble, h]
    exact assemble_printInstr i
  · rw [disassemble, h]
    exact assemble_wordLine w

/-- Settles O60: each line is evaluated, the words by the assembler, the commands by the decoder. -/
theorem pseudoInstructionsExpand : Obligations.PseudoInstructionsExpand := by
  unfold Obligations.PseudoInstructionsExpand
  decide

end Sys2Proof.Machine

/-! ## The encoder's commands read their bytes out of the payload (30_encoding.md R67, R82) -/

namespace Sys2Proof.Machine

/-- A word with the header of `n` units for engine `e` has the header's fields and its own payload. -/
theorem commandOf_of_header {w : Word} {e : EngineId} {n : Nat} (h : w &&& rowMask = commandWord e n 0) :
    commandOf w = { op := e.opcode, cnt := BitVec.ofNat 3 n, rsv := 0, payload := (commandOf w).payload } := by
  have hw : w.extractLsb' 40 24 = (commandWord e n 0).extractLsb' 40 24 := by rw [← h, header_and_rowMask]
  have hf := header_fields hw
  rw [commandWord, commandOf_wordOf] at hf
  obtain ⟨hop, hcnt, hrsv⟩ := hf
  dsimp only at hop hcnt hrsv
  rw [← hop, ← hcnt, ← hrsv]

/-- A word with the header of `n` bytes for ENC decodes to the ENC command of its payload. -/
theorem decode_of_encHeader {w : Word} {n : Nat} (h : w &&& rowMask = commandWord .enc n 0) :
    decode w = decodeEnc { op := 1, cnt := BitVec.ofNat 3 n, rsv := 0, payload := (commandOf w).payload } := by
  rw [decode, commandOf_of_header h]
  rfl

/-! ## The radix-85 digits (41_encoder.md R100, R107) -/

theorem digit_zero (acc : Acc) : digit acc 0 = acc.toNat / 85 ^ 4 := by
  have := acc.isLt
  unfold digit
  omega

theorem digit_zero_le (acc : Acc) : digit acc 0 ≤ 82 := by
  have := acc.isLt
  rw [digit_zero]
  omega

theorem digit_le (acc : Acc) (i : Nat) : digit acc i ≤ 84 :=
  Nat.le_of_lt_succ (Nat.mod_lt _ (by decide))

/-- The digits weighted by the powers of 85 make up the accumulator. -/
theorem sum_digits (acc : Acc) :
    digit acc 0 * 85 ^ 4 + digit acc 1 * 85 ^ 3 + digit acc 2 * 85 ^ 2 + digit acc 3 * 85 + digit acc 4 =
      acc.toNat := by
  rw [digit_zero]
  unfold digit
  omega

@[simp] theorem toNat_digitChar (acc : Acc) (i : Nat) : (digitChar acc i).toNat = digit acc i + 33 := by
  have := digit_le acc i
  rw [digitChar, BitVec.toNat_ofNat]
  omega

@[simp] theorem isDigit_digitChar (acc : Acc) (i : Nat) : isDigit (digitChar acc i) = true := by
  have := digit_le acc i
  simp only [isDigit, toNat_digitChar, Bool.and_eq_true, decide_eq_true_eq]
  omega

/-- A digit character, as a lane's worth of a payload. -/
theorem setWidth_digitChar (acc : Acc) (i : Nat) :
    (digitChar acc i).setWidth 40 = BitVec.ofNat 40 (digit acc i + 33) := by
  rw [← toNat_digitChar, BitVec.ofNat_toNat]

/-- The shortcut character is no digit (30_encoding.md R79). -/
theorem ne_shortcutChar_of_isDigit {c : Byte} (h : isDigit c = true) : c ≠ shortcutChar := by
  rintro rfl
  cases h

/-- Settles O14: by the arithmetic of the quotients, digit by digit. -/
theorem encoderDigitsAreExact : Obligations.EncoderDigitsAreExact := by
  intro acc
  refine ⟨digit_zero acc, digit_zero_le acc, fun i _ => digit_le acc i, sum_digits acc, ?_,
    fun i _ => ⟨toNat_digitChar acc i, isDigit_digitChar acc i⟩⟩
  rw [toNat_digitChar]
  exact Nat.add_le_add_right (digit_zero_le acc) 33

/-! ## What the encoder's commands answer (41_encoder.md R96, R101 to R106) -/

/-- The characters of a digit group one after another from lane `L0` on, as `F_ENC` writes them. -/
theorem encLanes_eq_orLanes (acc : Acc) {n : Nat} (h : n ≤ 4) :
    encLanes acc n = orLanes ((List.range (n + 1)).map (digitChar acc)) 0 := by
  interval_cases n <;> simp [encLanes, lanes, orLanes, List.range_succ, BitVec.or_assoc]

/-- The lane of the `k`-th character of a digit group of `n` bytes, as 41_encoder.md R103 to R106 write it. -/
def charLane (acc : Acc) (n k : Nat) : Payload :=
  if k ≤ n then BitVec.ofNat 40 (acc.toNat / 85 ^ (4 - k) % 85 + 33) <<< (8 * (4 - k)) else 0

theorem encLanes_eq_charLanes (acc : Acc) (n : Nat) :
    encLanes acc n =
      charLane acc n 0 ||| charLane acc n 1 ||| charLane acc n 2 ||| charLane acc n 3 ||| charLane acc n 4 := by
  have hlane (k : Nat) :
      (if k ≤ n then digitChar acc k else 0).setWidth 40 <<< (8 * (4 - k)) = charLane acc n k := by
    unfold charLane
    split
    · rw [setWidth_digitChar, digit]
    · simp
  rw [← hlane 0, ← hlane 1, ← hlane 2, ← hlane 3, ← hlane 4, encLanes, lanes, Nat.sub_self, Nat.mul_zero,
    BitVec.shiftLeft_zero]

/-! One equation for each command: what it computes is a group's answer. -/

theorem exec_enc0 (s : State) : exec .enc0 s = .next (answered .enc (pack .ok 0 0 false 0) s) := rfl
theorem exec_enc1 (b0 : Byte) (s : State) :
    exec (.enc1 b0) s = .next (answered .enc (encGroup (accOf b0 0 0 0) 1) s) := rfl
theorem exec_enc2 (b0 b1 : Byte) (s : State) :
    exec (.enc2 b0 b1) s = .next (answered .enc (encGroup (accOf b0 b1 0 0) 2) s) := rfl
theorem exec_enc3 (b0 b1 b2 : Byte) (s : State) :
    exec (.enc3 b0 b1 b2) s = .next (answered .enc (encGroup (accOf b0 b1 b2 0) 3) s) := rfl
theorem exec_enc4 (b0 b1 b2 b3 : Byte) (s : State) :
    exec (.enc4 b0 b1 b2 b3) s = .next (answered .enc
      (if accOf b0 b1 b2 b3 = 0 then encShortcut else encGroup (accOf b0 b1 b2 b3) 4) s) := rfl

theorem encShortcut_eq : encShortcut = pack .ok 1 0 true ((0x7A : Payload) <<< 32) := by decide

theorem accOf_eq_zero_iff (b0 b1 b2 b3 : Byte) :
    accOf b0 b1 b2 b3 = 0 ↔ b0.toNat * 2 ^ 24 + b1.toNat * 2 ^ 16 + b2.toNat * 2 ^ 8 + b3.toNat = 0 := by
  rw [← toNat_accOf, ← BitVec.toNat_inj]
  rfl

/-! ### A larger accumulator gives a larger response -/

/-- The number that the characters of the `n + 1` digits of a quotient make in base 256 (30_encoding.md R79). -/
def charsOfQuotient : Nat → Nat → Nat
  | 0, q => q + 33
  | n + 1, q => 256 * charsOfQuotient n (q / 85) + (q % 85 + 33)

theorem charsOfQuotient_strictMono (n : Nat) : StrictMono (charsOfQuotient n) := by
  induction n with
  | zero => exact fun _ _ h => Nat.add_lt_add_right h 33
  | succ n ih =>
    intro q r h
    unfold charsOfQuotient
    rcases (Nat.div_le_div_right (c := 85) h.le).lt_or_eq with hlt | heq
    · have := ih hlt
      omega
    · rw [heq]
      omega

theorem toNat_lanes (a b c d e : Byte) :
    (lanes a b c d e).toNat =
      a.toNat * 2 ^ 32 + b.toNat * 2 ^ 24 + c.toNat * 2 ^ 16 + d.toNat * 2 ^ 8 + e.toNat := by
  have h : lanes a b c d e = a ++ accOf b c d e := by
    ext i hi
    simp [lanes, accOf]
    grind
  rw [h, BitVec.toNat_append, ← Nat.shiftLeft_add_eq_or_of_lt (accOf b c d e).isLt, Nat.shiftLeft_eq, toNat_accOf]
  omega

/-- The first `n + 1` characters of an accumulator are those of its quotient by `85^(4−n)`. -/
theorem toNat_encLanes (acc : Acc) {n : Nat} (h : n ≤ 4) :
    (encLanes acc n).toNat = charsOfQuotient n (acc.toNat / 85 ^ (4 - n)) * 256 ^ (4 - n) := by
  have h0 := digit_zero acc
  unfold digit at h0
  interval_cases n <;> simp [encLanes, toNat_lanes, charsOfQuotient, digit, Nat.div_div_eq_div_mul] <;> omega

theorem toNat_encGroup_le {acc acc' : Acc} {n : Nat} (hn : n ≤ 4) (h : acc.toNat ≤ acc'.toNat) :
    (encGroup acc n).toNat ≤ (encGroup acc' n).toNat := by
  have hp : (encLanes acc n).toNat ≤ (encLanes acc' n).toNat := by
    rw [toNat_encLanes acc hn, toNat_encLanes acc' hn]
    exact Nat.mul_le_mul_right _ ((charsOfQuotient_strictMono n).monotone (Nat.div_le_div_right h))
  rw [toNat_eq_responseFields, toNat_eq_responseFields (encGroup acc' n)]
  simpa [encGroup] using hp

/-! ### The commands one by one -/

/-- Settles O9: the header is all that is read, and the answer is the empty response. -/
theorem enc0AnswersNothing : Obligations.Enc0AnswersNothing := by
  refine ⟨fun w h => ?_, exec_enc0, by decide⟩
  exact decode_of_encHeader (n := 0) (h.trans (by decide))

/-- Settles O10: the answer is a digit group of one byte, and a larger byte gives a larger response; the fixed bytes are
evaluated. -/
theorem enc1AnswersTwoCharacters : Obligations.Enc1AnswersTwoCharacters := by
  refine ⟨fun w h => ?_, fun b0 s => ?_, fun _ => rfl, fun _ => rfl, fun b0 s t h => ?_, fun _ => rfl⟩
  · simpa [decodeEnc, lane_commandOf] using decode_of_encHeader (n := 1) (h.trans (by decide))
  · simp [exec_enc1, encGroup, encLanes_eq_charLanes, charLane, toNat_accOf]
  · have hacc : (accOf b0 0 0 0).toNat ≤ (accOf 0xFF 0 0 0).toNat := by
      have hb := b0.isLt
      simp [toNat_accOf]
      omega
    rw [exec_enc1] at h
    cases h
    exact (toNat_encGroup_le (by decide) hacc).trans (by decide)

/-- Settles O11: the answer is a digit group of two bytes; the fixed bytes are evaluated. -/
theorem enc2AnswersThreeCharacters : Obligations.Enc2AnswersThreeCharacters := by
  refine ⟨fun w h => ?_, fun b0 b1 s => ?_, fun _ => rfl, fun _ => rfl, fun _ => rfl⟩
  · simpa [decodeEnc, lane_commandOf] using decode_of_encHeader (n := 2) (h.trans (by decide))
  · simp [exec_enc2, encGroup, encLanes_eq_charLanes, charLane, toNat_accOf]

/-- Settles O12: the answer is a digit group of three bytes; the fixed bytes are evaluated. -/
theorem enc3AnswersFourCharacters : Obligations.Enc3AnswersFourCharacters := by
  refine ⟨fun w h => ?_, fun b0 b1 b2 s => ?_, fun _ => rfl, fun _ => rfl, fun _ => rfl⟩
  · simpa [decodeEnc, lane_commandOf] using decode_of_encHeader (n := 3) (h.trans (by decide))
  · simp [exec_enc3, encGroup, encLanes_eq_charLanes, charLane, toNat_accOf]

/-- Settles O13: the answer is the shortcut or a digit group of four bytes, which lies between those of the accumulators
1 and `0xFFFFFFFF`; the fixed bytes are evaluated. -/
theorem enc4AnswersShortcutOrFiveCharacters : Obligations.Enc4AnswersShortcutOrFiveCharacters := by
  refine ⟨fun w h => ?_, fun b0 b1 b2 b3 s => ?_, fun _ => rfl, fun _ => rfl, fun _ => rfl,
    fun b0 b1 b2 b3 s t h hz => ?_, fun _ => rfl⟩
  · simpa [decodeEnc, lane_commandOf] using decode_of_encHeader (n := 4) (h.trans (by decide))
  · intro acc e
    rw [exec_enc4]
    by_cases h0 : acc = 0
    · rw [if_pos ((accOf_eq_zero_iff ..).2 h0), if_pos h0, encShortcut_eq]
    · rw [if_neg (mt (accOf_eq_zero_iff ..).1 h0), if_neg h0]
      simp [acc, e, encGroup, encLanes_eq_charLanes, charLane, toNat_accOf]
  · rw [exec_enc4] at h
    by_cases h0 : accOf b0 b1 b2 b3 = 0
    · rw [if_pos h0] at h
      cases h
      exact absurd hz (show rspZf encShortcut ≠ false by decide)
    · rw [if_neg h0] at h
      cases h
      have hpos : 0 < (accOf b0 b1 b2 b3).toNat := Nat.pos_of_ne_zero fun h => h0 (BitVec.eq_of_toNat_eq h)
      exact ⟨Nat.le_trans (by decide) (toNat_encGroup_le (acc := 1) (by decide) hpos),
        (toNat_encGroup_le (acc' := 0xFFFFFFFF) (by decide) (Nat.le_pred_of_lt (BitVec.isLt _))).trans (by decide)⟩

/-! ## The decoder and the five meanings together are `F_ENC` (41_encoder.md R96, R99) -/

/-- The answer to `n` bytes with this accumulator. -/
def encAnswer (acc : Acc) (n : Nat) : Word :=
  if n = 0 then pack .ok 0 0 false 0 else if n = 4 ∧ acc = 0 then encShortcut else encGroup acc n

/-- The accumulator of up to four bytes, padded with zeros (41_encoder.md R99). -/
def accOfUnits (us : List Byte) : Acc :=
  accOf (us.getD 0 0) (us.getD 1 0) (us.getD 2 0) (us.getD 3 0)

/-- An ENC command answers to its operands. -/
theorem exec_of_engine_enc {i : Instr} (h : i.engine = .enc) (s : State) :
    exec i s = .next (answered .enc (encAnswer (accOfUnits (operands i)) (operands i).length) s) := by
  cases i with
  | enc0 => rfl
  | enc1 => rfl
  | enc2 => rfl
  | enc3 => rfl
  | enc4 => simp [exec_enc4, encAnswer, accOfUnits, operands]
  | _ => cases h

/-- `F_ENC`'s accumulator is the one of the bytes in the lanes it covers. -/
theorem encAcc_eq_accOfUnits (w : Word) {n : Nat} (h : n ≤ 4) :
    encAcc w n = accOfUnits (inputUnits .enc (commandOf w).payload n) := by
  have := w.isLt
  apply BitVec.eq_of_toNat_eq
  interval_cases n <;>
    simp [encAcc, accOfUnits, toNat_accOf, inputUnits, inLane, List.range_succ, lane_commandOf, Nat.shiftLeft_eq,
      Nat.shiftRight_eq_div_pow] <;>
    omega

theorem count_le_of_legalOn_enc {w : Word} (h : legalOn .enc w) : (w.extractLsb' 57 3).toNat ≤ 4 := by
  rw [legalOn_iff_legalFor, legalFor_iff] at h
  obtain ⟨_, _, hn⟩ := h
  exact hn

/-- `F_ENC` of a legal word answers to its count and accumulator. -/
theorem fEnc_of_legalOn {w : Word} (h : legalOn .enc w) :
    fEnc w = encAnswer (encAcc w (w.extractLsb' 57 3).toNat) (w.extractLsb' 57 3).toNat := by
  rw [encAnswer, encGroup, encLanes_eq_orLanes _ (count_le_of_legalOn_enc h), encShortcut_eq]
  exact if_neg (not_illegal_of_legalFor (legalOn_iff_legalFor.1 h))

/-- `F_ENC` of a word of an ENC command answers to the command's operands. -/
theorem fEnc_of_decode {w : Word} {i : Instr} (hd : decode w = .ok i) (he : i.engine = .enc) :
    fEnc w = encAnswer (accOfUnits (operands i)) (operands i).length := by
  have hl := length_operands_le i
  obtain ⟨_, _, (hn : (w.extractLsb' 57 3).toNat = _), hu⟩ := decode_hasFieldsOf hd
  rw [he] at hl hu
  rw [fEnc_of_legalOn (legalOn_iff_decode.2 ⟨i, hd, he⟩), hn, encAcc_eq_accOfUnits w hl, ← hu]

/-- Settles O16: of a legal word EXECUTE and `F_ENC` answer alike to its operands; an illegal word has the one illegal
answer of both. -/
theorem encoderExecutesItsResponseFunction : Obligations.EncoderExecutesItsResponseFunction := by
  intro s
  by_cases h : legalOn .enc s.enc.cmd
  · obtain ⟨i, hd, he⟩ := legalOn_iff_decode.1 h
    have hx : execute .enc s = exec i s := by rw [execute, engine_enc, ← he, decodeFor_of_decode hd]
    rw [hx, exec_of_engine_enc he, fEnc_of_decode hd he]
  · rw [execute_of_not_legalOn h, ← engineResponse_of_not_legalOn h s.params]
    rfl

/-! ## The fields and the characters of an answer (41_encoder.md R97, R101, R108, R109) -/

theorem lane_encLanes (acc : Acc) {n j : Nat} (hj : j ≤ n) (hn : n ≤ 4) :
    lane (encLanes acc n) j = digitChar acc j := by
  have : j ≤ 4 := hj.trans hn
  interval_cases j <;> simp [encLanes, hj]

/-- A digit group's output units are its characters. -/
theorem responseUnits_encGroup (acc : Acc) {n : Nat} (h : n ≤ 4) :
    responseUnits .enc (encGroup acc n) = (List.range (n + 1)).map (digitChar acc) := by
  rw [responseUnits, encGroup, rspOcnt_pack, rspPayload_pack, Nat.mod_eq_of_lt (by omega)]
  refine List.map_congr_left fun j hj => ?_
  rw [outLane, Nat.zero_add]
  exact lane_encLanes acc (Nat.le_of_lt_succ (List.mem_range.1 hj)) h

theorem isDigit_of_mem_responseUnits_encGroup {acc : Acc} {n : Nat} (h : n ≤ 4) {c : Byte}
    (hc : c ∈ responseUnits .enc (encGroup acc n)) : isDigit c = true := by
  rw [responseUnits_encGroup acc h] at hc
  obtain ⟨j, _, rfl⟩ := List.mem_map.1 hc
  exact isDigit_digitChar acc j

theorem encShortcut_fields :
    rspStatus encShortcut = statusCode .ok ∧ rspEpos encShortcut = 0 ∧ rspReserved encShortcut = 0 ∧
      rspOcnt encShortcut = 1 ∧ rspZf encShortcut = true ∧ responseUnits .enc encShortcut = [shortcutChar] := by
  decide

/-- What an answer to `n` bytes says of itself: the fields and the units of a response `r` to an accumulator of four bytes
`acc` (41_encoder.md R108, R109). -/
def answersWith (acc : Acc) (n : Nat) (r : Word) : Prop :=
  rspStatus r = statusCode .ok ∧ rspEpos r = 0 ∧ rspReserved r = 0 ∧
    rspOcnt r = (if n = 0 then 0 else if rspZf r then 1 else n + 1) ∧
    (rspZf r = true ↔ n = 4 ∧ acc = 0) ∧
    (rspZf r = true → responseUnits .enc r = [shortcutChar]) ∧
    (rspZf r = false → ∀ c ∈ responseUnits .enc r, isDigit c = true ∧ c ≠ shortcutChar)

/-- Each of the three answers has the fields and the units that its count and accumulator call for. -/
theorem encAnswer_answersWith (acc : Acc) {n : Nat} (hn : n ≤ 4) : answersWith acc n (encAnswer acc n) := by
  unfold encAnswer
  split
  · next h0 => simp [answersWith, responseUnits, h0]
  split
  · next hz => simp [answersWith, encShortcut_fields, hz]
  · next h0 hz =>
    have hocnt : rspOcnt (encGroup acc n) = n + 1 := by rw [encGroup, rspOcnt_pack, Nat.mod_eq_of_lt (by omega)]
    have hzf : rspZf (encGroup acc n) = false := rspZf_pack ..
    refine ⟨rspStatus_pack .., rspEpos_pack .., rspReserved_pack .., by simp [hocnt, h0, hzf],
      iff_of_false (by simp [hzf]) hz, by simp [hzf], fun _ c hc => ?_⟩
    have hd := isDigit_of_mem_responseUnits_encGroup hn hc
    exact ⟨hd, ne_shortcutChar_of_isDigit hd⟩

/-- The accumulator of four bytes is the low half of the word. -/
theorem encAcc_four (w : Word) : encAcc w 4 = w.extractLsb' 0 32 := by
  simp [encAcc]

/-- Settles O15: `F_ENC` of a legal word is an answer to its count and accumulator; of an illegal word, the one illegal
answer. -/
theorem encoderAnswersOkWithDigits : Obligations.EncoderAnswersOkWithDigits := by
  intro w n r
  refine ⟨fun h => ?_, fun h => (engineResponse_of_not_legalOn h Params.default).trans (by decide)⟩
  have hacc : (n = 4 ∧ encAcc w n = 0) ↔ n = 4 ∧ w.extractLsb' 0 32 = 0 :=
    and_congr_right fun h4 => by rw [h4, encAcc_four]
  have hr : r = encAnswer (encAcc w n) n := fEnc_of_legalOn h
  rw [hr, ← hacc]
  exact encAnswer_answersWith _ (count_le_of_legalOn_enc h)

end Sys2Proof.Machine

/-! ## The digit validator, the padded value and the bytes of a group (42_decoder.md R121 to R126) -/

namespace Sys2Proof.Machine

theorem isDigit_iff {c : Byte} : isDigit c = true ↔ 33 ≤ c.toNat ∧ c.toNat ≤ 117 := by
  simp [isDigit]

theorem isDigit_eq_false_iff {c : Byte} : isDigit c = false ↔ c.toNat < 33 ∨ 117 < c.toNat := by
  rw [← Bool.not_eq_true, isDigit_iff]
  omega

theorem eq_shortcutChar_iff {c : Byte} : c = shortcutChar ↔ c.toNat = 122 :=
  BitVec.toNat_inj.symm

/-- Nothing is invalid in a group of digits. -/
theorem firstInvalid_of_digits {cs : List Byte} (h : ∀ c ∈ cs, isDigit c = true) (j : Nat) :
    firstInvalid cs j = none := by
  induction cs generalizing j with
  | nil => rfl
  | cons c cs ih =>
    obtain ⟨hc, hcs⟩ := List.forall_mem_cons.1 h
    rw [firstInvalid, if_pos hc, ih hcs]

/-- The validator names the first character that is no digit. -/
theorem firstInvalid_of_digits_before {cs : List Byte} {k : Nat} {c : Byte} (hk : cs[k]? = some c)
    (hc : isDigit c = false) (h : ∀ b ∈ cs.take k, isDigit b = true) (j : Nat) :
    firstInvalid cs j = some (j + k) := by
  induction cs generalizing j k with
  | nil => cases hk
  | cons b cs ih =>
    cases k with
    | zero =>
      cases hk
      simp [firstInvalid, hc]
    | succ k =>
      obtain ⟨hb, hcs⟩ := List.forall_mem_cons.1 h
      rw [firstInvalid, if_pos hb, ih hk hcs, Nat.add_right_comm, Nat.add_assoc]

/-- The validator as `F_DEC`'s search through the positions of a group. -/
theorem firstInvalid_map_range' (f : Nat → Byte) (n j : Nat) :
    firstInvalid ((List.range' j n).map f) j =
      (List.range' j n).find? fun k => ¬ (33 ≤ (f k).toNat ∧ (f k).toNat ≤ 117) := by
  induction n generalizing j with
  | zero => rfl
  | succ n ih =>
    rw [List.range'_succ, List.map_cons, firstInvalid, List.find?_cons, ih]
    simp only [← isDigit_iff]
    cases isDigit (f j) <;> rfl

theorem firstInvalid_map_range (f : Nat → Byte) (m : Nat) :
    firstInvalid ((List.range m).map f) 0 =
      (List.range m).find? fun k => ¬ (33 ≤ (f k).toNat ∧ (f k).toNat ≤ 117) := by
  rw [List.range_eq_range', firstInvalid_map_range']

theorem paddedDigit_le {cs : List Byte} (h : ∀ c ∈ cs, isDigit c = true) (k : Nat) : paddedDigit cs k ≤ 84 := by
  unfold paddedDigit
  split
  · next c hc =>
    obtain ⟨_, hle⟩ := isDigit_iff.1 (h c (List.mem_of_getElem? hc))
    exact Nat.sub_le_of_le_add hle
  · exact Nat.le_refl _

theorem paddedDigit_map_range (f : Nat → Byte) (m k : Nat) :
    paddedDigit ((List.range m).map f) k = if k < m then (f k).toNat - 33 else 84 := by
  unfold paddedDigit
  by_cases h : k < m <;> simp [h, digitValue]

/-- Five digits as one number (42_decoder.md R125, 41_encoder.md R107). -/
def radix85 (d : Nat → Nat) : Nat :=
  d 0 * 85 ^ 4 + d 1 * 85 ^ 3 + d 2 * 85 ^ 2 + d 3 * 85 + d 4

theorem polyValue_eq_radix85 (cs : List Byte) : polyValue cs = radix85 (paddedDigit cs) := rfl

theorem radix85_digit (acc : Acc) : radix85 (digit acc) = acc.toNat := sum_digits acc

/-- The bounds of the five digits that `radix85` reads, one by one. -/
theorem five_digits_le {d : Nat → Nat} (hd : ∀ i, d i ≤ 84) :
    d 0 ≤ 84 ∧ d 1 ≤ 84 ∧ d 2 ≤ 84 ∧ d 3 ≤ 84 ∧ d 4 ≤ 84 :=
  ⟨hd 0, hd 1, hd 2, hd 3, hd 4⟩

/-- Cutting a value to its first `j` bytes (42_decoder.md R126). -/
theorem highBytes_ofNat {v j : Nat} (hv : v < 2 ^ 32) :
    highBytes (BitVec.ofNat 32 v) j = BitVec.ofNat 40 (v / 2 ^ (8 * (4 - j)) * 2 ^ (8 * (4 - j))) := by
  have hle : v / 2 ^ (8 * (4 - j)) * 2 ^ (8 * (4 - j)) ≤ v := Nat.div_mul_le_self ..
  apply BitVec.eq_of_toNat_eq
  simp only [highBytes, BitVec.toNat_setWidth, BitVec.toNat_shiftLeft, BitVec.toNat_ushiftRight, BitVec.toNat_ofNat,
    Nat.shiftRight_eq_div_pow, Nat.shiftLeft_eq, Nat.mod_eq_of_lt hv]
  rw [Nat.mod_eq_of_lt (a := _ * _) (by omega)]

/-- The lanes of the first `j` bytes of a word hold those bytes. -/
theorem lane_highBytes (o : Acc) {i j : Nat} (hi : i < j) (hj : j ≤ 4) :
    lane (highBytes o j) (1 + i) = o.extractLsb' (8 * (3 - i)) 8 := by
  ext k hk
  simp [lane, highBytes]
  grind

/-- A response with the first `j` bytes of a word reports those bytes. -/
theorem responseUnits_highBytes (o : Acc) {j : Nat} (h : j ≤ 4) (epos : Nat) (zf : Bool) :
    responseUnits .dec (pack .ok j epos zf (highBytes o j)) = (bytesOf o).take j := by
  have hbytes : (bytesOf o).take j = (List.range j).map fun i => o.extractLsb' (8 * (3 - i)) 8 := by
    interval_cases j <;> rfl
  rw [responseUnits, rspOcnt_pack, rspPayload_pack, Nat.mod_eq_of_lt (by omega), hbytes]
  exact List.map_congr_left fun i hi => lane_highBytes o (List.mem_range.1 hi) h

/-! ### What a group is answered (42_decoder.md R133) -/

theorem decGroup_of_firstInvalid {cs : List Byte} {k : Nat} (h : firstInvalid cs 0 = some k) :
    decGroup cs = raise .badDecodeChar k := by
  rw [decGroup, h]

theorem decGroup_of_overflow {cs : List Byte} (h : firstInvalid cs 0 = none) (hv : 2 ^ 32 - 1 < polyValue cs) :
    decGroup cs = raise .decodeOverflow 0 := by
  rw [decGroup, h]
  exact if_pos (decide_eq_true hv)

theorem decGroup_of_fits {cs : List Byte} (h : firstInvalid cs 0 = none) (hv : polyValue cs ≤ 2 ^ 32 - 1) :
    decGroup cs = pack .ok (cs.length - 1) 0 false (highBytes (decAcc cs) (cs.length - 1)) := by
  rw [decGroup, h]
  exact if_neg (mt of_decide_eq_true (Nat.not_lt.2 hv))

/-- The checks of a group character by character from position `k` on, as 42_decoder.md R129 to R132 write them, before
the answer `r` to a group of digits. -/
def checkedFrom : List Byte → Nat → Word → Word
  | [], _, r => r
  | c :: cs, k, r => if c.toNat < 33 ∨ 117 < c.toNat then raise .badDecodeChar k else checkedFrom cs (k + 1) r

/-- The answer to a padded value, of which a group of digits reports the first `j` bytes (42_decoder.md R125, R126). -/
def valueAnswer (v j : Nat) : Word :=
  if 2 ^ 32 - 1 < v then raise .decodeOverflow 0
  else pack .ok j 0 false (BitVec.ofNat 40 (v / 2 ^ (8 * (4 - j)) * 2 ^ (8 * (4 - j))))

theorem checkedFrom_eq (cs : List Byte) (k : Nat) (r : Word) :
    checkedFrom cs k r = ((firstInvalid cs k).map (raise .badDecodeChar)).getD r := by
  induction cs generalizing k with
  | nil => rfl
  | cons c cs ih =>
    unfold checkedFrom firstInvalid
    cases hc : isDigit c with
    | true => rw [if_neg (by have := isDigit_iff.1 hc; omega), ih, if_pos rfl]
    | false => rw [if_pos (isDigit_eq_false_iff.1 hc)]; rfl

/-- A group is checked character by character, then answered by its padded value. -/
theorem decGroup_eq_checkedFrom {cs : List Byte} {v : Nat} (hv : polyValue cs = v) :
    decGroup cs = checkedFrom cs 0 (valueAnswer v (cs.length - 1)) := by
  subst hv
  rw [checkedFrom_eq]
  cases h : firstInvalid cs 0 with
  | some k => exact decGroup_of_firstInvalid h
  | none =>
    by_cases hv : 2 ^ 32 - 1 < polyValue cs
    · rw [decGroup_of_overflow h hv, Option.map_none, Option.getD_none, valueAnswer, if_pos hv]
    · rw [decGroup_of_fits h (Nat.not_lt.1 hv), decAcc, highBytes_ofNat (by omega), Option.map_none,
        Option.getD_none, valueAnswer, if_neg hv]

/-! ### Each command answers what its characters are answered as a group (42_decoder.md R127 to R132) -/

theorem exec_dec0 (s : State) : exec .dec0 s = .next (answered .dec (pack .ok 0 0 false 0) s) := rfl
theorem exec_dec1 {c0 : Byte} {r : Word} {s : State} (h : decLone s.params.loneTail c0 = r) :
    exec (.dec1 c0) s = .next (answered .dec r s) := h ▸ rfl
theorem exec_dec2 {c0 c1 : Byte} {r : Word} (h : decGroup [c0, c1] = r) (s : State) :
    exec (.dec2 c0 c1) s = .next (answered .dec r s) := h ▸ rfl
theorem exec_dec3 {c0 c1 c2 : Byte} {r : Word} (h : decGroup [c0, c1, c2] = r) (s : State) :
    exec (.dec3 c0 c1 c2) s = .next (answered .dec r s) := h ▸ rfl
theorem exec_dec4 {c0 c1 c2 c3 : Byte} {r : Word} (h : decGroup [c0, c1, c2, c3] = r) (s : State) :
    exec (.dec4 c0 c1 c2 c3) s = .next (answered .dec r s) := h ▸ rfl
theorem exec_dec5 {c0 c1 c2 c3 c4 : Byte} {r : Word} (h : decGroup [c0, c1, c2, c3, c4] = r) (s : State) :
    exec (.dec5 c0 c1 c2 c3 c4) s = .next (answered .dec r s) := h ▸ rfl

/-! ## The decoder and the six meanings together are `F_DEC` (42_decoder.md R116) -/

/-- The answer to a group of characters (42_decoder.md R133). -/
def decAnswer (policy : LoneTailPolicy) (cs : List Byte) : Word :=
  if cs = [] then pack .ok 0 0 false 0
  else if cs = [shortcutChar] then pack .ok 4 0 true 0
  else if cs.length = 1 ∧ policy = .reject then raise .badDecodeChar 0
  else decGroup cs

theorem decAnswer_of_two_le {cs : List Byte} (h : 2 ≤ cs.length) (policy : LoneTailPolicy) :
    decAnswer policy cs = decGroup cs := by
  match cs, h with
  | _ :: _ :: _, _ => simp [decAnswer]

/-- A DEC command answers to its operands. -/
theorem exec_of_engine_dec {i : Instr} (h : i.engine = .dec) (s : State) :
    exec i s = .next (answered .dec (decAnswer s.params.loneTail (operands i)) s) := by
  cases i with
  | dec0 => exact exec_dec0 s
  | dec1 c0 => exact exec_dec1 (by simp [decAnswer, decLone, operands])
  | dec2 c0 c1 => exact exec_dec2 (decAnswer_of_two_le (by simp) _).symm s
  | dec3 c0 c1 c2 => exact exec_dec3 (decAnswer_of_two_le (by simp) _).symm s
  | dec4 c0 c1 c2 c3 => exact exec_dec4 (decAnswer_of_two_le (by simp) _).symm s
  | dec5 c0 c1 c2 c3 c4 => exact exec_dec5 (decAnswer_of_two_le (by simp) _).symm s
  | _ => cases h

theorem count_le_of_legalOn_dec {w : Word} (h : legalOn .dec w) : (w.extractLsb' 57 3).toNat ≤ 5 := by
  rw [legalOn_iff_legalFor, legalFor_iff] at h
  obtain ⟨_, _, hm⟩ := h
  exact hm

theorem charsOfCommand_eq (w : Word) {m : Nat} (h : m ≤ 5) :
    charsOfCommand w m = (List.range m).map fun k => w.extractLsb' (32 - 8 * k) 8 :=
  List.map_congr_left fun k hk => lane_commandOf w (by have := List.mem_range.1 hk; omega)

/-- `F_DEC` of a legal word answers to the characters its count covers. -/
theorem fDec_of_legalOn {w : Word} (h : legalOn .dec w) (policy : LoneTailPolicy) :
    fDec policy w = decAnswer policy (charsOfCommand w (w.extractLsb' 57 3).toNat) := by
  have hlegal : ¬ (w.extractLsb' 60 4 ≠ 2 ∨ w.extractLsb' 40 17 ≠ 0 ∨ (w.extractLsb' 57 3).toNat > 5) :=
    not_illegal_of_legalFor (legalOn_iff_legalFor.1 h)
  rw [charsOfCommand_eq w (count_le_of_legalOn_dec h)]
  unfold fDec
  dsimp only
  rw [if_neg hlegal]
  generalize hf : (fun k => w.extractLsb' (32 - 8 * k) 8) = f
  have hc (k : Nat) : w.extractLsb' (32 - 8 * k) 8 = f k := by rw [← hf]
  generalize (w.extractLsb' 57 3).toNat = m
  simp only [hc]
  have hnil : (List.range m).map f = [] ↔ m = 0 := by simp
  have hlone : (List.range m).map f = [shortcutChar] ↔ m = 1 ∧ (f 0).toNat = 0x7A := by
    constructor
    · intro h
      obtain rfl : m = 1 := by simpa using congrArg List.length h
      obtain ⟨h0, _⟩ := List.cons.inj h
      exact ⟨rfl, eq_shortcutChar_iff.1 h0⟩
    · rintro ⟨rfl, h⟩
      simp [eq_shortcutChar_iff.2 h]
  simp only [decAnswer, hnil, hlone, List.length_map, List.length_range, decGroup, firstInvalid_map_range]
  cases (List.range m).find? fun k => ¬ (33 ≤ (f k).toNat ∧ (f k).toNat ≤ 117) with
  | some k => rfl
  | none =>
    simp only [decOvf, decAcc, polyValue, paddedDigit_map_range, highBytes, decide_eq_true_eq]

/-- `F_DEC` of a word of a DEC command answers to the command's operands. -/
theorem fDec_of_decode {w : Word} {i : Instr} (hd : decode w = .ok i) (he : i.engine = .dec) (policy : LoneTailPolicy) :
    fDec policy w = decAnswer policy (operands i) := by
  obtain ⟨_, _, (hm : (w.extractLsb' 57 3).toNat = _), hu⟩ := decode_hasFieldsOf hd
  have hchars : charsOfCommand w (operands i).length = operands i := by
    rw [he] at hu
    refine Eq.trans ?_ hu.symm
    simp [charsOfCommand, inputUnits, inLane]
  rw [fDec_of_legalOn (legalOn_iff_decode.2 ⟨i, hd, he⟩), hm, hchars]

/-- Settles O23: of a legal word EXECUTE and `F_DEC` answer alike to its operands; an illegal word has the one illegal
answer of both. -/
theorem decoderExecutesItsResponseFunction : Obligations.DecoderExecutesItsResponseFunction := by
  intro s
  by_cases h : legalOn .dec s.dec.cmd
  · obtain ⟨i, hd, he⟩ := legalOn_iff_decode.1 h
    have hx : execute .dec s = exec i s := by rw [execute, engine_dec, ← he, decodeFor_of_decode hd]
    rw [hx, exec_of_engine_dec he, fDec_of_decode hd he]
  · rw [execute_of_not_legalOn h, ← engineResponse_of_not_legalOn h s.params]
    rfl

/-- The command of a group's units is read back from the word that the stream framing builds of them. -/
theorem decode_groupCommand {e : EngineId} {us : List Byte} (h : us.length ≤ e.maxCount) :
    ∃ i, decode (groupCommand e us) = .ok i ∧ i.engine = e ∧ operands i = us := by
  obtain ⟨i, rfl, rfl⟩ : ∃ i : Instr, i.engine = e ∧ operands i = us := by
    cases e with
    | enc =>
      match us, h with
      | [], _ => exact ⟨.enc0, rfl, rfl⟩
      | [b0], _ => exact ⟨.enc1 b0, rfl, rfl⟩
      | [b0, b1], _ => exact ⟨.enc2 b0 b1, rfl, rfl⟩
      | [b0, b1, b2], _ => exact ⟨.enc3 b0 b1 b2, rfl, rfl⟩
      | [b0, b1, b2, b3], _ => exact ⟨.enc4 b0 b1 b2 b3, rfl, rfl⟩
    | dec =>
      match us, h with
      | [], _ => exact ⟨.dec0, rfl, rfl⟩
      | [c0], _ => exact ⟨.dec1 c0, rfl, rfl⟩
      | [c0, c1], _ => exact ⟨.dec2 c0 c1, rfl, rfl⟩
      | [c0, c1, c2], _ => exact ⟨.dec3 c0 c1 c2, rfl, rfl⟩
      | [c0, c1, c2, c3], _ => exact ⟨.dec4 c0 c1 c2 c3, rfl, rfl⟩
      | [c0, c1, c2, c3, c4], _ => exact ⟨.dec5 c0 c1 c2 c3 c4, rfl, rfl⟩
  refine ⟨i, ?_, rfl, rfl⟩
  rw [← encode_eq_groupCommand]
  exact decodeAfterEncodeIsIdentity i

theorem fEnc_groupCommand {bs : List Byte} (h : bs.length ≤ 4) :
    fEnc (groupCommand .enc bs) = encAnswer (accOfUnits bs) bs.length := by
  obtain ⟨i, hd, he, rfl⟩ := decode_groupCommand (e := .enc) h
  exact fEnc_of_decode hd he

theorem fDec_groupCommand {cs : List Byte} (h : cs.length ≤ 5) (policy : LoneTailPolicy) :
    fDec policy (groupCommand .dec cs) = decAnswer policy cs := by
  obtain ⟨i, hd, he, rfl⟩ := decode_groupCommand (e := .dec) h
  exact fDec_of_decode hd he policy

/-! ### The round trip of a group (42_decoder.md R136) -/

/-- Putting 84 for every digit after the `n`-th keeps the quotient by `85^(4−n)` and gives the largest remainder. -/
theorem radix85_padded {d p : Nat → Nat} (hd : ∀ i, d i ≤ 84) {n : Nat} (hn : n ≤ 4)
    (hp : ∀ k, p k = if k ≤ n then d k else 84) :
    radix85 p = radix85 d / 85 ^ (4 - n) * 85 ^ (4 - n) + (85 ^ (4 - n) - 1) := by
  have hle := five_digits_le hd
  simp only [radix85, hp]
  interval_cases n <;> simp only [Nat.reduceLeDiff, if_true, if_false, Nat.reduceSub] <;> omega

/-- The value of the first `n + 1` characters of an accumulator. -/
theorem polyValue_digitChars (acc : Acc) {n : Nat} (h : n ≤ 4) :
    polyValue ((List.range (n + 1)).map (digitChar acc)) =
      acc.toNat / 85 ^ (4 - n) * 85 ^ (4 - n) + (85 ^ (4 - n) - 1) := by
  have hdigit (k : Nat) : paddedDigit ((List.range (n + 1)).map (digitChar acc)) k =
      if k ≤ n then digit acc k else 84 := by
    rw [paddedDigit_map_range, toNat_digitChar, Nat.add_sub_cancel]
    simp only [Nat.lt_succ_iff]
  rw [polyValue_eq_radix85, ← radix85_digit acc]
  exact radix85_padded (digit_le acc) h hdigit

/-- Padding moves the value of a group of `n` bytes up by less than `85^(4−n)`, and so by less than the place of its
last byte. -/
theorem polyValue_digitChars_div {acc : Acc} {n : Nat} (h : n ≤ 4) (hacc : 256 ^ (4 - n) ∣ acc.toNat) :
    polyValue ((List.range (n + 1)).map (digitChar acc)) / 256 ^ (4 - n) = acc.toNat / 256 ^ (4 - n) := by
  have hplace : 85 ^ (4 - n) ≤ 256 ^ (4 - n) := Nat.pow_le_pow_left (by decide) _
  have hsplit := Nat.div_add_mod' acc.toNat (85 ^ (4 - n))
  have hrem : acc.toNat % 85 ^ (4 - n) < 85 ^ (4 - n) := Nat.mod_lt _ (by positivity)
  have hmul := Nat.div_mul_cancel hacc
  rw [polyValue_digitChars acc h]
  refine Nat.div_eq_of_lt_le ?_ ?_
  · omega
  · rw [Nat.succ_mul]
    omega

/-- The accumulator of `n` bytes is padded with zeros. -/
theorem dvd_accOfUnits {bs : List Byte} (h : bs.length ≤ 4) : 256 ^ (4 - bs.length) ∣ (accOfUnits bs).toNat := by
  match bs, h with
  | [], _ => exact Nat.dvd_zero _
  | [b0], _ | [b0, b1], _ | [b0, b1, b2], _ | [b0, b1, b2, b3], _ => simp [accOfUnits, toNat_accOf] <;> omega

/-- The first `n` bytes of a word are those of its quotient by `256^(4−n)`. -/
theorem take_bytesOf_congr {o p : Acc} {n : Nat} (hn : n ≤ 4)
    (h : o.toNat / 256 ^ (4 - n) = p.toNat / 256 ^ (4 - n)) : (bytesOf o).take n = (bytesOf p).take n := by
  interval_cases n <;> simp [bytesOf, ← BitVec.toNat_inj, Nat.shiftRight_eq_div_pow] at h ⊢ <;> omega

theorem take_bytesOf_accOfUnits {bs : List Byte} (h : bs.length ≤ 4) :
    (bytesOf (accOfUnits bs)).take bs.length = bs := by
  match bs, h with
  | [], _ => rfl
  | [b0], _ | [b0, b1], _ | [b0, b1, b2], _ | [b0, b1, b2, b3], _ =>
    simp [accOfUnits, bytesOf, ← BitVec.toNat_inj, toNat_accOf, Nat.shiftRight_eq_div_pow]
    omega

/-- The response reports these bytes (30_encoding.md R72, R74). -/
def answersBytes (bs : List Byte) (q : Word) : Prop :=
  rspStatus q = statusCode .ok ∧ rspOcnt q = bs.length ∧ responseUnits .dec q = bs

/-- A digit group is decoded to the bytes at the top of its value. -/
theorem decGroup_answersBytes {cs bs : List Byte} (hcs : ∀ c ∈ cs, isDigit c = true) (hbs : bs.length ≤ 4)
    (hlen : cs.length = bs.length + 1)
    (hv : polyValue cs / 256 ^ (4 - bs.length) = (accOfUnits bs).toNat / 256 ^ (4 - bs.length)) :
    answersBytes bs (decGroup cs) := by
  have hfits : polyValue cs < 2 ^ 32 := by
    have hpos : 0 < 256 ^ (4 - bs.length) := by positivity
    have hsplit : 2 ^ 32 = 256 ^ bs.length * 256 ^ (4 - bs.length) := by rw [← pow_add, Nat.add_sub_of_le hbs]; rfl
    rw [hsplit, ← Nat.div_lt_iff_lt_mul hpos, hv, Nat.div_lt_iff_lt_mul hpos, ← hsplit]
    exact (accOfUnits bs).isLt
  have hacc : (decAcc cs).toNat = polyValue cs := by rw [decAcc, BitVec.toNat_ofNat, Nat.mod_eq_of_lt hfits]
  rw [decGroup_of_fits (firstInvalid_of_digits hcs 0) (by omega), hlen, Nat.add_sub_cancel]
  refine ⟨rspStatus_pack .., ?_, ?_⟩
  · rw [rspOcnt_pack, Nat.mod_eq_of_lt (by omega)]
  · rw [responseUnits_highBytes _ hbs, take_bytesOf_congr hbs (hacc.symm ▸ hv), take_bytesOf_accOfUnits hbs]

/-- The shortcut stands for four zero bytes. -/
theorem eq_zeros_of_accOfUnits {bs : List Byte} (h : bs.length = 4) (h0 : accOfUnits bs = 0) : bs = [0, 0, 0, 0] := by
  rw [← take_bytesOf_accOfUnits h.le, h, h0]
  rfl

/-- Settles O27: the shortcut gives four zero bytes, and a digit group's value keeps the bytes of the accumulator it was
made of. -/
theorem groupRoundTrip : Obligations.GroupRoundTrip := by
  intro policy bs hpos hle r q
  have hr : r = encAnswer (accOfUnits bs) bs.length := fEnc_groupCommand hle
  rw [encAnswer, if_neg (by omega)] at hr
  suffices hq : (responseUnits .enc r).length ≤ 5 ∧ answersBytes bs (decAnswer policy (responseUnits .enc r)) by
    obtain ⟨hlen, hbytes⟩ := hq
    rwa [← fDec_groupCommand hlen] at hbytes
  by_cases hz : bs.length = 4 ∧ accOfUnits bs = 0
  · have hunits : responseUnits .enc r = [shortcutChar] := by
      rw [hr, if_pos hz]
      decide
    obtain ⟨h4, h0⟩ := hz
    rw [hunits, eq_zeros_of_accOfUnits h4 h0]
    exact ⟨by decide, show answersBytes [0, 0, 0, 0] (pack .ok 4 0 true 0) by unfold answersBytes; decide⟩
  · have hunits : responseUnits .enc r = (List.range (bs.length + 1)).map (digitChar (accOfUnits bs)) := by
      rw [hr, if_neg hz, responseUnits_encGroup _ hle]
    rw [hunits, decAnswer_of_two_le (by simpa using hpos)]
    exact ⟨by simpa using Nat.lt_succ_of_le hle, decGroup_answersBytes (by simp) hle (by simp)
      (polyValue_digitChars_div hle (dvd_accOfUnits hle))⟩

end Sys2Proof.Machine

/-! ## The order of the decoder's outcomes (42_decoder.md R133) -/

namespace Sys2Proof.Machine

theorem length_charsOfCommand (w : Word) (m : Nat) : (charsOfCommand w m).length = m := by
  simp [charsOfCommand]

/-- Settles O24: an illegal word has its one answer, and a legal word's answer to its characters is split by the
decoder's own conditions. -/
theorem decoderOutcomesInOrder : Obligations.DecoderOutcomesInOrder := by
  intro policy w m cs
  have hcs : cs.length = m := length_charsOfCommand w m
  have hne (hm : m ≠ 0) : cs ≠ [] := List.ne_nil_of_length_pos (by omega)
  have hfDec (h : legalOn .dec w) : fDec policy w = decAnswer policy cs := fDec_of_legalOn h policy
  refine ⟨fun h => ?_, fun h hm => ?_, fun h hz => ?_, fun h hm hz hp => ?_, fun h hm hz hp => ?_⟩
  · exact engineResponse_of_not_legalOn h { Params.default with loneTail := policy }
  · rw [hfDec h, List.length_eq_zero_iff.1 (hcs.trans hm)]
    rfl
  · rw [hfDec h, hz]
    rfl
  · rw [hfDec h, decAnswer, if_neg (hne (by omega)), if_neg hz, if_pos ⟨hcs.trans hm, hp⟩]
  · have hg : fDec policy w = decGroup cs := by
      rw [hfDec h, decAnswer, if_neg (hne hm), if_neg hz, hcs, if_neg hp]
    have hm5 : m ≤ 5 := count_le_of_legalOn_dec h
    rw [hg]
    refine ⟨fun k c hk hc hbefore => ?_, fun hd hv => ?_, fun hd hv => ?_⟩
    · rw [decGroup_of_firstInvalid (firstInvalid_of_digits_before hk hc hbefore 0), Nat.zero_add]
    · exact decGroup_of_overflow (firstInvalid_of_digits hd 0) hv
    · rw [decGroup_of_fits (firstInvalid_of_digits hd 0) hv, hcs]
      exact ⟨rspStatus_pack .., rspZf_pack .., responseUnits_highBytes _ (by omega) _ _⟩

/-! ## The value of a group and the serial evaluator (42_decoder.md R125) -/

theorem polyValue_lt {cs : List Byte} (h : ∀ c ∈ cs, isDigit c = true) : polyValue cs < 85 ^ 5 := by
  have hle := five_digits_le (paddedDigit_le h)
  unfold polyValue
  omega

/-- An edge of the serial evaluator keeps the low 32 bits. -/
theorem toNat_serialStep (a : Acc) (d : Nat) : (serialStep a d).toNat = (85 * a.toNat + d) % 2 ^ 32 :=
  BitVec.toNat_ofNat ..

/-- Four digits never wrap. -/
theorem toNat_serialFour {cs : List Byte} (h : ∀ c ∈ cs, isDigit c = true) :
    (serialFour cs).toNat =
      paddedDigit cs 0 * 85 ^ 3 + paddedDigit cs 1 * 85 ^ 2 + paddedDigit cs 2 * 85 + paddedDigit cs 3 := by
  have hle := five_digits_le (paddedDigit_le h)
  have hzero : (0 : Acc).toNat = 0 := rfl
  simp only [serialFour, toNat_serialStep, hzero]
  omega

theorem polyValue_eq_serialFour {cs : List Byte} (h : ∀ c ∈ cs, isDigit c = true) :
    polyValue cs = 85 * (serialFour cs).toNat + paddedDigit cs 4 := by
  rw [toNat_serialFour h, polyValue]
  omega

/-- Settles O25: the four digits before the last never wrap, so the last edge sees the value itself. -/
theorem serialEvaluatorAgrees : Obligations.SerialEvaluatorAgrees := by
  intro cs _ h
  have hfour : (serialFour cs).toNat ≤ 85 ^ 4 - 1 := by
    have hv := polyValue_lt h
    rw [polyValue_eq_serialFour h] at hv
    omega
  have hacc : serialAcc cs = decAcc cs := by rw [decAcc, polyValue_eq_serialFour h, serialAcc, serialStep]
  have hovf : serialOvf cs = true ↔ 2 ^ 32 ≤ polyValue cs := by
    rw [polyValue_eq_serialFour h, serialOvf, decide_eq_true_iff]
  refine ⟨Nat.le_pred_of_lt (polyValue_lt h), hfour, ?_, hovf, hacc, ?_,
    decGroup_of_overflow (firstInvalid_of_digits h 0)⟩
  · rw [hacc, decAcc, BitVec.toNat_ofNat]
  · rw [Bool.eq_iff_iff, hovf, decOvf, decide_eq_true_iff]
    omega

/-! ## The overflow thresholds (42_decoder.md R134) -/

/-- A value exceeds `2^32 − 1` exactly if its digits come after those of `2^32 − 1`, the first that differs deciding. -/
theorem radix85_overflows_iff {d : Nat → Nat} (hd : ∀ i, d i ≤ 84) :
    2 ^ 32 - 1 < radix85 d ↔
      82 < d 0 ∨
        (d 0 = 82 ∧ (23 < d 1 ∨ (d 1 = 23 ∧ (54 < d 2 ∨ (d 2 = 54 ∧ (12 < d 3 ∨ (d 3 = 12 ∧ 0 < d 4))))))) := by
  have hle := five_digits_le hd
  unfold radix85
  omega

theorem codeValue_append (cs ds : List Byte) (v : Nat) : codeValue (cs ++ ds) v = codeValue ds (codeValue cs v) := by
  induction cs generalizing v with
  | nil => rfl
  | cons c cs ih => exact ih _

/-- Groups with the same end compare as their beginnings. -/
theorem codeValue_strictMono (cs : List Byte) : StrictMono (codeValue cs) := by
  induction cs with
  | nil => exact strictMono_id
  | cons c cs ih => exact fun v w h => ih (by omega)

/-- A group followed by `u`s (42_decoder.md R123). -/
def padded (cs : List Byte) (k : Nat) : List Byte :=
  cs ++ List.replicate k 117

theorem polyValue_padded (cs : List Byte) (k : Nat) : polyValue (padded cs k) = polyValue cs := by
  have hdigit (j : Nat) : paddedDigit (padded cs k) j = paddedDigit cs j := by
    unfold paddedDigit padded
    by_cases hj : j < cs.length
    · rw [List.getElem?_append_left hj]
    · rw [List.getElem?_append_right (Nat.not_lt.1 hj), List.getElem?_eq_none (Nat.not_lt.1 hj),
        List.getElem?_replicate]
      split_ifs <;> rfl
  simp only [polyValue, hdigit]

theorem isDigit_of_mem_padded {cs : List Byte} (h : ∀ c ∈ cs, isDigit c = true) (k : Nat) :
    ∀ c ∈ padded cs k, isDigit c = true := by
  intro c hc
  rcases List.mem_append.1 hc with hc | hc
  · exact h c hc
  · rw [List.eq_of_mem_replicate hc]
    decide

/-- Five digit characters overflow exactly if they come after `s8W-!`. -/
theorem polyValue_overflows_iff_codeValue {cs : List Byte} (hlen : cs.length = 5) (h : ∀ c ∈ cs, isDigit c = true) :
    2 ^ 32 - 1 < polyValue cs ↔ codeValue [115, 56, 87, 45, 33] 0 < codeValue cs 0 := by
  rw [polyValue_eq_radix85, radix85_overflows_iff (paddedDigit_le h)]
  match cs, hlen with
  | [c0, c1, c2, c3, c4], _ =>
    simp only [List.forall_mem_cons, isDigit_iff] at h
    simp [codeValue, paddedDigit, digitValue]
    omega

/-- Of two groups next to each other, the padding of the one being accepted and of the other not, the one is the largest
accepted of its length and the other the smallest that overflows. -/
theorem overflow_thresholds_of_adjacent {cs a b : List Byte} (k : Nat) (hlen : cs.length + k = 5)
    (h : ∀ c ∈ cs, isDigit c = true) (hab : codeValue b 0 = codeValue a 0 + 1)
    (ha : codeValue (padded a k) 0 ≤ codeValue [115, 56, 87, 45, 33] 0)
    (hb : codeValue [115, 56, 87, 45, 33] 0 < codeValue (padded b k) 0) :
    (polyValue cs ≤ 2 ^ 32 - 1 ↔ codeValue cs 0 ≤ codeValue a 0) ∧
      (2 ^ 32 - 1 < polyValue cs ↔ codeValue b 0 ≤ codeValue cs 0) := by
  have hmono := (codeValue_strictMono (List.replicate k 117)).monotone
  rw [padded, codeValue_append] at ha hb
  have hover : 2 ^ 32 - 1 < polyValue cs ↔ codeValue b 0 ≤ codeValue cs 0 := by
    rw [← polyValue_padded cs k, polyValue_overflows_iff_codeValue (by simpa [padded] using hlen)
      (isDigit_of_mem_padded h k), padded, codeValue_append]
    constructor
    · intro hlt
      by_contra hle
      have hca : codeValue cs 0 ≤ codeValue a 0 := by omega
      exact absurd hlt (Nat.not_lt.2 ((hmono hca).trans ha))
    · exact fun hle => hb.trans_le (hmono hle)
  exact ⟨by rw [← Nat.not_lt, hover, hab, Nat.not_le, Nat.lt_succ_iff], hover⟩

/-- Settles O26: the digits compare as with those of `s8W-!`, and the two thresholds of each length stand on either side
of it once they are padded. -/
theorem overflowThresholds : Obligations.OverflowThresholds := by
  intro cs _ _ h d
  have hover : 2 ^ 32 - 1 < polyValue cs ↔ _ := radix85_overflows_iff (d := d) (paddedDigit_le h)
  refine ⟨hover, fun hn => ?_, fun hn => ?_, fun hn => ?_, fun hn => ?_, fun hn => ?_, fun h0 => ?_⟩
  · exact overflow_thresholds_of_adjacent 4 (by rw [hn]) h (by decide) (by decide) (by decide)
  · exact overflow_thresholds_of_adjacent 3 (by rw [hn]) h (by decide) (by decide) (by decide)
  · exact overflow_thresholds_of_adjacent 2 (by rw [hn]) h (by decide) (by decide) (by decide)
  · exact overflow_thresholds_of_adjacent 1 (by rw [hn]) h (by decide) (by decide) (by decide)
  · exact overflow_thresholds_of_adjacent 0 (by rw [hn]) h (by decide) (by decide) (by decide)
  · rw [← Nat.not_lt, hover]
    omega

end Sys2Proof.Machine

/-! ## The decoder's commands (42_decoder.md R117, R127 to R132) -/

namespace Sys2Proof.Machine

/-- Settles O8: the fixed words are evaluated, and an error's fields read back as they were packed. -/
theorem errorResponseWords : Obligations.ErrorResponseWords :=
  ⟨by decide, by decide, by decide, fun _ _ => ⟨rspOcnt_pack .., rspPayload_pack .., rspZf_pack ..⟩⟩

/-- A word with the header of `n` characters for DEC decodes to the DEC command of its payload. -/
theorem decode_of_decHeader {w : Word} {n : Nat} (h : w &&& rowMask = commandWord .dec n 0) :
    decode w = decodeDec { op := 2, cnt := BitVec.ofNat 3 n, rsv := 0, payload := (commandOf w).payload } := by
  rw [decode, commandOf_of_header h]
  rfl

/-- Settles O17: the header is all that is read, and the answer is the empty response. -/
theorem dec0AnswersNothing : Obligations.Dec0AnswersNothing :=
  ⟨fun _ h => decode_of_decHeader (n := 0) (h.trans (by decide)), exec_dec0, by decide⟩

/-- A lone character that is not `z` is answered no byte of its value (42_decoder.md R128). -/
theorem valueAnswer_zero (v : Nat) :
    valueAnswer v 0 = if 2 ^ 32 - 1 < v then raise .decodeOverflow 0 else pack .ok 0 0 false 0 := by
  refine ite_congr rfl (fun _ => rfl) fun h => ?_
  rw [Nat.div_eq_of_lt (show v < 2 ^ (8 * (4 - 0)) by omega), Nat.zero_mul]
  rfl

/-- Five characters are answered all bytes of their value (42_decoder.md R132). -/
theorem valueAnswer_four (v : Nat) :
    valueAnswer v 4 = if 2 ^ 32 - 1 < v then raise .decodeOverflow 0 else pack .ok 4 0 false (BitVec.ofNat 40 v) := by
  simp [valueAnswer]

/-- What a lone character is answered, check by check. -/
theorem decLone_eq (policy : LoneTailPolicy) (c0 : Byte) :
    decLone policy c0 =
      if c0.toNat = 122 then pack .ok 4 0 true 0
      else if policy = .reject then raise .badDecodeChar 0
      else if c0.toNat < 33 ∨ 117 < c0.toNat then raise .badDecodeChar 0
      else if 2 ^ 32 - 1 < (c0.toNat - 33 + 1) * 85 ^ 4 - 1 then raise .decodeOverflow 0
      else pack .ok 0 0 false 0 := by
  have hv : polyValue [c0] = (c0.toNat - 33 + 1) * 85 ^ 4 - 1 := by
    simp [polyValue, paddedDigit, digitValue]
    omega
  rw [decLone, decGroup_eq_checkedFrom hv, checkedFrom, checkedFrom, List.length_singleton, Nat.sub_self,
    valueAnswer_zero]
  simp only [eq_shortcutChar_iff]

/-- Settles O18: the answer is that of a lone character, check by check; the fixed characters are evaluated. -/
theorem dec1AnswersShortcutOrLoneTail : Obligations.Dec1AnswersShortcutOrLoneTail := by
  refine ⟨fun w h => ?_, fun c0 s => exec_dec1 (decLone_eq _ _), fun c0 s hp hlo hhi => exec_dec1 ?_,
    fun c0 s hp hlo hhi => exec_dec1 ?_, fun s => exec_dec1 ?_, fun s => exec_dec1 rfl⟩
  · simpa [decodeDec, lane_commandOf] using decode_of_decHeader (n := 1) (h.trans (by decide))
  · rw [hp, decLone_eq, if_neg (by omega), if_neg (by decide), if_neg (by omega), if_neg (by omega)]
    decide
  · rw [hp, decLone_eq, if_neg (by omega), if_neg (by decide), if_neg (by omega), if_pos (by omega)]
    decide
  · cases s.params.loneTail <;> decide

/-- Settles O19: the answer is a checked group of two characters; the groups from `s8` on overflow; the fixed groups are
evaluated. -/
theorem dec2AnswersOneByte : Obligations.Dec2AnswersOneByte := by
  refine ⟨fun w h => ?_, fun c0 c1 s => ?_, exec_dec2 (by decide), exec_dec2 (by decide), exec_dec2 (by decide),
    fun c0 c1 s h0 h1 hle => ?_, exec_dec2 (by decide), exec_dec2 (by decide), exec_dec2 (by decide),
    exec_dec2 (by decide)⟩
  · simpa [decodeDec, lane_commandOf] using decode_of_decHeader (n := 2) (h.trans (by decide))
  · intro v
    have hv : polyValue [c0, c1] = v := by simp [polyValue, paddedDigit, digitValue, v, Nat.add_assoc]
    exact exec_dec2 (decGroup_eq_checkedFrom hv) s
  · obtain ⟨_, hover⟩ := overflow_thresholds_of_adjacent (cs := [c0, c1]) (a := [115, 55]) (b := [115, 56]) 3 rfl
      (by simp [h0, h1]) (by decide) (by decide) (by decide)
    have hv : 2 ^ 32 - 1 < polyValue [c0, c1] := hover.2 (by simpa [codeValue] using hle)
    exact exec_dec2 ((decGroup_of_overflow (firstInvalid_of_digits (by simp [h0, h1]) 0) hv).trans (by decide)) s

/-- Settles O20: the answer is a checked group of three characters; the fixed groups are evaluated. -/
theorem dec3AnswersTwoBytes : Obligations.Dec3AnswersTwoBytes := by
  refine ⟨fun w h => ?_, fun c0 c1 c2 s => ?_, exec_dec3 (by decide), exec_dec3 (by decide), exec_dec3 (by decide),
    exec_dec3 (by decide), exec_dec3 (by decide), exec_dec3 (by decide)⟩
  · simpa [decodeDec, lane_commandOf] using decode_of_decHeader (n := 3) (h.trans (by decide))
  · intro v
    have hv : polyValue [c0, c1, c2] = v := by simp [polyValue, paddedDigit, digitValue, v, Nat.add_assoc]
    exact exec_dec3 (decGroup_eq_checkedFrom hv) s

/-- Settles O21: the answer is a checked group of four characters; the fixed groups are evaluated. -/
theorem dec4AnswersThreeBytes : Obligations.Dec4AnswersThreeBytes := by
  refine ⟨fun w h => ?_, fun c0 c1 c2 c3 s => ?_, exec_dec4 (by decide), exec_dec4 (by decide), exec_dec4 (by decide),
    exec_dec4 (by decide), exec_dec4 (by decide), exec_dec4 (by decide)⟩
  · simpa [decodeDec, lane_commandOf] using decode_of_decHeader (n := 4) (h.trans (by decide))
  · exact exec_dec4 (decGroup_eq_checkedFrom rfl) s

/-- Settles O22: the answer is a checked group of five characters, all bytes of its value; the fixed groups are
evaluated. -/
theorem dec5AnswersFourBytes : Obligations.Dec5AnswersFourBytes := by
  refine ⟨fun w h => ?_, fun c0 c1 c2 c3 c4 s => ?_, exec_dec5 (by decide), exec_dec5 (by decide),
    exec_dec5 (by decide), exec_dec5 (by decide), exec_dec5 (by decide), exec_dec5 (by decide), exec_dec5 (by decide)⟩
  · simpa [decodeDec, lane_commandOf] using decode_of_decHeader (n := 5) (h.trans (by decide))
  · exact exec_dec5 ((decGroup_eq_checkedFrom rfl).trans (congrArg (checkedFrom _ 0) (valueAnswer_four _))) s

end Sys2Proof.Machine

/-! ## A call between two events of its channel, and its result by atomic transactions (43_stream.md R149, R156;
70_reset_and_hazards.md R209) -/

namespace Sys2Proof.Machine

/-- The call has passed its loop test: it has a group to issue, or it is over. -/
def Call.tested (c : Call) : Prop :=
  (c.stat = .ready ∧ c.i < c.input.size) ∨ c.over

theorem loopTest_of_lt {c : Call} (h : c.i < c.input.size) : c.loopTest = c :=
  if_neg fun hc => Nat.not_le.2 h hc.2

theorem loopTest_of_le {c : Call} (hs : c.stat = .ready) (h : c.input.size ≤ c.i) :
    c.loopTest = { c with stat := .finished (.ok c.w) } :=
  if_pos ⟨hs, h⟩

theorem loopTest_of_over {c : Call} (h : c.over) : c.loopTest = c := by
  obtain ⟨r, hr⟩ := h
  exact if_neg (by simp [hr])

theorem tested_loopTest {c : Call} (h : c.stat = .ready) : c.loopTest.tested := by
  rcases loopTest_cases c with ⟨he, hlt⟩ | ⟨_, _, he⟩
  · rw [he]
    exact .inl ⟨h, hlt h⟩
  · exact .inr ⟨_, by rw [he]⟩

theorem poll_of_ready {c : Call} (h : c.stat = .ready) (p : Params) : c.poll p = .next c.loopTest := by
  unfold Call.poll
  rw [h]

/-- A call that has passed its loop test has nothing to poll for. -/
theorem poll_of_tested {c : Call} (h : c.tested) (p : Params) : c.poll p = .next c := by
  rcases h with ⟨hs, hlt⟩ | ⟨r, hr⟩
  · rw [poll_of_ready hs, loopTest_of_lt hlt]
  · unfold Call.poll
    rw [hr]

theorem mayDrive_iff {c : Call} {e : EngineId} :
    c.mayDrive e = true ↔ c.kind = e ∧ (c.stat = .start ∨ c.stat = .ready) := by
  simp [Call.mayDrive]

theorem stat_of_mayDrive {c : Call} {e : EngineId} (h : c.mayDrive e = true) : c.stat = .start ∨ c.stat = .ready :=
  (mayDrive_iff.1 h).2

/-- A call that polls has passed its loop test. -/
theorem tested_of_poll {p : Params} {c d : Call} {e : EngineId} (hm : c.mayDrive e = true) (h : c.poll p = .next d) :
    d.tested := by
  rcases stat_of_mayDrive hm with hs | hs
  · rw [poll_of_start hs] at h
    obtain ⟨b, hb, h⟩ := andThen_eq_next.1 h
    cases h
    obtain ⟨_, ⟨_, _, rfl⟩ | ⟨_, rfl⟩⟩ := begin_eq_next hb
    · exact .inr ⟨.err .capacity, rfl⟩
    · exact tested_loopTest rfl
  · rw [poll_of_ready hs] at h
    cases h
    exact tested_loopTest hs

@[simp] theorem loopTest_input (c : Call) : c.loopTest.input = c.input := by
  rcases loopTest_cases c with ⟨h, _⟩ | ⟨_, _, h⟩ <;> rw [h]

@[simp] theorem loopTest_i (c : Call) : c.loopTest.i = c.i := by
  rcases loopTest_cases c with ⟨h, _⟩ | ⟨_, _, h⟩ <;> rw [h]

@[simp] theorem loopTest_w (c : Call) : c.loopTest.w = c.w := by
  rcases loopTest_cases c with ⟨h, _⟩ | ⟨_, _, h⟩ <;> rw [h]

@[simp] theorem loopTest_output (c : Call) : c.loopTest.output = c.output := by
  rcases loopTest_cases c with ⟨h, _⟩ | ⟨_, _, h⟩ <;> rw [h]

/-- A call that takes the response it waits for passes its loop test next, and goes on after the group. -/
theorem tested_of_take {c d : Call} {r : Word} {n : Nat} (hc : c.stat = .waiting n) (h : c.take r = .next d) :
    d.tested ∧ d.input = c.input ∧ (d.stat = .ready → d.i = c.i + n) := by
  obtain ⟨_, ⟨k, _, rfl⟩ | ⟨_, _, rfl⟩ | ⟨_, _, _, _, rfl⟩⟩ := take_eq_next hc h
  · exact ⟨.inr ⟨.err k, rfl⟩, rfl, nofun⟩
  · exact ⟨.inr ⟨.err .capacity, rfl⟩, rfl, nofun⟩
  · exact ⟨tested_loopTest rfl, loopTest_input _, fun _ => loopTest_i _⟩

/-- The standing of a call is no part of the command it issues. -/
theorem issue_setStat (c : Call) (x : CallStat) :
    ({ c with stat := x } : Call).issue = c.issue := rfl

/-- An atomic transaction is the command of the group, then the taking of its response. -/
theorem transact_eq_next {p : Params} {c d : Call} (h : c.transact p = .next d) :
    ∃ w c', c.issue = .next (w, c') ∧ c'.take (engineResponse p c.kind w) = .next d := by
  obtain ⟨⟨w, c'⟩, hi, ht⟩ := andThen_eq_next.1 h
  exact ⟨w, c', hi, ht⟩

/-- The group a call issues leads at least one unit on, and the call has passed its loop test then. -/
theorem tested_of_transact {p : Params} {c d : Call} (hlt : c.i < c.input.size) (h : c.transact p = .next d) :
    d.tested ∧ d.input = c.input ∧ (d.stat = .ready → c.i < d.i) := by
  obtain ⟨w, c', hi, ht⟩ := transact_eq_next h
  obtain ⟨n, us, hn, _, _, hpos⟩ := issue_of_lt hlt
  rw [hi] at hn
  cases hn
  obtain ⟨htest, hin, hi'⟩ := tested_of_take rfl ht
  refine ⟨htest, hin, fun hr => ?_⟩
  have := hi' hr
  dsimp only at this
  omega

theorem andThen_congr {α β : Type} {o : Host.Outcome α Fault Refusal} {f g : α → Host.Outcome β Fault Refusal}
    (h : ∀ a, o = .next a → f a = g a) : andThen o f = andThen o g := by
  cases o with
  | next a => exact h a rfl
  | fault r => rfl
  | refused r => rfl

theorem atomicRun_succ (p : Params) (n : Nat) (c : Call) :
    c.atomicRun p (n + 1) = andThen (c.poll p) fun c' =>
      if c'.stat = .ready then andThen (c'.transact p) (Call.atomicRun p n) else .next c' := rfl

theorem atomicRun_of_over {c : Call} (h : c.over) (p : Params) (n : Nat) : c.atomicRun p n = .next c := by
  cases n with
  | zero => rfl
  | succ n =>
    obtain ⟨r, hr⟩ := h
    rw [atomicRun_succ, poll_of_tested (.inr ⟨r, hr⟩), andThen_next, if_neg (by simp [hr])]

theorem atomicRun_of_ready {c : Call} (hs : c.stat = .ready) (hlt : c.i < c.input.size) (p : Params) (n : Nat) :
    c.atomicRun p (n + 1) = andThen (c.transact p) (Call.atomicRun p n) := by
  rw [atomicRun_succ, poll_of_tested (.inl ⟨hs, hlt⟩), andThen_next, if_pos hs]

/-- A run goes on from what the poll makes of the call. -/
theorem atomicRun_of_poll {p : Params} {c d : Call} (hd : d.tested) (h : c.poll p = .next d) (n : Nat) :
    c.atomicRun p (n + 1) = d.atomicRun p (n + 1) := by
  rw [atomicRun_succ, atomicRun_succ, h, poll_of_tested hd]

/-- As many groups as there are units left end the call, so more of them change nothing. -/
theorem atomicRun_fuel {p : Params} {c : Call} {n : Nat} (hc : c.tested) (hn : c.input.size ≤ c.i + n) :
    c.atomicRun p (n + 1) = c.atomicRun p n := by
  induction n generalizing c with
  | zero =>
    rcases hc with ⟨_, hlt⟩ | ho
    · omega
    · rw [atomicRun_of_over ho, atomicRun_of_over ho]
  | succ n ih =>
    rcases hc with ⟨hs, hlt⟩ | ho
    · rw [atomicRun_of_ready hs hlt, atomicRun_of_ready hs hlt]
      refine andThen_congr fun d hd => ?_
      obtain ⟨htest, hin, hi⟩ := tested_of_transact hlt hd
      rcases htest with ⟨hr, hlt'⟩ | ho
      · have := hi hr
        exact ih (.inl ⟨hr, hlt'⟩) (by rw [hin]; omega)
      · rw [atomicRun_of_over ho, atomicRun_of_over ho]
    · rw [atomicRun_of_over ho, atomicRun_of_over ho]

theorem verdict_of_waiting {c : Call} {n : Nat} (h : c.stat = .waiting n) (p : Params) :
    c.verdict p = reportOf (andThen (c.transact p) (Call.atomicRun p (c.input.size + 1))) := by
  unfold Call.verdict
  rw [h]

theorem verdict_of_over {c : Call} (h : c.over) (p : Params) : c.verdict p = c.report := by
  obtain ⟨r, hr⟩ := h
  unfold Call.verdict
  rw [hr]

theorem verdict_of_mayDrive {c : Call} {e : EngineId} (h : c.mayDrive e = true) (p : Params) :
    c.verdict p = reportOf (c.atomicRun p (c.input.size + 1)) := by
  unfold Call.verdict
  rcases stat_of_mayDrive h with hs | hs <;> rw [hs]

theorem verdict_of_tested {c : Call} (h : c.tested) (p : Params) :
    c.verdict p = reportOf (c.atomicRun p (c.input.size + 1)) := by
  rcases h with ⟨hs, _⟩ | ho
  · exact verdict_of_mayDrive (mayDrive_iff.2 ⟨rfl, .inr hs⟩) p
  · rw [verdict_of_over ho, atomicRun_of_over ho]
    rfl

/-! ## The moves of a call in the machine (43_stream.md R166; 70_reset_and_hazards.md R201, R203) -/

/-- What an edge without reset makes of a call: it polls, it waits once its command is accepted, it takes the response to
its command, and its `OUT` is unspecified once it has returned `Err`. -/
inductive Call.Move (p : Params) : Call → Call → Prop where
  | poll {c d : Call} (hm : c.mayDrive c.kind = true) (h : c.poll p = .next d) : Move p c d
  | issue {c d : Call} {w : Word} (hs : c.stat = .ready) (hlt : c.i < c.input.size) (h : c.issue = .next (w, d)) :
      Move p c d
  | take {c d : Call} {w : Word} (hlt : c.i < c.input.size) (hi : c.issue = .next (w, c))
      (h : c.take (engineResponse p c.kind w) = .next d) : Move p c d
  | free {c : Call} {k : ErrKind} (h : c.stat = .finished (.err k)) (n : Nat) :
      Move p c { c with output := c.output.freed n }

/-- Any number of moves. -/
abbrev Call.Moves (p : Params) : Call → Call → Prop := Relation.ReflTransGen (Call.Move p)

/-- A call that waits for the response to the command it would issue is waiting. -/
theorem waiting_of_issue {c : Call} {w : Word} (h : c.issue = .next (w, c)) : ∃ n, c.stat = .waiting n := by
  obtain ⟨n, _, _, _, _, hc⟩ := issue_eq_next h
  exact ⟨n, congrArg Call.stat hc⟩

/-- No move of a call changes what it returns when it is run on to its end. -/
theorem verdict_of_move {p : Params} {c d : Call} (h : c.Move p d) : d.verdict p = c.verdict p := by
  cases h with
  | poll hm h =>
    have htest := tested_of_poll hm h
    obtain ⟨_, _, hin, _⟩ := poll_eq_next hm h
    rw [verdict_of_mayDrive hm, verdict_of_tested htest, hin, atomicRun_of_poll htest h]
  | issue hs hlt h =>
    obtain ⟨n, us, _, _, _, rfl⟩ := issue_eq_next h
    rw [verdict_of_waiting (n := n) rfl, verdict_of_tested (.inl ⟨hs, hlt⟩), atomicRun_of_ready hs hlt]
    refine congrArg reportOf (andThen_congr (o := c.transact p) fun a ha => ?_)
    obtain ⟨htest, hin, _⟩ := tested_of_transact hlt ha
    exact atomicRun_fuel htest (by rw [hin]; exact Nat.le_add_left ..)
  | take hlt hi h =>
    obtain ⟨n, hn⟩ := waiting_of_issue hi
    obtain ⟨htest, hin, _⟩ := tested_of_take hn h
    have htrans : c.transact p = .next d := by rw [Call.transact, hi, andThen_next, h]
    rw [verdict_of_waiting hn, htrans, andThen_next, verdict_of_tested htest, hin]
  | free h n =>
    rw [verdict_of_over ⟨_, h⟩, verdict_of_over (c := { c with output := c.output.freed n }) ⟨_, h⟩]
    simp [Call.report, h]

theorem verdict_of_moves {p : Params} {c d : Call} (h : c.Moves p d) : d.verdict p = c.verdict p := by
  induction h with
  | refl => rfl
  | tail _ hm ih => exact (verdict_of_move hm).trans ih

/-- Every call of `s` stands under its number in `t`, some moves on. -/
def callsMove (p : Params) (s t : State) : Prop :=
  ∀ (k : Nat) (c : Call), s.calls[k]? = some c → ∃ d, t.calls[k]? = some d ∧ c.Moves p d

theorem callsMove_of_eq {p : Params} {s t : State} (h : t.calls = s.calls) : callsMove p s t :=
  fun _ c hc => ⟨c, h ▸ hc, .refl⟩

theorem callsMove.trans {p : Params} {s t u : State} (h : callsMove p s t) (h' : callsMove p t u) :
    callsMove p s u := by
  intro k c hc
  obtain ⟨d, hd, hcd⟩ := h k c hc
  obtain ⟨b, hb, hdb⟩ := h' k d hd
  exact ⟨b, hb, hcd.trans hdb⟩

/-- Storing what a call moved to. -/
theorem callsMove_putCall {p : Params} {k : Nat} {c d : Call} {s : State} (hc : s.calls[k]? = some c)
    (h : c.Moves p d) : callsMove p s (putCall k d s) := by
  intro j b hb
  by_cases hj : j = k
  · subst hj
    cases hc.symm.trans hb
    obtain ⟨hlt, _⟩ := List.getElem?_eq_some_iff.1 hc
    obtain ⟨out, n, hp, ⟨rfl, _⟩ | ⟨rfl, _, x, hx⟩⟩ := putCall_eq j d s
    · exact ⟨d, by simp [hp, hlt], h⟩
    · exact ⟨_, by simp [hp, hlt], h.tail (.free hx s.free)⟩
  · exact ⟨b, (putCall_calls_other hj ..).trans hb, .refl⟩

/-- The host's turn lets a call poll, and a call that offers its next command then stands under its number. -/
theorem offer_callsMove {e : EngineId} {x : Port} {s u : State} {o : Option Offer} (h : offer e x s = .next (u, o)) :
    callsMove s.params s u ∧
      ∀ w k d, o = some (w, some (k, d)) → ∃ c, u.calls[k]? = some c ∧ c.Moves s.params d := by
  rcases offer_eq_next h with ⟨rfl, rfl | ⟨_, _, rfl⟩⟩ | ⟨k, c, c1, _, hc, hm, hp, rfl, ho⟩
  · exact ⟨callsMove_of_eq rfl, nofun⟩
  · exact ⟨callsMove_of_eq rfl, nofun⟩
  · have hmove : callsMove s.params s (putCall k c1 s) :=
      callsMove_putCall hc (.single (.poll (mayDrive_kind hm ▸ hm) hp))
    refine ⟨hmove, fun w j d hj => ?_⟩
    rcases ho with ⟨hr, w', c2, hi, rfl⟩ | ⟨_, rfl⟩
    · cases hj
      obtain ⟨_, _, _, _, _, _, _, hlt⟩ := poll_eq_next hm hp
      obtain ⟨hk, _⟩ := List.getElem?_eq_some_iff.1 hc
      obtain ⟨b, hb, _, heq⟩ := putCall_calls_same (c := c1) hk
      obtain rfl : b = c1 := heq (by simp [hr])
      exact ⟨b, hb, .single (.issue hr (hlt hr) hi)⟩
    · cases hj

theorem acceptOffer_callsMove {p : Params} {e : EngineId} {o : Offer} {n : Nat} {s : State}
    (ho : ∀ k d, o.2 = some (k, d) → ∃ c, s.calls[k]? = some c ∧ c.Moves p d) :
    callsMove p s (acceptOffer e o n s) := by
  obtain ⟨w, _ | ⟨k, d⟩⟩ := o
  · exact callsMove_of_eq (by simp [acceptOffer])
  · obtain ⟨c, hc, hcd⟩ := ho k d rfl
    exact (callsMove_putCall hc hcd).trans (callsMove_of_eq (by simp [acceptOffer]))

/-- The response of a `DONE` engine is taken by the call whose command it belongs to. -/
theorem retireEdge_callsMove {e : EngineId} {s t : State} (hp : (s.engine e).phase = .done)
    (hr : responseMatches e s) (ho : ownerMatches e s) (h : retireEdge e s = .next t) : callsMove s.params s t := by
  have hretire : callsMove s.params s (retire e s) := callsMove_of_eq (retire_calls e s)
  rcases retireEdge_eq_next h with rfl | ⟨k, c, n, d, hk, hc, _, hd, rfl⟩
  · exact hretire
  · obtain ⟨_, c', hc', hkind, hlt, hi⟩ := ho k hk
    cases hc.symm.trans hc'
    subst hkind
    rw [rspData, hr hp] at hd
    exact hretire.trans (callsMove_putCall (by rwa [retire_calls]) (.single (.take hlt hi hd)))

theorem engineEdge_callsMove {e : EngineId} {x : Port} {o : Option Offer} {s t : State} (hr : responseMatches e s)
    (ho : ownerMatches e s) (hoffer : ∀ w k d, o = some (w, some (k, d)) → ∃ c, s.calls[k]? = some c ∧ c.Moves s.params d)
    (h : engineEdge e x o s = .next t) : callsMove s.params s t := by
  rcases engineEdge_eq_next h with
    ⟨_, _, rfl⟩ | ⟨_, ⟨w, b⟩, rfl, rfl⟩ | ⟨_, _, hx⟩ | ⟨_, _, rfl⟩ | ⟨_, _, rfl⟩ | ⟨hp, _, hret⟩
  · exact callsMove_of_eq rfl
  · exact acceptOffer_callsMove fun k d hkd => hoffer w k d (hkd ▸ rfl)
  · obtain ⟨v, hv⟩ := execute_answers e s
    cases hv.symm.trans hx
    exact callsMove_of_eq (answered_calls e v s)
  · exact callsMove_of_eq (tick_calls e s)
  · exact callsMove_of_eq rfl
  · exact retireEdge_callsMove hp hr ho hret

theorem channelEdge_callsMove {e : EngineId} {x : Port} {s t : State} (hr : responseMatches e s)
    (ho : ownerMatches e s) (h : channelEdge e x s = .next t) : callsMove s.params s t := by
  obtain ⟨u, o, hu, ht⟩ := channelEdge_eq_next.1 h
  obtain ⟨hE, _, hp, _⟩ := offer_frame hu
  obtain ⟨hmove, hoffer⟩ := offer_callsMove hu
  rw [← hp] at hoffer
  have := engineEdge_callsMove (responseMatches_congr (hE e) hp hr) (offer_keeps_ownerMatches ho hu) hoffer ht
  exact hmove.trans (hp ▸ this)

/-- Under the invariant an edge without reset only moves calls on. -/
theorem step_callsMove {s t : State} (hi : s.Inv) (hr : s.edge.rst = false) (h : step s = .next t) :
    callsMove s.params s t := by
  rcases step_eq_next.1 h with ⟨hrst, _⟩ | ⟨_, u, hu, ht⟩
  · rw [hr] at hrst
    cases hrst
  · obtain ⟨hengines, _⟩ := hi
    obtain ⟨hre, _, hoe⟩ := hengines .enc
    obtain ⟨hrd, _, hod⟩ := hengines .dec
    have hpop := seenAlike_popEdge .enc s
    have howner := ownerMatches_congr hpop hoe
    have hsu : seenAlike .dec s u := (seenAlike_popEdge .dec s).trans (channelEdge_seenAlike (by decide) howner hu)
    obtain ⟨hed, _, hpu, _⟩ := id hsu
    have henc := channelEdge_callsMove (responseMatches_congr hpop.1.symm rfl hre) howner hu
    have hdec := channelEdge_callsMove (responseMatches_congr hed.symm hpu.symm hrd) (ownerMatches_congr hsu hod) ht
    rw [← hpu] at hdec
    exact (callsMove_of_eq (popEdge_calls s)).trans (henc.trans hdec)

/-- Settles O55: an edge without reset only moves calls on, and no move changes a call's result. -/
theorem stepKeepsEveryCallsResult : Obligations.StepKeepsEveryCallsResult := by
  intro s t k c hi hr h hc
  obtain ⟨d, hd, hcd⟩ := step_callsMove hi hr h k c hc
  obtain ⟨hp, _⟩ := parametersNeverChange s t h
  rw [hp]
  exact ⟨d, hd, verdict_of_moves hcd⟩

/-! ### What moves leave alone (20_memory.md R50, R53; 43_stream.md R162) -/

/-- The call's buffers are where and what they were, but for the contents of `OUT`, which stay canonical. -/
def Call.keepsBuffers (c d : Call) : Prop :=
  d.input = c.input ∧ d.output.size = c.output.size ∧ d.kind = c.kind ∧ d.inAddr = c.inAddr ∧
    d.outAddr = c.outAddr ∧ (c.output.wf = true → d.output.wf = true)

theorem Call.keepsBuffers.trans {b c d : Call} (h : b.keepsBuffers c) (h' : c.keepsBuffers d) : b.keepsBuffers d := by
  obtain ⟨h1, h2, h3, h4, h5, h6⟩ := h
  obtain ⟨g1, g2, g3, g4, g5, g6⟩ := h'
  exact ⟨g1.trans h1, g2.trans h2, g3.trans h3, g4.trans h4, g5.trans h5, g6 ∘ h6⟩

theorem keepsBuffers_setStat (c : Call) (x : CallStat) : c.keepsBuffers { c with stat := x } :=
  ⟨rfl, rfl, rfl, rfl, rfl, id⟩

theorem keepsBuffers_loopTest (c : Call) : c.keepsBuffers c.loopTest := by
  rcases loopTest_cases c with ⟨h, _⟩ | ⟨_, _, h⟩ <;> rw [h]
  · exact keepsBuffers_setStat c c.stat
  · exact keepsBuffers_setStat c _

theorem keepsBuffers_freed (c : Call) (n : Nat) : c.keepsBuffers { c with output := c.output.freed n } := by
  obtain ⟨hwf, hsize, _⟩ := Buffer.freed_spec c.output n
  exact ⟨rfl, hsize, rfl, rfl, rfl, fun _ => hwf⟩

theorem Buffer.size_of_writeAll {vs : List Byte} {b c : Buffer} {i : Nat} (h : b.writeAll i vs = some c) :
    c.size = b.size := by
  induction vs generalizing b i with
  | nil =>
    cases h
    rfl
  | cons v vs ih =>
    simp only [Buffer.writeAll] at h
    split at h
    · next b' hw =>
      obtain ⟨_, hs, _⟩ := Buffer.write_eq_some hw
      exact (ih h).trans hs
    · cases h

theorem Buffer.wf_of_writeAll {vs : List Byte} {b c : Buffer} {i : Nat} (h : b.writeAll i vs = some c)
    (hb : b.wf = true) : c.wf = true := by
  obtain ⟨_, hc, _⟩ := Buffer.writeAll_eq_some hb h
  exact hc

theorem keepsBuffers_of_take {c d : Call} {r : Word} (h : c.take r = .next d) : c.keepsBuffers d := by
  by_cases hw : ∃ n, c.stat = .waiting n
  · obtain ⟨n, hn⟩ := hw
    obtain ⟨_, ⟨_, _, rfl⟩ | ⟨_, _, rfl⟩ | ⟨_, _, out, hout, rfl⟩⟩ := take_eq_next hn h
    · exact keepsBuffers_setStat c _
    · exact keepsBuffers_setStat c _
    · have hkeeps : c.keepsBuffers { c with output := out, w := c.w + rspOcnt r, i := c.i + n, stat := .ready } :=
        ⟨rfl, Buffer.size_of_writeAll hout, rfl, rfl, rfl, Buffer.wf_of_writeAll hout⟩
      exact hkeeps.trans (keepsBuffers_loopTest _)
  · rw [take_of_not_waiting fun n hn => hw ⟨n, hn⟩] at h
    cases h
    exact keepsBuffers_setStat c c.stat

theorem keepsBuffers_of_move {p : Params} {c d : Call} (h : c.Move p d) : c.keepsBuffers d := by
  cases h with
  | poll hm h =>
    obtain ⟨_, hk, hin, hout, hia, hoa, _⟩ := poll_eq_next hm h
    exact ⟨hin, by rw [hout], hk, hia, hoa, fun hwf => by rwa [hout]⟩
  | issue _ _ h =>
    obtain ⟨n, _, _, _, _, rfl⟩ := issue_eq_next h
    exact keepsBuffers_setStat c _
  | take _ _ h => exact keepsBuffers_of_take h
  | free _ n => exact keepsBuffers_freed c n

theorem keepsBuffers_of_moves {p : Params} {c d : Call} (h : c.Moves p d) : c.keepsBuffers d := by
  induction h with
  | refl => exact keepsBuffers_setStat c c.stat
  | tail _ hm ih => exact ih.trans (keepsBuffers_of_move hm)

/-- Under the invariant a step, also one with reset, keeps every call's buffers. -/
theorem step_keepsBuffers {s t : State} {k : Nat} {c : Call} (hi : s.Inv) (h : step s = .next t)
    (hc : s.calls[k]? = some c) : ∃ d, t.calls[k]? = some d ∧ c.keepsBuffers d := by
  cases hr : s.edge.rst with
  | true =>
    cases (step_of_rst hr).symm.trans h
    obtain ⟨m, hm⟩ := getElem_cutCalls (n := s.popEdge.free) hc
    refine ⟨_, hm, ?_⟩
    split
    · exact (keepsBuffers_freed c m).trans (keepsBuffers_setStat _ _)
    · exact keepsBuffers_setStat c c.stat
  | false =>
    obtain ⟨d, hd, hcd⟩ := step_callsMove hi hr h k c hc
    exact ⟨d, hd, keepsBuffers_of_moves hcd⟩

/-- A response is written at `[w, w + ocnt)` only, and `w` stays in the buffer. -/
theorem take_writes {c d : Call} {r : Word} (hc : callOk c) (h : c.take r = .next d) :
    d.w ≤ max c.w d.output.size ∧
      ∀ a, a < c.w ∨ c.w + rspOcnt r ≤ a → d.output.mem.read a = c.output.mem.read a := by
  by_cases hw : ∃ n, c.stat = .waiting n
  · obtain ⟨n, hn⟩ := hw
    obtain ⟨_, ⟨_, _, rfl⟩ | ⟨_, _, rfl⟩ | ⟨_, hle, out, hout, rfl⟩⟩ := take_eq_next hn h
    · exact ⟨Nat.le_max_left .., fun _ _ => rfl⟩
    · exact ⟨Nat.le_max_left .., fun _ _ => rfl⟩
    · obtain ⟨_, hwf, _⟩ := hc
      obtain ⟨hsize, _, _, hread⟩ := Buffer.writeAll_eq_some hwf hout
      simp only [loopTest_w, loopTest_output]
      refine ⟨hsize ▸ le_max_of_le_right hle, fun a ha => ?_⟩
      rw [hread, if_neg (by rw [responseUnits_length]; omega)]
  · rw [take_of_not_waiting fun n hn => hw ⟨n, hn⟩] at h
    cases h
    exact ⟨Nat.le_max_left .., fun _ _ => rfl⟩

/-- Settles O57: moves and resets keep a call's buffers, and taking a response writes its units alone. -/
theorem noWriteBeyondTheCapacity : Obligations.NoWriteBeyondTheCapacity := by
  refine ⟨fun s t k c hi h hc => ?_, fun c d r hc h => ?_⟩
  · obtain ⟨d, hd, hin, hsize, hk, hia, hoa, hwf⟩ := step_keepsBuffers hi h hc
    obtain ⟨_, hout, _⟩ := hi.2 c (List.mem_of_getElem? hc)
    exact ⟨d, hd, hin, hsize, hwf hout, hk, hia, hoa⟩
  · obtain ⟨hle, hread⟩ := take_writes hc h
    obtain ⟨_, hsize, _⟩ := keepsBuffers_of_take h
    exact ⟨hle, hsize, hread⟩

end Sys2Proof.Machine

/-! ## The groups of a call's input, and what each is answered (43_stream.md R148, R155; 41_encoder.md R101 to R106;
42_decoder.md R133) -/

namespace Sys2Proof.Machine

/-- How many units the first group of what is left of an input has: `min(4, remaining)` bytes (43_stream.md R148), or one
character if it is `z`, else `min(5, remaining)` (R155). -/
def unitCount : EngineId → List Byte → Nat
  | .enc, us => min 4 us.length
  | .dec, us => if us.head? = some shortcutChar then 1 else min 5 us.length

/-- The first group of what is left of an input. -/
def firstGroup (e : EngineId) (us : List Byte) : List Byte := us.take (unitCount e us)

/-- What is left of an input after its first group. -/
def afterGroup (e : EngineId) (us : List Byte) : List Byte := us.drop (unitCount e us)

theorem unitCount_bounds {us : List Byte} (h : us ≠ []) (e : EngineId) :
    1 ≤ unitCount e us ∧ unitCount e us ≤ us.length ∧ unitCount e us ≤ e.maxCount := by
  have hpos := List.length_pos_of_ne_nil h
  cases e with
  | enc =>
    dsimp only [unitCount, EngineId.maxCount]
    omega
  | dec =>
    dsimp only [unitCount, EngineId.maxCount]
    split <;> omega

theorem length_firstGroup {us : List Byte} (h : us ≠ []) (e : EngineId) :
    (firstGroup e us).length = unitCount e us := by
  obtain ⟨_, hle, _⟩ := unitCount_bounds h e
  rw [firstGroup, List.length_take, Nat.min_eq_left hle]

theorem firstGroup_append_afterGroup (e : EngineId) (us : List Byte) : firstGroup e us ++ afterGroup e us = us :=
  List.take_append_drop ..

theorem length_afterGroup (e : EngineId) (us : List Byte) :
    (afterGroup e us).length = us.length - unitCount e us :=
  List.length_drop ..

/-- What holds of the empty input, and of an input if it does of what follows its first group, holds of every input. -/
theorem group_induction (e : EngineId) {motive : List Byte → Prop} (nil : motive [])
    (step : ∀ us, us ≠ [] → motive (afterGroup e us) → motive us) (us : List Byte) : motive us := by
  induction hn : us.length using Nat.strong_induction_on generalizing us with
  | _ n ih =>
    by_cases h : us = []
    · exact h ▸ nil
    · obtain ⟨hpos, hle, _⟩ := unitCount_bounds h e
      exact step us h (ih _ (by rw [length_afterGroup]; omega) _ rfl)

/-- The text of a byte sequence is that of its first group, then that of the rest. -/
theorem encodeText_eq_firstGroup (us : List Byte) :
    encodeText us = encodeText (firstGroup .enc us) ++ encodeText (afterGroup .enc us) := by
  match us with
  | [] | [_] | [_, _] | [_, _, _] => simp [firstGroup, afterGroup, unitCount, encodeText]
  | a :: b :: c :: d :: rest => simp [firstGroup, afterGroup, unitCount, encodeText]

/-- The groups of a text are its first group and those of the rest. -/
theorem textGroups_eq_firstGroup {us : List Byte} (h : us ≠ []) :
    textGroups us = firstGroup .dec us :: textGroups (afterGroup .dec us) := by
  match us, h with
  | [c0], _ | [c0, _], _ | [c0, _, _], _ | [c0, _, _, _], _ | c0 :: _ :: _ :: _ :: _ :: _, _ =>
    by_cases hz : c0 = shortcutChar <;> simp [firstGroup, afterGroup, unitCount, textGroups, hz]

/-- What the group `us` is answered by engine `e`: its characters, or its bytes or error. -/
def groupOutput (policy : LoneTailPolicy) : EngineId → List Byte → Except ErrKind (List Byte)
  | .enc, us => .ok (encodeText us)
  | .dec, us => groupBytes policy us

/-- The response tells a call of engine `e` this outcome of a group. -/
def tells (e : EngineId) (r : Word) : Except ErrKind (List Byte) → Prop
  | .ok us => responseError r = none ∧ responseUnits e r = us
  | .error k => responseError r = some k

theorem responseError_of_ok {r : Word} (h : rspStatus r = statusCode .ok) : responseError r = none := by
  simp [responseError, h]

theorem responseError_badDecodeChar (k : Nat) : responseError (raise .badDecodeChar k) = some .badDecodeChar := by
  simp [responseError, raise]

theorem responseError_decodeOverflow (k : Nat) : responseError (raise .decodeOverflow k) = some .decodeOverflow := by
  simp [responseError, raise]

/-- The text of one group of bytes. -/
theorem encodeText_group {us : List Byte} (h0 : us ≠ []) (h : us.length ≤ 4) :
    encodeText us =
      if us.length = 4 ∧ accOfUnits us = 0 then [shortcutChar] else charsOf (accOfUnits us) (us.length + 1) := by
  match us, h0, h with
  | [_], _, _ | [_, _], _, _ | [_, _, _], _, _ => rfl
  | [a, b, c, d], _, _ => simp [encodeText, accOfUnits]

theorem encAnswer_tells {us : List Byte} (h0 : us ≠ []) (h : us.length ≤ 4) :
    tells .enc (encAnswer (accOfUnits us) us.length) (.ok (encodeText us)) := by
  obtain ⟨hstatus, _⟩ := encAnswer_answersWith (accOfUnits us) h
  refine ⟨responseError_of_ok hstatus, ?_⟩
  rw [encodeText_group h0 h, encAnswer, if_neg (by simpa using h0)]
  split
  · decide
  · exact responseUnits_encGroup _ h

/-- The validator finds a character that is no digit. -/
theorem firstInvalid_of_any {cs : List Byte} (h : cs.any (fun c => !isDigit c) = true) (j : Nat) :
    ∃ k, firstInvalid cs j = some k := by
  induction cs generalizing j with
  | nil => cases h
  | cons c cs ih =>
    by_cases hc : isDigit c = true
    · rw [firstInvalid, if_pos hc]
      exact ih (by simpa [hc] using h) _
    · exact ⟨j, if_neg hc⟩

theorem decAnswer_tells {cs : List Byte} (h0 : cs ≠ []) (h : cs.length ≤ 5) (policy : LoneTailPolicy) :
    tells .dec (decAnswer policy cs) (groupBytes policy cs) := by
  unfold decAnswer groupBytes
  rw [if_neg h0]
  split
  · exact ⟨responseError_of_ok (rspStatus_pack ..), by decide⟩
  split
  · exact responseError_badDecodeChar 0
  split
  · next hany =>
    obtain ⟨k, hk⟩ := firstInvalid_of_any hany 0
    rw [decGroup_of_firstInvalid hk]
    exact responseError_badDecodeChar k
  · next hany =>
    have hdigits : ∀ c ∈ cs, isDigit c = true := by simpa using hany
    split
    · next hv =>
      rw [decGroup_of_overflow (firstInvalid_of_digits hdigits 0) hv]
      exact responseError_decodeOverflow 0
    · next hv =>
      rw [decGroup_of_fits (firstInvalid_of_digits hdigits 0) (Nat.not_lt.1 hv)]
      exact ⟨responseError_of_ok (rspStatus_pack ..), responseUnits_highBytes _ (by omega) _ _⟩

/-- An engine's response to the command of a group tells what the group is answered. -/
theorem engineResponse_tells {e : EngineId} {us : List Byte} (h0 : us ≠ []) (h : us.length ≤ e.maxCount) (p : Params) :
    tells e (engineResponse p e (groupCommand e us)) (groupOutput p.loneTail e us) := by
  cases e with
  | enc =>
    rw [engineResponse, fEnc_groupCommand h]
    exact encAnswer_tells h0 h
  | dec =>
    rw [engineResponse, fDec_groupCommand h]
    exact decAnswer_tells h0 h p.loneTail

/-! ### All groups of an input (43_stream.md R161, R169) -/

/-- The output units of a whole input, or its first error. -/
def streamUnits (policy : LoneTailPolicy) : EngineId → List Byte → Except ErrKind (List Byte)
  | .enc, us => .ok (encodeText us)
  | .dec, us => decodeText policy us

/-- The output units of the groups before the first one in error. -/
def unitsBeforeError (policy : LoneTailPolicy) : EngineId → List Byte → List Byte
  | .enc, us => encodeText us
  | .dec, us => bytesBeforeError policy us

theorem streamUnits_of_ok {policy : LoneTailPolicy} {e : EngineId} {us vs : List Byte} (h0 : us ≠ [])
    (h : groupOutput policy e (firstGroup e us) = .ok vs) :
    streamUnits policy e us = prepend vs (streamUnits policy e (afterGroup e us)) ∧
      unitsBeforeError policy e us = vs ++ unitsBeforeError policy e (afterGroup e us) := by
  cases e with
  | enc =>
    cases h
    have htext := encodeText_eq_firstGroup us
    exact ⟨congrArg Except.ok htext, htext⟩
  | dec =>
    simp only [streamUnits, unitsBeforeError, decodeText, bytesBeforeError, textGroups_eq_firstGroup h0]
    exact ⟨decodeGroups_cons_ok h _, goodBytes_cons_ok h _⟩

theorem streamUnits_of_error {policy : LoneTailPolicy} {e : EngineId} {us : List Byte} {k : ErrKind} (h0 : us ≠ [])
    (h : groupOutput policy e (firstGroup e us) = .error k) :
    streamUnits policy e us = .error k ∧ unitsBeforeError policy e us = [] := by
  cases e with
  | enc => cases h
  | dec =>
    simp only [streamUnits, unitsBeforeError, decodeText, bytesBeforeError, textGroups_eq_firstGroup h0]
    exact ⟨decodeGroups_cons_error h _, goodBytes_cons_error h _⟩

/-- What a call makes of the rest of its input with this much room left: the capacity fails at the first group that does
not fit, if no group before it is in error (43_stream.md R150, R157, R161). -/
def delivered (policy : LoneTailPolicy) (e : EngineId) (room : Nat) (us : List Byte) : Except ErrKind (List Byte) :=
  if room < (unitsBeforeError policy e us).length then .error .capacity else streamUnits policy e us

theorem delivered_nil (policy : LoneTailPolicy) (e : EngineId) (room : Nat) :
    delivered policy e room [] = .ok [] := by
  cases e <;> exact if_neg (Nat.not_lt_zero room)

theorem delivered_of_error {policy : LoneTailPolicy} {e : EngineId} {us : List Byte} {k : ErrKind} (h0 : us ≠ [])
    (h : groupOutput policy e (firstGroup e us) = .error k) (room : Nat) :
    delivered policy e room us = .error k := by
  obtain ⟨hunits, hbefore⟩ := streamUnits_of_error h0 h
  rw [delivered, hbefore, hunits]
  exact if_neg (Nat.not_lt_zero room)

theorem delivered_of_full {policy : LoneTailPolicy} {e : EngineId} {us vs : List Byte} {room : Nat} (h0 : us ≠ [])
    (h : groupOutput policy e (firstGroup e us) = .ok vs) (hroom : room < vs.length) :
    delivered policy e room us = .error .capacity := by
  obtain ⟨_, hbefore⟩ := streamUnits_of_ok h0 h
  rw [delivered, hbefore]
  exact if_pos (by rw [List.length_append]; omega)

theorem delivered_of_fits {policy : LoneTailPolicy} {e : EngineId} {us vs : List Byte} {room : Nat} (h0 : us ≠ [])
    (h : groupOutput policy e (firstGroup e us) = .ok vs) (hroom : vs.length ≤ room) :
    delivered policy e room us = prepend vs (delivered policy e (room - vs.length) (afterGroup e us)) := by
  obtain ⟨hunits, hbefore⟩ := streamUnits_of_ok h0 h
  rw [delivered, delivered, hbefore, hunits, List.length_append]
  by_cases hlt : room - vs.length < (unitsBeforeError policy e (afterGroup e us)).length
  · rw [if_pos hlt, if_pos (by omega)]
    rfl
  · rw [if_neg hlt, if_neg (by omega)]

/-! ## A call's run by atomic transactions is this outcome (43_stream.md R149, R156) -/

/-- What is left of a call's input. -/
def Call.rest (c : Call) : List Byte := c.input.bytes.drop c.i

theorem Buffer.length_bytes (b : Buffer) : b.bytes.length = b.size := by
  simp [Buffer.bytes, Buffer.take]

theorem Call.length_rest (c : Call) : c.rest.length = c.input.size - c.i := by
  rw [Call.rest, List.length_drop, Buffer.length_bytes]

theorem Call.rest_ne_nil {c : Call} (h : c.i < c.input.size) : c.rest ≠ [] := by
  refine List.ne_nil_of_length_pos ?_
  rw [c.length_rest]
  omega

theorem Call.rest_of_le {c : Call} (h : c.input.size ≤ c.i) : c.rest = [] :=
  List.drop_eq_nil_of_le (by rwa [Buffer.length_bytes])

/-- A run of reads in a buffer gives its bytes. -/
theorem Buffer.readAll_eq_take_drop {b : Buffer} {i n : Nat} (h : i + n ≤ b.size) :
    b.readAll i n = some ((b.bytes.drop i).take n) := by
  rw [Buffer.readAll_eq h]
  refine congrArg some (List.ext_getElem ?_ fun k _ _ => ?_)
  · rw [List.length_map, List.length_range, List.length_take, List.length_drop, Buffer.length_bytes]
    omega
  · simp [Buffer.bytes, Buffer.take]

theorem Call.groupLen_eq {c : Call} (h : c.i < c.input.size) : c.groupLen = some (unitCount c.kind c.rest) := by
  unfold Call.groupLen
  cases hk : c.kind with
  | enc => rw [unitCount, c.length_rest]
  | dec =>
    have hread : c.input.read c.i = some (c.input.mem.read c.i) := if_pos h
    have hhead : c.rest.head? = some (c.input.mem.read c.i) := by
      simp [Call.rest, List.head?_drop, Buffer.bytes, Buffer.take, h]
    simp only [hread, unitCount, hhead, c.length_rest, Option.some.injEq]

/-- The call once the command of its next group is accepted. -/
def Call.awaiting (c : Call) : Call := { c with stat := .waiting (unitCount c.kind c.rest) }

/-- The command a call issues is that of the first group of what is left. -/
theorem issue_eq_firstGroup {c : Call} (h : c.i < c.input.size) :
    c.issue = .next (groupCommand c.kind (firstGroup c.kind c.rest), c.awaiting) := by
  obtain ⟨_, hle, _⟩ := unitCount_bounds (Call.rest_ne_nil h) c.kind
  rw [c.length_rest] at hle
  have hread : c.input.readAll c.i (unitCount c.kind c.rest) = some (firstGroup c.kind c.rest) :=
    Buffer.readAll_eq_take_drop (by omega)
  unfold Call.issue
  simp only [Call.groupLen_eq h, hread, Call.awaiting]

/-- The call after the group whose output `vs` was written, as `out` holds it. -/
def Call.wrote (c : Call) (out : Buffer) (vs : List Byte) : Call :=
  { c with output := out, w := c.w + vs.length, i := c.i + unitCount c.kind c.rest, stat := .ready }

/-! What a call that waits makes of a response it can take. -/

theorem take_of_error {c : Call} {r : Word} {k : ErrKind} (hc : conforms c.kind r = true)
    (h : responseError r = some k) : c.awaiting.take r = .next { c with stat := .finished (.err k) } := by
  simp [Call.take, Call.awaiting, hc, h]

theorem take_of_full {c : Call} {r : Word} (hc : conforms c.kind r = true) (h : responseError r = none)
    (hroom : c.output.size < c.w + rspOcnt r) :
    c.awaiting.take r = .next { c with stat := .finished (.err .capacity) } := by
  simp [Call.take, Call.awaiting, hc, h, hroom]

theorem take_of_fits {c : Call} {r : Word} {out : Buffer} (hc : conforms c.kind r = true) (h : responseError r = none)
    (hroom : c.w + rspOcnt r ≤ c.output.size) (hout : c.output.writeAll c.w (responseUnits c.kind r) = some out) :
    c.awaiting.take r = .next (c.wrote out (responseUnits c.kind r)).loopTest := by
  simp [Call.take, Call.awaiting, Call.wrote, hc, h, Nat.not_lt.2 hroom, hout]

section
variable {c : Call} (p : Params) (hlt : c.i < c.input.size)
include hlt

/-- The command of a group and its response: the response can be taken, and it tells what the group is answered. -/
theorem transact_eq_take :
    ∃ r, c.transact p = c.awaiting.take r ∧ conforms c.kind r = true ∧
      tells c.kind r (groupOutput p.loneTail c.kind (firstGroup c.kind c.rest)) := by
  have hne := Call.rest_ne_nil hlt
  obtain ⟨hpos, _, hmax⟩ := unitCount_bounds hne c.kind
  have hlen := length_firstGroup hne c.kind
  refine ⟨_, by rw [Call.transact, issue_eq_firstGroup hlt, andThen_next], ?_, ?_⟩
  · exact conforms_engineResponse (groupCommand_legalFor (hlen ▸ hmax)) p
  · exact engineResponse_tells (List.ne_nil_of_length_pos (hlen ▸ hpos)) (hlen ▸ hmax) p

theorem transact_of_error {k : ErrKind}
    (h : groupOutput p.loneTail c.kind (firstGroup c.kind c.rest) = .error k) :
    c.transact p = .next { c with stat := .finished (.err k) } := by
  obtain ⟨r, ht, hc, htells⟩ := transact_eq_take p hlt
  rw [h] at htells
  rw [ht, take_of_error hc htells]

theorem transact_of_full {vs : List Byte}
    (h : groupOutput p.loneTail c.kind (firstGroup c.kind c.rest) = .ok vs) (hroom : c.output.size < c.w + vs.length) :
    c.transact p = .next { c with stat := .finished (.err .capacity) } := by
  obtain ⟨r, ht, hc, htells⟩ := transact_eq_take p hlt
  rw [h] at htells
  obtain ⟨herr, rfl⟩ := htells
  rw [responseUnits_length] at hroom
  rw [ht, take_of_full hc herr hroom]

theorem transact_of_fits {vs : List Byte}
    (h : groupOutput p.loneTail c.kind (firstGroup c.kind c.rest) = .ok vs) (hroom : c.w + vs.length ≤ c.output.size) :
    ∃ out, c.output.writeAll c.w vs = some out ∧
      c.transact p = .next (c.wrote out vs).loopTest := by
  obtain ⟨r, ht, hc, htells⟩ := transact_eq_take p hlt
  rw [h] at htells
  obtain ⟨herr, rfl⟩ := htells
  obtain ⟨out, hout⟩ := Buffer.writeAll_isSome hroom
  refine ⟨out, hout, ?_⟩
  rw [responseUnits_length] at hroom
  rw [ht, take_of_fits hc herr hroom hout]

end

theorem Buffer.writeAll_append {b c : Buffer} {i : Nat} {us : List Byte} (h : b.writeAll i us = some c)
    (vs : List Byte) : b.writeAll i (us ++ vs) = c.writeAll (i + us.length) vs := by
  induction us generalizing b i with
  | nil =>
    cases h
    rfl
  | cons u us ih =>
    simp only [Buffer.writeAll] at h
    simp only [List.cons_append, Buffer.writeAll]
    split at h
    · rw [ih h, List.length_cons, Nat.add_assoc, Nat.add_comm 1]
    · cases h

/-- The report of a call that has written up to `w` in `old` and makes this of the rest of its input. -/
def reportFrom (old : Buffer) (w : Nat) : Except ErrKind (List Byte) → Option (CallResult × Option Buffer)
  | .ok us => (old.writeAll w us).map fun out => (.ok (w + us.length), some out)
  | .error k => some (.err k, none)

theorem reportFrom_prepend {old out : Buffer} {w : Nat} {us : List Byte} (h : old.writeAll w us = some out)
    (x : Except ErrKind (List Byte)) : reportFrom old w (prepend us x) = reportFrom out (w + us.length) x := by
  cases x with
  | ok vs => simp only [prepend, reportFrom, Buffer.writeAll_append h, List.length_append, Nat.add_assoc]
  | error k => rfl

theorem atomicRun_report_of_le (p : Params) {n : Nat} {c : Call} (hs : c.stat = .ready) (hle : c.input.size ≤ c.i) :
    reportOf (c.loopTest.atomicRun p n) =
      reportFrom c.output c.w (delivered p.loneTail c.kind (c.output.size - c.w) c.rest) := by
  rw [loopTest_of_le hs hle, atomicRun_of_over ⟨_, rfl⟩, Call.rest_of_le hle, delivered_nil]
  rfl

/-- A call between groups, run on to its end, reports what its groups make of the room it has left. -/
theorem atomicRun_report (p : Params) {n : Nat} {c : Call} (hs : c.stat = .ready) (hn : c.input.size ≤ c.i + n)
    (hw : c.w ≤ c.output.size) :
    reportOf (c.loopTest.atomicRun p n) =
      reportFrom c.output c.w (delivered p.loneTail c.kind (c.output.size - c.w) c.rest) := by
  induction n generalizing c with
  | zero => exact atomicRun_report_of_le p hs hn
  | succ n ih =>
    rcases Nat.lt_or_ge c.i c.input.size with hlt | hle
    · have hne := Call.rest_ne_nil hlt
      obtain ⟨hpos, _⟩ := unitCount_bounds hne c.kind
      rw [loopTest_of_lt hlt, atomicRun_of_ready hs hlt]
      cases ho : groupOutput p.loneTail c.kind (firstGroup c.kind c.rest) with
      | error k =>
        rw [transact_of_error p hlt ho, andThen_next, atomicRun_of_over ⟨_, rfl⟩, delivered_of_error hne ho]
        rfl
      | ok vs =>
        rcases Nat.lt_or_ge c.output.size (c.w + vs.length) with hfull | hfits
        · rw [transact_of_full p hlt ho hfull, andThen_next, atomicRun_of_over ⟨_, rfl⟩,
            delivered_of_full hne ho (by omega)]
          rfl
        · obtain ⟨out, hout, ht⟩ := transact_of_fits p hlt ho hfits
          have hsize := Buffer.size_of_writeAll hout
          have hroom : out.size - (c.w + vs.length) = c.output.size - c.w - vs.length := by omega
          have hrest : (c.wrote out vs).rest = afterGroup c.kind c.rest := by
            rw [afterGroup, Call.rest, Call.rest, List.drop_drop]
            rfl
          rw [ht, andThen_next, ih rfl, hrest, delivered_of_fits hne ho (by omega), reportFrom_prepend hout, ← hroom]
          · rfl
          · dsimp only [Call.wrote]
            omega
          · dsimp only [Call.wrote]
            omega
    · exact atomicRun_report_of_le p hs hle

/-! ## What a call that can be made returns (43_stream.md R150, R151, R157, R158, R161, R169) -/

/-- The call begun: `i = 0; w = 0`, and its loop ahead. -/
def Call.begun (c : Call) : Call := { c with i := 0, w := 0, stat := .ready }

/-- The up-front check of `WORST_CASE` fails (43_stream.md R151, R158). -/
def Call.failsUpFront (p : Params) (c : Call) : Prop :=
  p.capacityCheck = .worstCase ∧ c.output.size < worstCase c.kind c.input.size

section
variable {c : Call} {e : EngineId} {p : Params} (hc : c.valid e)
include hc

theorem Call.valid.mayDrive : c.mayDrive e = true := by
  obtain ⟨hk, hs, _⟩ := hc
  exact mayDrive_iff.2 ⟨hk, .inl hs⟩

theorem poll_of_failsUpFront (h : c.failsUpFront p) :
    c.poll p = .next { c with i := 0, w := 0, stat := .finished (.err .capacity) } := by
  obtain ⟨_, hs, _, ho⟩ := hc
  rw [poll_of_start hs, Call.begin, if_neg (by simp [ho]), if_pos (by exact h), andThen_next,
    loopTest_of_over ⟨_, rfl⟩]

theorem poll_of_not_failsUpFront (h : ¬ c.failsUpFront p) : c.poll p = .next c.begun.loopTest := by
  obtain ⟨_, hs, _, ho⟩ := hc
  rw [poll_of_start hs, Call.begin, if_neg (by simp [ho]), if_neg (by exact h), andThen_next]
  rfl

theorem verdict_of_failsUpFront (h : c.failsUpFront p) : c.verdict p = some (.err .capacity, none) := by
  rw [← verdict_of_move (.poll (hc.1 ▸ hc.mayDrive) (poll_of_failsUpFront hc h)), verdict_of_over ⟨_, rfl⟩]
  rfl

theorem verdict_of_not_failsUpFront (h : ¬ c.failsUpFront p) :
    c.verdict p = reportFrom c.output 0 (delivered p.loneTail e c.output.size c.input.bytes) := by
  rw [← verdict_of_move (.poll (hc.1 ▸ hc.mayDrive) (poll_of_not_failsUpFront hc h)),
    verdict_of_tested (tested_loopTest rfl), atomicRun_report p rfl (by simp [Call.begun]) (Nat.zero_le _), ← hc.1]
  rfl

/-- A call that returns `Ok` has passed its check up front, and the units of its whole input fit. -/
theorem streamUnits_of_verdict_ok {len : Nat} {out : Option Buffer} (h : c.verdict p = some (.ok len, out)) :
    ∃ us, streamUnits p.loneTail e c.input.bytes = .ok us ∧ len = us.length := by
  by_cases hf : c.failsUpFront p
  · rw [verdict_of_failsUpFront hc hf] at h
    cases h
  · rw [verdict_of_not_failsUpFront hc hf, delivered] at h
    split at h
    · cases h
    · cases hu : streamUnits p.loneTail e c.input.bytes with
      | error k =>
        rw [hu] at h
        cases h
      | ok us =>
        rw [hu, reportFrom, Option.map_eq_some_iff] at h
        obtain ⟨b, _, h⟩ := h
        cases h
        exact ⟨us, rfl, Nat.zero_add _⟩

end

theorem Call.not_failsUpFront_of_exact {p : Params} (h : p.capacityCheck = .exact) (c : Call) : ¬ c.failsUpFront p := by
  simp [Call.failsUpFront, h]

theorem Buffer.length_take (b : Buffer) (n : Nat) : (b.take n).length = n := by
  simp [Buffer.take]

/-- Units that fit are what `OUT` begins with, and the rest of it is as it was. -/
theorem reportsOk_reportFrom {old : Buffer} {us : List Byte} (hwf : old.wf = true) (h : us.length ≤ old.size) :
    reportsOk (reportFrom old 0 (.ok us)) old us := by
  obtain ⟨out, hout⟩ := Buffer.writeAll_isSome (i := 0) (by rwa [Nat.zero_add])
  obtain ⟨hsize, _, _, hread⟩ := Buffer.writeAll_eq_some hwf hout
  refine ⟨out, by simp [reportFrom, hout], hsize, ?_, fun a ha => ?_⟩
  · refine List.ext_getElem (Buffer.length_take ..) fun k _ hk => ?_
    simp only [Buffer.take, List.getElem_map, List.getElem_range]
    rw [hread, if_pos (by omega), Nat.sub_zero, List.getD_eq_getElem]
  · rw [hread, if_neg (by omega)]

section
variable {c : Call} {e : EngineId} {p : Params} (hc : c.valid e) (hf : ¬ c.failsUpFront p)
include hc hf

/-- A call whose input is answered by units that fit returns `Ok` with them. -/
theorem reportsOk_of_streamUnits {us : List Byte} (hu : streamUnits p.loneTail e c.input.bytes = .ok us)
    (hb : unitsBeforeError p.loneTail e c.input.bytes = us) (hfits : us.length ≤ c.output.size) :
    reportsOk (c.verdict p) c.output us := by
  obtain ⟨_, _, ⟨_, hwf, _⟩, _⟩ := id hc
  rw [verdict_of_not_failsUpFront hc hf, delivered, hb, if_neg (Nat.not_lt.2 hfits), hu]
  exact reportsOk_reportFrom hwf hfits

theorem reportsErr_of_streamUnits {k : ErrKind} (hu : streamUnits p.loneTail e c.input.bytes = .error k)
    (hfits : (unitsBeforeError p.loneTail e c.input.bytes).length ≤ c.output.size) :
    reportsErr (c.verdict p) k := by
  rw [verdict_of_not_failsUpFront hc hf, delivered, if_neg (Nat.not_lt.2 hfits), hu]
  rfl

theorem reportsErr_capacity (hfull : c.output.size < (unitsBeforeError p.loneTail e c.input.bytes).length) :
    reportsErr (c.verdict p) .capacity := by
  rw [verdict_of_not_failsUpFront hc hf, delivered, if_pos hfull]
  rfl

end

/-- Settles O47: a call with nothing to read passes its check and ends at its first loop test. -/
theorem emptyInputGivesOkZero : Obligations.EmptyInputGivesOkZero := by
  intro p e c hc h0
  have hf : ¬ c.failsUpFront p := by
    rintro ⟨_, hlt⟩
    rw [h0] at hlt
    cases hk : c.kind <;> simp [hk, worstCase] at hlt
  have hbytes : c.input.bytes = [] := List.length_eq_zero_iff.1 (c.input.length_bytes.trans h0)
  refine ⟨?_, fun s k x hp hk hx => ?_⟩
  · rw [verdict_of_not_failsUpFront hc hf, hbytes, delivered_nil]
    rfl
  · have hend : c.begun.loopTest = { c.begun with stat := .finished (.ok 0) } := loopTest_of_le rfl h0.le
    have hoffer : offer e x s = .next (putCall k { c.begun with stat := .finished (.ok 0) } s, none) := by
      rw [offer_of_mayDrive hx hk hc.mayDrive, hp, poll_of_not_failsUpFront hc hf, andThen_next, hend]
      rfl
    obtain ⟨hlt, _⟩ := List.getElem?_eq_some_iff.1 hk
    exact ⟨_, _, hoffer, List.getElem?_set_self hlt, rfl, rfl, putCall_engine k _ s .enc, putCall_engine k _ s .dec⟩

/-- Settles O48: the text fits, or the group at which it does not ends the call. -/
theorem encodeReturnsItsTextOrCapacity : Obligations.EncodeReturnsItsTextOrCapacity := by
  intro p c hp hc
  have hf := c.not_failsUpFront_of_exact hp
  exact ⟨reportsOk_of_streamUnits hc hf rfl rfl, reportsErr_capacity hc hf⟩

theorem goodBytes_of_decodeGroups {policy : LoneTailPolicy} {gs : List (List Byte)} {bs : List Byte}
    (h : decodeGroups policy gs = .ok bs) : goodBytes policy gs = bs := by
  induction gs generalizing bs with
  | nil =>
    cases h
    rfl
  | cons g gs ih =>
    cases hg : groupBytes policy g with
    | error k =>
      rw [decodeGroups_cons_error hg] at h
      cases h
    | ok vs =>
      rw [decodeGroups_cons_ok hg] at h
      obtain ⟨rest, hrest, rfl⟩ := prepend_eq_ok h
      rw [goodBytes_cons_ok hg, ih hrest]

/-- A text that decodes to bytes has no error, so they are the bytes before it. -/
theorem bytesBeforeError_of_decodeText {policy : LoneTailPolicy} {text bs : List Byte}
    (h : decodeText policy text = .ok bs) : bytesBeforeError policy text = bs :=
  goodBytes_of_decodeGroups h

/-- Settles O52: the bytes before the first error fit, and the call goes on to the error or to its end; or the group at
which they do not ends the call. -/
theorem decodeReturnsItsBytesOrFirstError : Obligations.DecodeReturnsItsBytesOrFirstError := by
  intro p c hp hc
  have hf := c.not_failsUpFront_of_exact hp
  refine ⟨fun bs h => ?_, fun k h => reportsErr_of_streamUnits hc hf h, reportsErr_capacity hc hf⟩
  have hbefore := bytesBeforeError_of_decodeText h
  exact ⟨hbefore, reportsOk_of_streamUnits hc hf h hbefore⟩

/-! ## The length of a text (43_stream.md R152, R153) -/

theorem accOf_eq_zero_iff_bytes (a b c d : Byte) : accOf a b c d = 0 ↔ a = 0 ∧ b = 0 ∧ c = 0 ∧ d = 0 := by
  rw [accOf_eq_zero_iff]
  simp [← BitVec.toNat_inj, and_assoc]

theorem length_charsOf (acc : Acc) (n : Nat) : (charsOf acc n).length = n := by
  simp [charsOf]

theorem encodeText_four (a b c d : Byte) (rest : List Byte) :
    encodeText (a :: b :: c :: d :: rest) =
      (if accOf a b c d = 0 then [shortcutChar] else charsOf (accOf a b c d) 5) ++ encodeText rest := rfl

theorem zeroGroups_four (a b c d : Byte) (rest : List Byte) :
    zeroGroups (a :: b :: c :: d :: rest) = (if a = 0 ∧ b = 0 ∧ c = 0 ∧ d = 0 then 1 else 0) + zeroGroups rest := rfl

theorem length_encodeText (bs : List Byte) :
    (encodeText bs).length + 4 * zeroGroups bs =
      5 * (bs.length / 4) + if bs.length % 4 = 0 then 0 else bs.length % 4 + 1 := by
  induction bs using encodeText.induct with
  | case1 a b c d rest ih =>
    have hdiv : (a :: b :: c :: d :: rest).length / 4 = rest.length / 4 + 1 := by simp; omega
    have hmod : (a :: b :: c :: d :: rest).length % 4 = rest.length % 4 := by simp; omega
    rw [encodeText_four, zeroGroups_four, List.length_append, hdiv, hmod]
    simp only [accOf_eq_zero_iff_bytes]
    split
    · rw [List.length_singleton]
      omega
    · rw [length_charsOf]
      omega
  | case2 | case3 | case4 | case5 => simp [encodeText, zeroGroups, length_charsOf]

/-- A text is shorter than the worst case by 4 for each zero group and by what its last group lacks. -/
theorem length_encodeText_le (bs : List Byte) :
    (encodeText bs).length ≤ 5 * ((bs.length + 3) / 4) ∧
      ((encodeText bs).length = 5 * ((bs.length + 3) / 4) ↔ zeroGroups bs = 0 ∧ bs.length % 4 = 0) := by
  have h := length_encodeText bs
  split at h
  · have hceil : (bs.length + 3) / 4 = bs.length / 4 := by omega
    rw [hceil]
    omega
  · have hceil : (bs.length + 3) / 4 = bs.length / 4 + 1 := by omega
    rw [hceil]
    omega

/-- Settles O50: a call that returns `Ok` returns the length of its text. -/
theorem encodeLengthIsExact : Obligations.EncodeLengthIsExact := by
  intro p c len out hc h
  obtain ⟨us, hu, rfl⟩ := streamUnits_of_verdict_ok hc h
  cases hu
  rw [← Buffer.length_bytes]
  obtain ⟨hle, heq⟩ := length_encodeText_le c.input.bytes
  exact ⟨rfl, length_encodeText _, hle, heq⟩

/-- With room for the worst case, `encode` returns its text under every parameter (43_stream.md R151, R153). -/
theorem encode_reportsOk {c : Call} (p : Params) (hc : c.valid .enc)
    (hroom : 5 * ((c.input.size + 3) / 4) ≤ c.output.size) :
    reportsOk (c.verdict p) c.output (encodeText c.input.bytes) := by
  have hf : ¬ c.failsUpFront p := by
    rintro ⟨_, hlt⟩
    rw [hc.1] at hlt
    exact Nat.not_le.2 hlt hroom
  obtain ⟨hle, _⟩ := length_encodeText_le c.input.bytes
  rw [Buffer.length_bytes] at hle
  exact reportsOk_of_streamUnits hc hf rfl rfl (hle.trans hroom)

theorem not_reportsErr_of_reportsOk {r : Option (CallResult × Option Buffer)} {old : Buffer} {us : List Byte}
    (h : reportsOk r old us) (k : ErrKind) : ¬ reportsErr r k := by
  obtain ⟨out, rfl, _⟩ := h
  rintro ⟨⟩

/-- Settles O49: the check is the first thing a call does; a call that passes it under `WORST_CASE` runs as under
`EXACT`, and an encode call that passes it has room for its text. -/
theorem worstCaseIsCheckedUpFront : Obligations.WorstCaseIsCheckedUpFront := by
  intro p e c hc bound
  have hbound : bound = worstCase c.kind c.input.size := by
    rw [hc.1]
    cases e <;> rfl
  refine ⟨fun hlt => poll_of_failsUpFront hc ⟨rfl, hbound ▸ hlt⟩, fun hle => ?_, ?_⟩
  · have hf : ¬ c.failsUpFront { p with capacityCheck := .worstCase } := fun h => Nat.not_le.2 h.2 (hbound ▸ hle)
    rw [verdict_of_not_failsUpFront hc hf, verdict_of_not_failsUpFront hc (c.not_failsUpFront_of_exact rfl)]
  · rintro rfl hle
    exact not_reportsErr_of_reportsOk (encode_reportsOk _ hc hle) _

/-! ## Runs of zero bytes (43_stream.md R165) -/

/-- After whole groups the text goes on as if it began anew. -/
theorem encodeText_append {pre : List Byte} {m : Nat} (h : pre.length = 4 * m) (post : List Byte) :
    encodeText (pre ++ post) = encodeText pre ++ encodeText post := by
  induction m generalizing pre with
  | zero =>
    rw [List.length_eq_zero_iff.1 h]
    rfl
  | succ m ih =>
    match pre, h with
    | a :: b :: c :: d :: rest, h =>
      have hrest : rest.length = 4 * m := by
        simp only [List.length_cons] at h
        omega
      simp only [List.cons_append, encodeText_four, ih hrest, List.append_assoc]

theorem encodeText_zeros (k : Nat) : encodeText (List.replicate (4 * k) 0) = List.replicate k shortcutChar := by
  induction k with
  | zero => rfl
  | succ k ih =>
    have hacc : accOf 0 0 0 0 = 0 := rfl
    rw [Nat.mul_succ, List.replicate_succ, List.replicate_succ, List.replicate_succ, List.replicate_succ,
      encodeText_four, if_pos hacc, ih, List.replicate_succ]
    rfl

theorem encodeText_partial_zeros {n : Nat} (h1 : 1 ≤ n) (h3 : n ≤ 3) :
    encodeText (List.replicate n 0) = List.replicate (n + 1) 33 := by
  interval_cases n <;> decide

/-- `encode_reportsOk` of a call made from a byte sequence and a capacity. -/
theorem encode_fresh_reportsOk (p : Params) {bs : List Byte} {room : Nat} (h : 5 * ((bs.length + 3) / 4) ≤ room) :
    reportsOk ((Call.fresh .enc bs room).verdict p) (Buffer.blank room) (encodeText bs) := by
  have := encode_reportsOk p (fresh_valid .enc bs room) h
  rwa [show (Call.fresh .enc bs room).input.bytes = bs from Buffer.bytes_ofBytes bs] at this

/-- Settles O51: the text before and after whole groups, and of zero groups and of a partial one. -/
theorem zeroGroupsEncodeToShortcuts : Obligations.ZeroGroupsEncodeToShortcuts := by
  refine ⟨fun p k m room pre post hpre hroom => ?_, fun p m n room pre hpre h1 h3 hroom => ?_⟩
  · have hlen : (pre ++ List.replicate (4 * k) (0 : Byte)).length = 4 * (m + k) := by simp; omega
    rw [← encodeText_zeros, ← encodeText_append hpre, ← encodeText_append hlen]
    refine encode_fresh_reportsOk p ?_
    rwa [List.length_append, List.length_append, List.length_replicate]
  · rw [← encodeText_partial_zeros h1 h3, ← encodeText_append hpre]
    refine encode_fresh_reportsOk p ?_
    simpa using hroom

end Sys2Proof.Machine

/-! ## The groups of a text and what they decode to (43_stream.md R155, R159) -/

namespace Sys2Proof.Machine

theorem firstGroup_spec {us : List Byte} (h : us ≠ []) :
    1 ≤ (firstGroup .dec us).length ∧ (firstGroup .dec us).length ≤ 5 ∧
      ((firstGroup .dec us).head? = some shortcutChar → firstGroup .dec us = [shortcutChar]) := by
  obtain ⟨hpos, _, hmax⟩ := unitCount_bounds h .dec
  rw [length_firstGroup h]
  refine ⟨hpos, hmax, fun hz => ?_⟩
  match us, h with
  | c :: cs, _ =>
    have hc : c = shortcutChar := by
      rw [firstGroup, List.head?_take, if_neg (by omega)] at hz
      exact Option.some.inj hz
    simp [firstGroup, unitCount, hc]

/-- A group that is not the last is `z` or has five characters. -/
theorem firstGroup_of_afterGroup_ne_nil {us : List Byte} (h : afterGroup .dec us ≠ []) :
    firstGroup .dec us = [shortcutChar] ∨ (firstGroup .dec us).length = 5 := by
  have hne : us ≠ [] := by
    rintro rfl
    exact h rfl
  have hlen : unitCount .dec us < us.length := by
    have := List.length_pos_of_ne_nil h
    rw [length_afterGroup] at this
    omega
  rw [length_firstGroup hne]
  by_cases hz : us.head? = some shortcutChar
  · obtain ⟨hpos, _, _⟩ := unitCount_bounds hne .dec
    obtain ⟨_, _, hlone⟩ := firstGroup_spec hne
    refine .inl (hlone ?_)
    rwa [firstGroup, List.head?_take, if_neg (by omega)]
  · rw [unitCount, if_neg hz] at hlen ⊢
    exact .inr (by omega)

theorem flatten_textGroups (us : List Byte) : (textGroups us).flatten = us := by
  induction us using group_induction .dec with
  | nil => rfl
  | step us h ih => rw [textGroups_eq_firstGroup h, List.flatten_cons, ih, firstGroup_append_afterGroup]

theorem textGroups_spec (us : List Byte) :
    ∀ g ∈ textGroups us, 1 ≤ g.length ∧ g.length ≤ 5 ∧ (g.head? = some shortcutChar → g = [shortcutChar]) := by
  induction us using group_induction .dec with
  | nil => simp
  | step us h ih =>
    rw [textGroups_eq_firstGroup h]
    exact List.forall_mem_cons.2 ⟨firstGroup_spec h, ih⟩

theorem dropLast_textGroups_spec (us : List Byte) :
    ∀ g ∈ (textGroups us).dropLast, g = [shortcutChar] ∨ g.length = 5 := by
  induction us using group_induction .dec with
  | nil => simp
  | step us h ih =>
    rw [textGroups_eq_firstGroup h]
    by_cases hrest : afterGroup .dec us = []
    · simp [hrest]
    · rw [List.dropLast_cons_of_ne_nil (by simp [textGroups_eq_firstGroup hrest])]
      exact List.forall_mem_cons.2 ⟨firstGroup_of_afterGroup_ne_nil hrest, ih⟩

/-- What a group adds to the length: 4 if it is `z`, 4 if it has five characters, else one less than its characters
(43_stream.md R159). -/
def groupLength (g : List Byte) : Nat :=
  4 * (if g == [shortcutChar] then 1 else 0) + 4 * (if g.length == 5 then 1 else 0) + partialBytes g

theorem length_groupBytes {policy : LoneTailPolicy} {g bs : List Byte} (h5 : g.length ≤ 5)
    (h : groupBytes policy g = .ok bs) : bs.length = groupLength g := by
  unfold groupBytes at h
  unfold groupLength partialBytes
  split at h
  · next hz =>
    cases h
    simp [hz]
  split at h
  · cases h
  split at h
  · cases h
  split at h
  · cases h
  · next hz _ _ _ =>
    cases h
    have hfour : (bytesOf (decAcc g)).length = 4 := rfl
    rw [List.length_take, hfour]
    by_cases hlen : g.length = 5
    · simp [hz, hlen]
    · simp [hz, hlen]
      omega

theorem groupLength_sum (gs : List (List Byte)) :
    (gs.map groupLength).sum =
      4 * gs.countP (fun g => g == [shortcutChar]) + 4 * gs.countP (fun g => g.length == 5) +
        (gs.map partialBytes).sum := by
  induction gs with
  | nil => rfl
  | cons g gs ih =>
    rw [List.map_cons, List.sum_cons, ih, List.map_cons, List.sum_cons, List.countP_cons, List.countP_cons, groupLength]
    omega

theorem length_decodeGroups {policy : LoneTailPolicy} {gs : List (List Byte)} {bs : List Byte}
    (hgs : ∀ g ∈ gs, g.length ≤ 5) (h : decodeGroups policy gs = .ok bs) :
    bs.length = (gs.map groupLength).sum := by
  induction gs generalizing bs with
  | nil =>
    cases h
    rfl
  | cons g gs ih =>
    obtain ⟨h5, hgs⟩ := List.forall_mem_cons.1 hgs
    cases hg : groupBytes policy g with
    | error k =>
      rw [decodeGroups_cons_error hg] at h
      cases h
    | ok vs =>
      rw [decodeGroups_cons_ok hg] at h
      obtain ⟨rest, hrest, rfl⟩ := prepend_eq_ok h
      rw [List.length_append, length_groupBytes h5 hg, ih hgs hrest, List.map_cons, List.sum_cons]

theorem groupLength_le {g : List Byte} (h1 : 1 ≤ g.length) (h5 : g.length ≤ 5) :
    groupLength g ≤ 4 ∧ groupLength g ≤ 4 * g.length := by
  unfold groupLength partialBytes
  by_cases hz : g = [shortcutChar]
  · simp [hz]
  · by_cases hlen : g.length = 5
    · simp [hz, hlen]
    · simp [hz, hlen]
      omega

/-- Every group adds at most four bytes, and at most four for each of its characters; without `z` only the last group has
fewer than five characters. -/
theorem groupLength_sum_textGroups_le (us : List Byte) :
    ((textGroups us).map groupLength).sum ≤ 4 * us.length ∧
      (shortcutChar ∉ us → ((textGroups us).map groupLength).sum ≤ 4 * ((us.length + 4) / 5)) := by
  induction us using group_induction .dec with
  | nil => simp
  | step us h ih =>
    obtain ⟨hall, hz⟩ := ih
    obtain ⟨h1, h5, _⟩ := firstGroup_spec h
    obtain ⟨h4, hfour⟩ := groupLength_le h1 h5
    obtain ⟨_, hle, _⟩ := unitCount_bounds h .dec
    rw [length_firstGroup h] at hfour
    rw [length_afterGroup] at hall hz
    rw [textGroups_eq_firstGroup h, List.map_cons, List.sum_cons]
    refine ⟨by omega, fun hno => ?_⟩
    have hrest := hz fun hmem => hno (List.mem_of_mem_drop hmem)
    have hcount : unitCount .dec us = min 5 us.length := if_neg fun hhead => hno (List.mem_of_mem_head? hhead)
    have hpos := List.length_pos_of_ne_nil h
    rw [hcount] at hrest
    omega

/-- Settles O53: a call that returns `Ok` returns the length of what its groups decode to, and that is the sum of what
each of them adds. -/
theorem decodedLengthIsBounded : Obligations.DecodedLengthIsBounded := by
  intro p c len out hc h
  obtain ⟨bs, hbs, rfl⟩ := streamUnits_of_verdict_ok hc h
  have hspec := textGroups_spec c.input.bytes
  have hlen : bs.length = ((textGroups c.input.bytes).map groupLength).sum :=
    length_decodeGroups (fun g hg => (hspec g hg).2.1) hbs
  obtain ⟨hle, hno⟩ := groupLength_sum_textGroups_le c.input.bytes
  rw [← Buffer.length_bytes, hlen]
  exact ⟨flatten_textGroups _, hspec, dropLast_textGroups_spec _, groupLength_sum _, hle, hno⟩

/-! ## The round trip of a byte sequence (43_stream.md R164) -/

/-- The characters of a group of bytes are `z`, or digits: five of them for a full group. -/
theorem encodeText_group_spec {bs : List Byte} (h0 : bs ≠ []) (h4 : bs.length ≤ 4) :
    encodeText bs = [shortcutChar] ∨
      ((encodeText bs).length = bs.length + 1 ∧ ∀ c ∈ encodeText bs, c ≠ shortcutChar) := by
  rw [encodeText_group h0 h4]
  split
  · exact .inl rfl
  · refine .inr ⟨length_charsOf .., fun c hc => ?_⟩
    obtain ⟨k, _, rfl⟩ := List.mem_map.1 hc
    exact ne_shortcutChar_of_isDigit (isDigit_digitChar _ k)

theorem length_encodeText_group {bs : List Byte} (h0 : bs ≠ []) (h4 : bs.length ≤ 4) :
    1 ≤ (encodeText bs).length ∧ (encodeText bs).length ≤ 5 := by
  rcases encodeText_group_spec h0 h4 with hz | ⟨hlen, _⟩
  · simp [hz]
  · omega

/-- A group of bytes comes back from its own characters (42_decoder.md R136). -/
theorem groupBytes_encodeText {bs : List Byte} (h0 : bs ≠ []) (h4 : bs.length ≤ 4) (policy : LoneTailPolicy) :
    groupBytes policy (encodeText bs) = .ok bs := by
  obtain ⟨hpos, hlen⟩ := length_encodeText_group h0 h4
  obtain ⟨_, hunits⟩ := encAnswer_tells h0 h4
  rw [← fEnc_groupCommand h4] at hunits
  obtain ⟨hstatus, _, hback⟩ := groupRoundTrip policy bs (List.length_pos_of_ne_nil h0) h4
  rw [hunits, fDec_groupCommand hlen] at hstatus hback
  have htells := decAnswer_tells (List.ne_nil_of_length_pos hpos) hlen policy
  cases hg : groupBytes policy (encodeText bs) with
  | ok us =>
    rw [hg] at htells
    obtain ⟨_, hus⟩ := htells
    rw [← hback, hus]
  | error k =>
    rw [hg, tells, responseError_of_ok hstatus] at htells
    cases htells

/-- The first group of a text are the characters of the first group of its bytes. -/
theorem unitCount_encodeText {bs : List Byte} (h : bs ≠ []) :
    unitCount .dec (encodeText bs) = (encodeText (firstGroup .enc bs)).length := by
  obtain ⟨hpos, hle, h4⟩ := unitCount_bounds h .enc
  have hlen := length_firstGroup h .enc
  have h0 : firstGroup .enc bs ≠ [] := List.ne_nil_of_length_pos (hlen ▸ hpos)
  rw [encodeText_eq_firstGroup bs]
  rcases encodeText_group_spec h0 (hlen ▸ h4) with hz | ⟨hn, hdigits⟩
  · simp [hz, unitCount]
  · have hhead : ¬ (encodeText (firstGroup .enc bs) ++ encodeText (afterGroup .enc bs)).head? = some shortcutChar := by
      rw [List.head?_append_of_ne_nil _ (List.ne_nil_of_length_pos (by omega))]
      exact fun hc => hdigits _ (List.mem_of_mem_head? hc) rfl
    rw [unitCount, if_neg hhead, List.length_append]
    rcases Nat.lt_or_ge bs.length 4 with hlt | hge
    · have hrest : afterGroup .enc bs = [] := by
        rw [← List.length_eq_zero_iff, length_afterGroup, unitCount]
        omega
      rw [hrest, encodeText, List.length_nil, hn, hlen, unitCount]
      omega
    · rw [hn, hlen, unitCount]
      omega

/-- The text of a byte sequence decodes to it. -/
theorem decodeText_encodeText (policy : LoneTailPolicy) (bs : List Byte) :
    decodeText policy (encodeText bs) = .ok bs := by
  induction bs using group_induction .enc with
  | nil => rfl
  | step bs h ih =>
    obtain ⟨hpos, _, h4⟩ := unitCount_bounds h .enc
    have hlen := length_firstGroup h .enc
    have h0 : firstGroup .enc bs ≠ [] := List.ne_nil_of_length_pos (hlen ▸ hpos)
    have htext := encodeText_eq_firstGroup bs
    have hcount := unitCount_encodeText h
    have hfirst : firstGroup .dec (encodeText bs) = encodeText (firstGroup .enc bs) := by
      rw [firstGroup, hcount, htext]
      exact List.take_left
    have hafter : afterGroup .dec (encodeText bs) = encodeText (afterGroup .enc bs) := by
      rw [afterGroup, hcount, htext]
      exact List.drop_left
    have hne : encodeText bs ≠ [] := by
      obtain ⟨hpos, _⟩ := length_encodeText_group h0 (hlen ▸ h4)
      rw [htext]
      exact List.append_ne_nil_of_left_ne_nil (List.ne_nil_of_length_pos hpos) _
    rw [decodeText] at ih
    rw [decodeText, textGroups_eq_firstGroup hne, hfirst, hafter,
      decodeGroups_cons_ok (groupBytes_encodeText h0 (hlen ▸ h4) policy), ih, prepend, firstGroup_append_afterGroup]

/-- The worst case of a text is at most three bytes above what it was made of (43_stream.md R164). -/
theorem worstCase_encodeText_le (bs : List Byte) : 4 * (((encodeText bs).length + 4) / 5) ≤ bs.length + 3 := by
  have h := length_encodeText bs
  split at h
  · have hceil : ((encodeText bs).length + 4) / 5 ≤ bs.length / 4 := by omega
    omega
  · have hceil : ((encodeText bs).length + 4) / 5 ≤ bs.length / 4 + 1 := by omega
    omega

/-- Settles O54: the text fits the worst case, its groups are the characters of the groups of bytes, and each of those
comes back. -/
theorem roundTripLaw : Obligations.RoundTripLaw := by
  intro p bs room back hroom text
  obtain ⟨hle, _⟩ := length_encodeText_le bs
  refine ⟨encode_fresh_reportsOk p hroom, hle, worstCase_encodeText_le bs, fun hback => ?_⟩
  have hbytes : (Call.fresh .dec text back).input.bytes = text := Buffer.bytes_ofBytes text
  have hdecode := decodeText_encodeText p.loneTail bs
  have hf : ¬ (Call.fresh .dec text back).failsUpFront p := by
    rintro ⟨hw, hlt⟩
    rcases hback with ⟨he, _⟩ | ⟨_, hmax⟩
    · rw [hw] at he
      cases he
    · exact Nat.not_le.2 hlt ((Nat.le_max_right ..).trans hmax)
  refine reportsOk_of_streamUnits (fresh_valid .dec text back) hf ?_ ?_ ?_
  · rw [hbytes]
    exact hdecode
  · rw [hbytes]
    exact bytesBeforeError_of_decodeText hdecode
  · rcases hback with ⟨_, h⟩ | ⟨_, hmax⟩
    · exact h
    · exact (Nat.le_max_left ..).trans hmax

/-! ## The int32 mapping (43_stream.md R170) -/

/-- The sentinel of an error kind. -/
def sentinelOf (t : Sentinels) : ErrKind → BitVec 32
  | .capacity => t.capacity
  | .badDecodeChar => t.badChar
  | .decodeOverflow => t.overflow

theorem toInt32_err (t : Sentinels) (k : ErrKind) : toInt32 t (.err k) = .next (sentinelOf t k) := by
  cases k <;> rfl

theorem sentinels_wf_iff (t : Sentinels) :
    t.wf = true ↔ (t.capacity ≠ t.badChar ∧ t.capacity ≠ t.overflow ∧ t.badChar ≠ t.overflow) ∧
      t.capacity.toInt < 0 ∧ t.badChar.toInt < 0 ∧ t.overflow.toInt < 0 := by
  simp [Sentinels.wf, and_assoc]

theorem sentinelOf_injective {t : Sentinels} (h : t.wf = true) : Function.Injective (sentinelOf t) := by
  obtain ⟨⟨hcb, hco, hbo⟩, _⟩ := (sentinels_wf_iff t).1 h
  intro k l hkl
  match k, l, hkl with
  | .capacity, .capacity, _ | .badDecodeChar, .badDecodeChar, _ | .decodeOverflow, .decodeOverflow, _ => rfl
  | .capacity, .badDecodeChar, h => exact absurd h hcb
  | .badDecodeChar, .capacity, h => exact absurd h.symm hcb
  | .capacity, .decodeOverflow, h => exact absurd h hco
  | .decodeOverflow, .capacity, h => exact absurd h.symm hco
  | .badDecodeChar, .decodeOverflow, h => exact absurd h hbo
  | .decodeOverflow, .badDecodeChar, h => exact absurd h.symm hbo

theorem sentinelOf_neg {t : Sentinels} (h : t.wf = true) (k : ErrKind) : (sentinelOf t k).toInt < 0 := by
  obtain ⟨_, hc, hb, ho⟩ := (sentinels_wf_iff t).1 h
  cases k with
  | capacity => exact hc
  | badDecodeChar => exact hb
  | decodeOverflow => exact ho

theorem toInt_ofNat_of_le {len : Nat} (h : len ≤ 2 ^ 31 - 1) : (BitVec.ofNat 32 len).toInt = len := by
  have hlen : (BitVec.ofNat 32 len).toNat = len := by
    rw [BitVec.toNat_ofNat]
    omega
  rw [BitVec.toInt_eq_toNat_of_lt (by omega), hlen]

/-- Settles O58: a length below `2^31` is its own int32 value, and the errors map to the three sentinels. -/
theorem sentinelsAreNegativeAndDistinct : Obligations.SentinelsAreNegativeAndDistinct := by
  intro t ht
  refine ⟨fun len hlen => ⟨_, if_pos hlen, toInt_ofNat_of_le hlen⟩, fun len hlen => if_neg (Nat.not_le.2 hlen),
    fun k => ⟨_, toInt32_err t k, sentinelOf_neg ht k⟩, fun k l h => ?_, rfl, rfl, rfl⟩
  rw [toInt32_err, toInt32_err, Host.Outcome.next.injEq] at h
  exact sentinelOf_injective ht h

end Sys2Proof.Machine

/-! ## A call driven to its end through its engine (43_stream.md R167; 70_reset_and_hazards.md R201 to R203) -/

namespace Sys2Proof.Machine

/-- An edge without reset at which only engine `e` has inputs. -/
def edgeFor : EngineId → Port → Edge
  | .enc, x => { Edge.idle with enc := x }
  | .dec, x => { Edge.idle with dec := x }

/-- The inputs of an engine at an edge at which it is the first call's turn. -/
def turnPort : Port := { Port.idle with req := some (.call 0) }

/-- The inputs of an engine at an edge at which its response is taken. -/
def takePort : Port := { Port.idle with rspReady := true }

/-- The call is the only one, these are its engine's registers and its channel, and the other engine is not at work. -/
structure standsAlone (p : Params) (e : EngineId) (c : Call) (r : Engine) (ch : Channel) (s : State) : Prop where
  params : s.params = p
  calls : s.calls = [c]
  engine : s.engine e = r
  channel : s.channel e = ch
  others : ∀ f, f ≠ e → (s.engine f).phase ≠ .busy

/-- With inputs for one engine only, a step is that engine's channel's edge. -/
theorem step_edgeFor {e : EngineId} {x : Port} {s t : State} (hx : s.edge = edgeFor e x)
    (ho : ∀ f, f ≠ e → (s.engine f).phase ≠ .busy) (h : channelEdge e x s.popEdge = .next t) : step s = .next t := by
  obtain ⟨hother, _⟩ := channelEdge_frame h
  rw [step, clockEdge, hx]
  cases e with
  | enc =>
    obtain ⟨hdec, _⟩ := hother .dec (by decide)
    have hidle : channelEdge .dec Port.idle t = .next t :=
      channelEdge_idlePort_of_not_busy (by rw [hdec, popEdge_engine]; exact ho .dec (by decide))
    simp only [edgeFor, Edge.idle, Bool.false_eq_true, if_false, h, andThen_next, hidle]
  | dec =>
    have hidle : channelEdge .enc Port.idle s.popEdge = .next s.popEdge :=
      channelEdge_idlePort_of_not_busy (by rw [popEdge_engine]; exact ho .enc (by decide))
    simp only [edgeFor, Edge.idle, Bool.false_eq_true, if_false, hidle, andThen_next, h]

/-- Some edges lead from every state with `P` that has them ahead to a state with `Q`. -/
def leadsTo (P Q : State → Prop) : Prop :=
  ∃ edges : List Edge, ∀ s rest, P s → s.inputs = edges ++ rest →
    ∃ t, runSteps edges.length s = .next t ∧ t.inputs = rest ∧ Q t

theorem runSteps_add (m n : Nat) (s : State) : runSteps (m + n) s = andThen (runSteps m s) (runSteps n) := by
  induction m generalizing s with
  | zero => rw [Nat.zero_add, runSteps, andThen_next]
  | succ m ih =>
    rw [Nat.succ_add, runSteps, runSteps]
    cases step s with
    | next t => exact ih t
    | fault f => rfl
    | refused r => rfl

theorem leadsTo.trans {P Q R : State → Prop} (h : leadsTo P Q) (h' : leadsTo Q R) : leadsTo P R := by
  obtain ⟨xs, hxs⟩ := h
  obtain ⟨ys, hys⟩ := h'
  refine ⟨xs ++ ys, fun s rest hs hin => ?_⟩
  obtain ⟨t, ht, hint, hQ⟩ := hxs s (ys ++ rest) hs (by rw [hin, List.append_assoc])
  obtain ⟨u, hu, hinu, hR⟩ := hys t rest hQ hint
  exact ⟨u, by rw [List.length_append, runSteps_add, ht, andThen_next, hu], hinu, hR⟩

theorem leadsTo.mono {P Q R : State → Prop} (h : leadsTo P Q) (hQR : ∀ s, Q s → R s) : leadsTo P R := by
  obtain ⟨xs, hxs⟩ := h
  refine ⟨xs, fun s rest hs hin => ?_⟩
  obtain ⟨t, ht, hint, hQ⟩ := hxs s rest hs hin
  exact ⟨t, ht, hint, hQR t hQ⟩

section
variable {p : Params} {e : EngineId} {c : Call} {r : Engine} {ch : Channel}

/-- One edge leads where it leads the engine's channel. -/
theorem leadsTo_of_channelEdge (x : Port) {Q : State → Prop}
    (h : ∀ s, standsAlone p e c r ch s → ∃ t, channelEdge e x s = .next t ∧ Q t) :
    leadsTo (standsAlone p e c r ch) Q := by
  refine ⟨[edgeFor e x], fun s rest hs hin => ?_⟩
  obtain ⟨hp, hc, he, hch, ho⟩ := hs
  obtain ⟨t, ht, hQ⟩ := h s.popEdge ⟨hp, hc, by rwa [popEdge_engine], by rwa [popEdge_channel], by simpa using ho⟩
  have hstep : step s = .next t := step_edgeFor (by rw [State.edge, hin]; rfl) ho ht
  obtain ⟨_, hint, _⟩ := parametersNeverChange s t hstep
  exact ⟨t, by rw [List.length_singleton, runSteps, hstep]; rfl, by rw [hint, hin]; rfl, hQ⟩

/-- Storing the call leaves it alone in the machine. -/
theorem standsAlone_putCall {s : State} (hs : standsAlone p e c r ch s) (d : Call) :
    ∃ d', standsAlone p e d' r ch (putCall 0 d s) ∧ d.Moves p d' ∧ d'.stat = d.stat ∧ (¬ d.over → d' = d) := by
  obtain ⟨hp, hc, he, hch, ho⟩ := hs
  obtain ⟨out, n, hput, h⟩ := putCall_eq 0 d s
  refine ⟨{ d with output := out }, ⟨by simpa using hp, by rw [hput, hc]; rfl, by simpa using he, by simpa using hch,
    by simpa using ho⟩, ?_, rfl, fun hnot => ?_⟩
  · rcases h with ⟨rfl, _⟩ | ⟨rfl, _, k, hk⟩
    · exact .refl
    · exact .single (.free hk _)
  · rcases h with ⟨rfl, _⟩ | ⟨_, _, k, hk⟩
    · rfl
    · exact absurd ⟨_, hk⟩ hnot

/-- The call has ended, some moves on, with at most `m` transactions on record. -/
def ended (p : Params) (e : EngineId) (c : Call) (m : Nat) (s : State) : Prop :=
  ∃ d r ch, standsAlone p e d r ch s ∧ c.Moves p d ∧ d.over ∧ ch.log.length ≤ m

theorem ended.mono {d : Call} {m n : Nat} {s : State} (h : ended p e d m s) (hcd : c.Moves p d) (hmn : m ≤ n) :
    ended p e c n s := by
  obtain ⟨b, r, ch, hs, hdb, hb, hle⟩ := h
  exact ⟨b, r, ch, hs, hcd.trans hdb, hb, hle.trans hmn⟩

/-- A stored call that is over has ended. -/
theorem ended_putCall {s : State} {d : Call} (hs : standsAlone p e c r ch s) (hd : d.over) :
    ended p e d ch.log.length (putCall 0 d s) := by
  obtain ⟨d', hs', hdd, hstat, _⟩ := standsAlone_putCall hs d
  exact ⟨d', r, ch, hs', hdd, by rwa [Call.over, hstat], Nat.le_refl _⟩

/-- A call whose turn it is and that is over once it polls ends at that edge. -/
theorem leadsTo_end_of_poll {d : Call} (hr : r.phase = .idle) (hm : c.mayDrive e = true) (hpoll : c.poll p = .next d)
    (hd : d.over) : leadsTo (standsAlone p e c r ch) (ended p e d ch.log.length) := by
  refine leadsTo_of_channelEdge turnPort fun s hs => ⟨putCall 0 d s, ?_, ended_putCall hs hd⟩
  have hnot : d.stat ≠ .ready := by
    obtain ⟨x, hx⟩ := hd
    simp [hx]
  have hoffer : offer e turnPort s = .next (putCall 0 d s, none) := by
    rw [offer_of_mayDrive rfl (by rw [hs.calls]; rfl) hm, hs.params, hpoll, andThen_next, if_neg hnot]
  rw [channelEdge, hoffer, andThen_next]
  exact engineEdge_of_idle_none (by rw [putCall_engine, hs.engine, hr]) _

/-- ACCEPT: a call whose turn it is presents its next command and then waits. -/
theorem leadsTo_accept {d : Call} {w : Word} (hr : r.phase = .idle) (hm : c.mayDrive e = true)
    (hpoll : c.poll p = .next d) (hd : d.stat = .ready) (hi : d.issue = .next (w, d.awaiting)) :
    leadsTo (standsAlone p e c r ch) (standsAlone p e d.awaiting { phase := .busy, cmd := w, rsp := r.rsp }
      { wait := latency p e - 1, owner := some 0, log := ch.log }) := by
  refine leadsTo_of_channelEdge turnPort fun s hs => ?_
  have hoffer : offer e turnPort s = .next (putCall 0 d s, some (w, some (0, d.awaiting))) := by
    rw [offer_of_mayDrive rfl (by rw [hs.calls]; rfl) hm, hs.params, hpoll, andThen_next, if_pos hd, hi]
    rfl
  obtain ⟨b, hb, _⟩ := standsAlone_putCall hs d
  obtain ⟨b', hb', _, _, heq⟩ := standsAlone_putCall hb d.awaiting
  obtain rfl : b' = d.awaiting := heq (by rintro ⟨_, ⟨⟩⟩)
  refine ⟨accept e w (some 0) 0 (putCall 0 d.awaiting (putCall 0 d s)), ?_, ?_⟩
  · rw [channelEdge, hoffer, andThen_next, engineEdge_of_idle_some (by rw [putCall_engine, hs.engine, hr])]
    rfl
  · obtain ⟨hp, hc, he, hch, ho⟩ := hb'
    exact ⟨by rwa [accept_params], by rwa [accept_calls], by rw [accept_engine_same, he],
      by rw [accept_channel_same, hp, hch]; rfl, fun f hf => by rw [accept_engine_other hf]; exact ho f hf⟩

/-- An edge at which the host does nothing is the engine's alone. -/
theorem channelEdge_of_no_request {x : Port} {s : State} (hx : x.req = none) :
    channelEdge e x s = engineEdge e x none s := by
  have hoffer : offer e x s = .next (s, none) := by rw [offer, hx]
  rw [channelEdge, hoffer, andThen_next]

/-- The edges before EXECUTE. -/
theorem leadsTo_due (hr : r.phase = .busy) (n : Nat) :
    leadsTo (standsAlone p e c r { ch with wait := n }) (standsAlone p e c r { ch with wait := 0 }) := by
  induction n with
  | zero => exact ⟨[], fun s rest hs hin => ⟨s, rfl, hin, hs⟩⟩
  | succ n ih =>
    refine leadsTo.trans (leadsTo_of_channelEdge Port.idle fun s hs => ⟨tick e s, ?_, ?_⟩) ih
    · rw [channelEdge_of_no_request rfl, engineEdge_of_busy (by rw [hs.engine, hr]), hs.channel]
      exact if_neg (Nat.succ_ne_zero n)
    · obtain ⟨hp, hc, he, hch, ho⟩ := hs
      exact ⟨by rwa [tick_params], by rwa [tick_calls], by rwa [tick_engine], by rw [tick_channel_same, hch]; rfl,
        by simpa using ho⟩

/-- EXECUTE answers with the engine's response function. -/
theorem execute_eq (e : EngineId) (s : State) :
    execute e s = .next (answered e (engineResponse s.params e (s.engine e).cmd) s) := by
  cases e with
  | enc => exact encoderExecutesItsResponseFunction s
  | dec => exact decoderExecutesItsResponseFunction s

theorem leadsTo_execute (hr : r.phase = .busy) (hw : ch.wait = 0) :
    leadsTo (standsAlone p e c r ch)
      (standsAlone p e c { phase := .done, cmd := r.cmd, rsp := engineResponse p e r.cmd } ch) := by
  refine leadsTo_of_channelEdge Port.idle fun s hs => ⟨answered e (engineResponse p e r.cmd) s, ?_, ?_⟩
  · rw [channelEdge_of_no_request rfl, engineEdge_of_busy (by rw [hs.engine, hr]), hs.channel, if_pos hw, execute_eq,
      hs.params, hs.engine]
  · obtain ⟨hp, hc, he, hch, ho⟩ := hs
    exact ⟨by rwa [answered_params], by rwa [answered_calls], by rw [answered_engine_same, he], by rwa [answered_channel],
      fun f hf => by rw [answered_engine_other hf]; exact ho f hf⟩

/-- RETIRE: the call that waits takes the response, and the transaction is on record. -/
theorem leadsTo_retire {n : Nat} {d : Call} {Q : State → Prop} (hr : r.phase = .done) (ho : ch.owner = some 0)
    (hc : c.stat = .waiting n) (ht : c.take r.rsp = .next d)
    (hQ : ∀ s, standsAlone p e c { r with phase := .idle }
      { wait := ch.wait, owner := none, log := ⟨r.cmd, r.rsp⟩ :: ch.log } s → Q (putCall 0 d s)) :
    leadsTo (standsAlone p e c r ch) Q := by
  refine leadsTo_of_channelEdge takePort fun s hs => ⟨putCall 0 d (retire e s), ?_, hQ _ ?_⟩
  · have hcall : s.calls[0]? = some c := by rw [hs.calls]; rfl
    have hready : takePort.rspReady = true := rfl
    rw [channelEdge_of_no_request rfl, engineEdge_of_done (by rw [hs.engine, hr]), if_pos hready, retireEdge,
      hs.channel, ho]
    simp only [hcall, hc, rspData, hs.engine, ht, andThen_next]
  · obtain ⟨hp, hc, he, hch, ho⟩ := hs
    exact ⟨by rwa [retire_params], by rwa [retire_calls], by rw [retire_engine_same, he],
      by rw [retire_channel_same, he, hch], fun f hf => by rw [retire_engine_other hf]; exact ho f hf⟩

/-- From its turn a call is led through ACCEPT, EXECUTE and RETIRE of its next command. -/
theorem leadsTo_round {d b : Call} {w : Word} {Q : State → Prop} (hr : r.phase = .idle)
    (hm : c.mayDrive e = true) (hpoll : c.poll p = .next d) (hd : d.stat = .ready) (hi : d.issue = .next (w, d.awaiting))
    (ht : d.awaiting.take (engineResponse p e w) = .next b)
    (hQ : ∀ s, standsAlone p e d.awaiting { phase := .idle, cmd := w, rsp := engineResponse p e w }
      { wait := 0, owner := none, log := ⟨w, engineResponse p e w⟩ :: ch.log } s → Q (putCall 0 b s)) :
    leadsTo (standsAlone p e c r ch) Q :=
  (leadsTo_accept hr hm hpoll hd hi).trans <|
    (leadsTo_due (ch := { wait := 0, owner := some 0, log := ch.log }) rfl _).trans <|
      (leadsTo_execute rfl rfl).trans <| leadsTo_retire rfl rfl rfl ht hQ

end

/-- How many commands a call issues at most for `n` units left (43_stream.md R167). -/
def commandBound : EngineId → Nat → Nat
  | .enc, n => (n + 3) / 4
  | .dec, n => n

theorem commandBound_mono (e : EngineId) : Monotone (commandBound e) := by
  intro m n h
  cases e with
  | enc => exact Nat.div_le_div_right (Nat.add_le_add_right h 3)
  | dec => exact h

/-- One command takes the first group. -/
theorem commandBound_afterGroup {us : List Byte} (h : us ≠ []) (e : EngineId) :
    commandBound e (us.length - unitCount e us) + 1 ≤ commandBound e us.length := by
  have hpos := List.length_pos_of_ne_nil h
  obtain ⟨h1, hle, _⟩ := unitCount_bounds h e
  cases e with
  | enc =>
    dsimp only [commandBound, unitCount]
    omega
  | dec =>
    dsimp only [commandBound]
    omega

/-- A call with a group ahead issues its command, and takes the engine's response to it. -/
theorem round_of_ready (p : Params) {d : Call} (hs : d.stat = .ready) (hlt : d.i < d.input.size) :
    ∃ w b, d.issue = .next (w, d.awaiting) ∧ d.awaiting.take (engineResponse p d.kind w) = .next b ∧ d.Moves p b ∧
      b.tested ∧ b.input = d.input ∧ (b.stat = .ready → b.i = d.i + unitCount d.kind d.rest) := by
  obtain ⟨w, hi⟩ : ∃ w, d.issue = .next (w, d.awaiting) := ⟨_, issue_eq_firstGroup hlt⟩
  obtain ⟨b, hb⟩ := take_of_conforms (c := d.awaiting) (conforms_engineResponse (issue_legalFor hlt hi) p)
  have hwait : d.awaiting.issue = .next (w, d.awaiting) := (issue_setStat d _).trans hi
  exact ⟨w, b, hi, hb, .head (.issue hs hlt hi) (.single (.take hlt hwait hb)),
    tested_of_take (c := d.awaiting) rfl hb⟩

/-- A call whose turn it is on an engine at rest is led to its end, with a command on record for each group. -/
theorem leadsTo_ended {p : Params} {e : EngineId} {c d : Call} {r : Engine} {ch : Channel} {n : Nat}
    (hr : r.phase = .idle) (hm : c.mayDrive e = true) (hpoll : c.poll p = .next d) (hn : d.input.size ≤ d.i + n) :
    leadsTo (standsAlone p e c r ch) (ended p e d (ch.log.length + commandBound e (d.input.size - d.i))) := by
  induction n generalizing c d r ch with
  | zero =>
    have hd : d.over := (tested_of_poll hm hpoll).resolve_left fun h => by omega
    exact (leadsTo_end_of_poll hr hm hpoll hd).mono fun s hs => hs.mono .refl (Nat.le_add_right ..)
  | succ n ih =>
    rcases tested_of_poll hm hpoll with ⟨hs, hlt⟩ | hd
    · obtain ⟨w, b, hi, htake, hmoves, hb, hin, hbi⟩ := round_of_ready p hs hlt
      obtain ⟨hc, hdk, _⟩ := poll_eq_next hm hpoll
      obtain rfl : d.kind = e := hdk.trans hc
      have hne := Call.rest_ne_nil hlt
      obtain ⟨hpos, _⟩ := unitCount_bounds hne d.kind
      have hbound := commandBound_afterGroup hne d.kind
      rw [d.length_rest] at hbound
      rcases hb with ⟨hbs, hblt⟩ | hbo
      · have hi' := hbi hbs
        obtain ⟨_, _, hbk, _⟩ := keepsBuffers_of_moves hmoves
        have hturn : b.mayDrive d.kind = true := mayDrive_iff.2 ⟨hbk, .inr hbs⟩
        have hfuel : b.input.size ≤ b.i + n := by
          rw [hin]
          omega
        refine (leadsTo_round hr hm hpoll hs hi htake fun s hs => ?_).trans
          ((ih (r := { phase := .idle, cmd := w, rsp := engineResponse p d.kind w })
            (ch := { wait := 0, owner := none, log := ⟨w, engineResponse p d.kind w⟩ :: ch.log }) rfl hturn
            (poll_of_tested (.inl ⟨hbs, hblt⟩) p) hfuel).mono fun s hs => hs.mono hmoves ?_)
        · obtain ⟨b', hb', _, _, heq⟩ := standsAlone_putCall hs b
          obtain rfl : b' = b := heq (by rintro ⟨x, hx⟩; simp [hbs] at hx)
          exact hb'
        · rw [hin, hi', ← Nat.sub_sub, List.length_cons]
          omega
      · refine leadsTo_round hr hm hpoll hs hi htake fun s hs => (ended_putCall hs hbo).mono hmoves ?_
        rw [List.length_cons]
        omega
    · exact (leadsTo_end_of_poll hr hm hpoll hd).mono fun s hs => hs.mono .refl (Nat.le_add_right ..)

/-- What a call that can be made is once it has polled. -/
theorem poll_of_valid {c : Call} {e : EngineId} (hc : c.valid e) (p : Params) : ∃ d, c.poll p = .next d := by
  by_cases hf : c.failsUpFront p
  · exact ⟨_, poll_of_failsUpFront hc hf⟩
  · exact ⟨_, poll_of_not_failsUpFront hc hf⟩

theorem report_ne_none_of_over {c : Call} (h : c.over) : c.report ≠ none := by
  obtain ⟨x, hx⟩ := h
  unfold Call.report
  rw [hx]
  cases x <;> simp

/-- Settles O56: from reset the call is led to its end by its own rounds, and no move on the way changes its result. -/
theorem everyCallCanEnd : Obligations.EveryCallCanEnd := by
  intro p e c hc
  obtain ⟨d, hpoll⟩ := poll_of_valid hc p
  have hm := hc.mayDrive
  obtain ⟨hk, _, hin, _⟩ := poll_eq_next hm hpoll
  obtain ⟨edges, hedges⟩ := leadsTo_ended (r := Engine.reset) (ch := Channel.reset) (n := d.input.size) rfl hm hpoll
    (Nat.le_add_left ..)
  obtain ⟨t, ht, _, b, r, ch, hs, hdb, hb, hlog⟩ :=
    hedges { State.reset with params := p, calls := [c], inputs := edges } []
      ⟨rfl, rfl, by cases e <;> rfl, by cases e <;> rfl, fun f _ => by cases f <;> exact Phase.noConfusion⟩ (List.append_nil _).symm
  have hmoves : c.Moves p b := .head (.poll (hk ▸ hm) hpoll) hdb
  refine ⟨_, edges, t, b, ht, hs.calls, ?_, report_ne_none_of_over hb, ?_⟩
  · rw [← verdict_of_over hb p, verdict_of_moves hmoves]
  · rw [hs.channel]
    have hbound : ch.log.length ≤ commandBound e c.input.size := by
      refine hlog.trans ?_
      rw [hin]
      exact (Nat.zero_add _).trans_le (commandBound_mono e (Nat.sub_le ..))
    cases e <;> exact hbound

end Sys2Proof.Machine

/-! ## Every step keeps the invariant (70_reset_and_hazards.md R209; 20_memory.md R56; 43_stream.md R162, R166) -/

namespace Sys2Proof.Machine

/-- What `State.Inv` says of one engine. -/
def engineInv (e : EngineId) (s : State) : Prop :=
  responseMatches e s ∧ logMatches e s ∧ ownerMatches e s

/-! ### What each part of it depends on -/

theorem responseMatches_of_not_done {e : EngineId} {s : State} (h : (s.engine e).phase ≠ .done) :
    responseMatches e s := fun hd => absurd hd h

theorem logMatches_congr {e : EngineId} {s t : State} (hl : (t.channel e).log = (s.channel e).log)
    (hp : t.params = s.params) (h : logMatches e s) : logMatches e t := by
  unfold logMatches
  rw [hl, hp]
  exact h

theorem ownerMatches_of_no_owner {e : EngineId} {s : State} (h : (s.channel e).owner = none) : ownerMatches e s := by
  intro k hk
  rw [h] at hk
  cases hk

/-- An engine that keeps its command works on for the same call. -/
theorem ownerMatches_of_cmd {e : EngineId} {s t : State} (ho : (t.channel e).owner = (s.channel e).owner)
    (hp : (t.engine e).phase ≠ .idle) (hc : (t.engine e).cmd = (s.engine e).cmd) (hk : t.calls = s.calls)
    (h : ownerMatches e s) : ownerMatches e t := by
  intro k hown
  rw [ho] at hown
  rw [hc, hk]
  exact ⟨hp, (h k hown).2⟩

theorem engineInv_congr {e : EngineId} {s t : State} (hs : seenAlike e s t) (h : engineInv e s) : engineInv e t := by
  obtain ⟨hr, hl, ho⟩ := h
  have ho' := ownerMatches_congr hs ho
  obtain ⟨he, hc, hp, _⟩ := hs
  exact ⟨responseMatches_congr he.symm hp.symm hr, logMatches_congr (by rw [hc]) hp.symm hl, ho'⟩

/-! ### One channel's edge -/

/-- The call that presents an offer is one of the state's, and its accepted command is the one it then waits for. -/
def offersCommand (e : EngineId) (o : Option Offer) (s : State) : Prop :=
  ∀ w k d, o = some (w, some (k, d)) →
    k < s.calls.length ∧ d.kind = e ∧ d.i < d.input.size ∧ d.issue = .next (w, d)

theorem offer_offersCommand {e : EngineId} {x : Port} {s u : State} {o : Option Offer}
    (h : offer e x s = .next (u, o)) : offersCommand e o u := by
  intro w k d hod
  subst hod
  rcases offer_eq_next h with ⟨_, ho | ⟨_, _, ho⟩⟩ | ⟨j, c, c1, _, hc, hm, hp, rfl, ⟨hr, w', c2, hi, ho⟩ | ⟨_, ho⟩⟩
  · cases ho
  · cases ho
  · cases ho
    obtain ⟨hk, hk1, _, _, _, _, _, hlt⟩ := poll_eq_next hm hp
    obtain ⟨hlen, _⟩ := List.getElem?_eq_some_iff.1 hc
    obtain ⟨n, _, _, _, _, rfl⟩ := issue_eq_next hi
    exact ⟨by rwa [putCall_calls_length], hk1.trans hk, hlt hr, (issue_setStat c1 _).trans hi⟩
  · cases ho

/-- ACCEPT: no response is pending, and the engine works for the call that presented the word, if one did. -/
theorem acceptOffer_engineInv {e : EngineId} {o : Offer} {n : Nat} {s : State} (hs : engineInv e s)
    (ho : offersCommand e (some o) s) : engineInv e (acceptOffer e o n s) := by
  obtain ⟨_, hl, _⟩ := hs
  obtain ⟨_, hp, _⟩ := acceptOffer_frame e o n s
  refine ⟨responseMatches_of_not_done (by rw [acceptOffer_engine]; exact Phase.noConfusion),
    logMatches_congr (by rw [acceptOffer_channel]) hp hl, ?_⟩
  obtain ⟨w, _ | ⟨k, d⟩⟩ := o
  · exact ownerMatches_of_no_owner (by rw [acceptOffer_channel]; rfl)
  · obtain ⟨hk, hde, hlt, hi⟩ := ho w k d rfl
    obtain ⟨m, hm⟩ := waiting_of_issue hi
    obtain ⟨b, hb, _, heq⟩ := putCall_calls_same (c := d) hk
    obtain rfl : b = d := heq (by simp [hm])
    intro j hj
    rw [acceptOffer_channel] at hj
    cases hj
    rw [acceptOffer_engine]
    exact ⟨Phase.noConfusion, b, by simpa [acceptOffer] using hb, hde, hlt, hi⟩

/-- EXECUTE: the response is the command's. -/
theorem answered_engineInv {e : EngineId} {s : State} (hs : engineInv e s) :
    engineInv e (answered e (engineResponse s.params e (s.engine e).cmd) s) := by
  obtain ⟨_, hl, ho⟩ := hs
  refine ⟨fun _ => by simp, logMatches_congr (by simp) (by simp) hl, ?_⟩
  exact ownerMatches_of_cmd (by simp) (by simp) (by simp) (by simp) ho

theorem tick_engineInv {e : EngineId} {s : State} (hp : (s.engine e).phase = .busy) (hs : engineInv e s) :
    engineInv e (tick e s) := by
  obtain ⟨hr, hl, ho⟩ := hs
  refine ⟨responseMatches_congr (by simp) (by simp) hr, logMatches_congr (by simp) (by simp) hl, ?_⟩
  exact ownerMatches_of_cmd (by simp) (by simp [hp]) (by simp) (by simp) ho

/-- RETIRE: the transaction that goes on record is `w, F_E(w)`, and no command is outstanding. -/
theorem retireEdge_engineInv {e : EngineId} {s t : State} (hp : (s.engine e).phase = .done) (hs : engineInv e s)
    (h : retireEdge e s = .next t) (htp : t.params = s.params) : engineInv e t := by
  obtain ⟨hr, hl, _⟩ := hs
  obtain ⟨he, hlog, hown⟩ := retireEdge_engine h
  refine ⟨responseMatches_of_not_done (by rw [he]; exact Phase.noConfusion), fun x hx => ?_,
    ownerMatches_of_no_owner hown⟩
  rw [hlog] at hx
  rw [htp]
  rcases List.mem_cons.1 hx with rfl | hx
  · exact hr hp
  · exact hl x hx

theorem engineEdge_engineInv {e : EngineId} {x : Port} {o : Option Offer} {s t : State} (hs : engineInv e s)
    (ho : offersCommand e o s) (h : engineEdge e x o s = .next t) : engineInv e t := by
  obtain ⟨_, htp, _⟩ := engineEdge_frame h
  rcases engineEdge_eq_next h with
    ⟨_, _, rfl⟩ | ⟨_, w, rfl, rfl⟩ | ⟨_, _, hx⟩ | ⟨hp, _, rfl⟩ | ⟨_, _, rfl⟩ | ⟨hp, _, hret⟩
  · exact hs
  · exact acceptOffer_engineInv hs ho
  · cases (execute_eq e s).symm.trans hx
    exact answered_engineInv hs
  · exact tick_engineInv hp hs
  · exact hs
  · exact retireEdge_engineInv hp hs hret htp

theorem offer_engineInv {e : EngineId} {x : Port} {s u : State} {o : Option Offer} (hs : engineInv e s)
    (h : offer e x s = .next (u, o)) : engineInv e u := by
  obtain ⟨hr, hl, ho⟩ := hs
  obtain ⟨hE, hC, hp, _⟩ := offer_frame h
  exact ⟨responseMatches_congr (hE e) hp hr, logMatches_congr (by rw [hC]) hp hl, offer_keeps_ownerMatches ho h⟩

/-- A channel's edge keeps what is said of each engine: of its own by what it does, of the other by seeing nothing of it. -/
theorem channelEdge_engineInv {e f : EngineId} {x : Port} {s t : State} (he : engineInv e s) (hf : engineInv f s)
    (h : channelEdge f x s = .next t) : engineInv e t := by
  by_cases hne : f = e
  · subst hne
    obtain ⟨u, o, hu, ht⟩ := channelEdge_eq_next.1 h
    exact engineEdge_engineInv (offer_engineInv he hu) (offer_offersCommand hu) ht
  · obtain ⟨_, _, ho⟩ := hf
    exact engineInv_congr (channelEdge_seenAlike hne ho h) he

/-! ### The calls -/

theorem callOk_of_not_running {c d : Call} (hc : callOk c) (h : c.keepsBuffers d) (hd : d.running = false) :
    callOk d := by
  obtain ⟨hin, hout, _⟩ := hc
  obtain ⟨hi, _, _, _, _, hwf⟩ := h
  exact ⟨by rwa [hi], hwf hout, fun hr => by rw [hd] at hr; cases hr⟩

/-- Every move of a call keeps its buffers canonical and its position in them. -/
theorem callOk_of_move {p : Params} {c d : Call} (hc : callOk c) (h : c.Move p d) : callOk d := by
  cases h with
  | poll hm h =>
    obtain ⟨_, _, _, _, _, _, hok, _⟩ := poll_eq_next hm h
    exact hok hc
  | issue hs _ h =>
    obtain ⟨n, _, _, _, _, rfl⟩ := issue_eq_next h
    obtain ⟨hin, hout, hw⟩ := hc
    exact ⟨hin, hout, fun _ => hw (by simp [Call.running, hs])⟩
  | take _ _ h => exact (callOk_take hc h).1
  | free h n => exact callOk_of_not_running hc (keepsBuffers_freed c n) (by simp [Call.running, h])

theorem callOk_of_moves {p : Params} {c d : Call} (hc : callOk c) (h : c.Moves p d) : callOk d := by
  induction h with
  | refl => exact hc
  | tail _ hm ih => exact callOk_of_move ih hm

/-- A call that stands in the next state stood, as some call, in the state before. -/
theorem step_calls_isSome {s t : State} {k : Nat} {d : Call} (h : step s = .next t) (hd : t.calls[k]? = some d) :
    ∃ c, s.calls[k]? = some c := by
  obtain ⟨_, _, hlen⟩ := parametersNeverChange s t h
  obtain ⟨hk, _⟩ := List.getElem?_eq_some_iff.1 hd
  exact ⟨_, List.getElem?_eq_getElem (hlen ▸ hk)⟩

/-! ### The step -/

theorem resetEdge_engineInv {e : EngineId} {s : State} (hs : engineInv e s) : engineInv e (resetEdge s) := by
  obtain ⟨_, hl, _⟩ := hs
  exact ⟨responseMatches_of_not_done (by rw [resetEdge_engine]; exact Phase.noConfusion),
    logMatches_congr (by simp) (by simp) hl, ownerMatches_of_no_owner (by simp)⟩

theorem step_engineInv {s t : State} (hs : ∀ e, engineInv e s) (h : step s = .next t) (e : EngineId) :
    engineInv e t := by
  have hpop f : engineInv f s.popEdge := engineInv_congr (seenAlike_popEdge f s) (hs f)
  rcases step_eq_next.1 h with ⟨_, rfl⟩ | ⟨_, u, hu, ht⟩
  · exact resetEdge_engineInv (hpop e)
  · have hmid f : engineInv f u := channelEdge_engineInv (hpop f) (hpop .enc) hu
    exact channelEdge_engineInv (hmid e) (hmid .dec) ht

/-- A reset cuts a running call and frees its `OUT`; any other edge moves a call on. -/
theorem step_callOk {s t : State} {k : Nat} {c d : Call} (hi : s.Inv) (h : step s = .next t)
    (hc : s.calls[k]? = some c) (hd : t.calls[k]? = some d) : callOk d := by
  have hok : callOk c := hi.2 c (List.mem_of_getElem? hc)
  cases hr : s.edge.rst with
  | true =>
    cases (step_of_rst hr).symm.trans h
    obtain ⟨m, hm⟩ := getElem_cutCalls (n := s.popEdge.free) hc
    cases hm.symm.trans hd
    split
    · exact callOk_of_not_running hok ((keepsBuffers_freed c m).trans (keepsBuffers_setStat _ .cut)) rfl
    · exact hok
  | false =>
    obtain ⟨b, hb, hcb⟩ := step_callsMove hi hr h k c hc
    cases hb.symm.trans hd
    exact callOk_of_moves hok hcb

/-- Settles O44: engine by engine through the two channels' edges, and call by call through its moves. -/
theorem stepKeepsTheInvariant : Obligations.StepKeepsTheInvariant := by
  intro s t hi h
  refine ⟨step_engineInv hi.1 h, fun d hd => ?_⟩
  obtain ⟨k, hk⟩ := List.getElem?_of_mem hd
  obtain ⟨c, hc⟩ := step_calls_isSome h hk
  exact step_callOk hi h hc hk

end Sys2Proof.Machine

/-! ## Reset (70_reset_and_hazards.md R196 to R198) -/

namespace Sys2Proof.Machine

/-- Settles O32: the step is the reset edge, which says it field by field. -/
theorem resetEdgeResetsBothEngines : Obligations.ResetEdgeResetsBothEngines :=
  fun _ h => ⟨_, step_of_rst h, fun e => ⟨resetEdge_engine _ e, by simp, by simp⟩, rfl, rfl⟩

/-- Settles O33: what the reset edge leaves of the call, by whether it is running. -/
theorem resetEdgeCutsRunningCalls : Obligations.ResetEdgeCutsRunningCalls := by
  intro s k c hr hc
  obtain ⟨m, hm⟩ := getElem_cutCalls (n := s.popEdge.free) hc
  refine ⟨_, _, step_of_rst hr, hm, fun hrun => ?_, fun hrun => ?_⟩
  · rw [if_pos hrun]
    exact ⟨rfl, rfl, rfl, rfl⟩
  · exact if_neg (by simp [hrun])

/-! ## The three steps of an engine at an edge without reset (70_reset_and_hazards.md R201 to R204, R207, R208) -/

/-- What the host offers on a channel whose port names a raw word. -/
theorem offer_of_word {e : EngineId} {x : Port} {w : Word} (hx : x.req = some (.word w)) (s : State) :
    offer e x s = .next (s, some (w, none)) := by
  simp only [offer, hx]

/-- An `IDLE` engine's edge in a step is ACCEPT of the word that is offered at it: a raw word in every state, a call's
under the invariant, since the call is then the same after the other channel's edge. -/
theorem step_acceptOffer {e : EngineId} {s t : State} {w : Word} (hr : s.edge.rst = false) (h : step s = .next t)
    (hp : (s.engine e).phase = .idle)
    (hw : (s.edge.port e).req = some (.word w) ∨
      (s.Inv ∧ ∃ u k c, offer e (s.edge.port e) s.popEdge = .next (u, some (w, some (k, c))))) :
    ∃ u b, u.engine e = s.engine e ∧ u.params = s.params ∧
      t.engine e = (acceptOffer e (w, b) (s.edge.port e).extra u).engine e ∧
      t.channel e = (acceptOffer e (w, b) (s.edge.port e).extra u).channel e := by
  rcases hw with hw | ⟨hi, u', k, c, hu'⟩
  · obtain ⟨u, u', v, o, ho, hv, he, _, hpar, hte, htc⟩ := step_own_channel hr h e
    cases (offer_of_word hw u).symm.trans ho
    cases (engineEdge_of_idle_some (by rw [he, hp]) _ _).symm.trans hv
    exact ⟨u, none, he, hpar, hte, htc⟩
  · obtain ⟨u, v, hsu, hv, hte, htc⟩ := step_own_edge hi hr h e
    obtain ⟨_, _, hpopu, hagree⟩ := (seenAlike_popEdge e s).symm.trans hsu
    obtain ⟨hsue, _, hsup, _⟩ := hsu
    obtain ⟨z, o, hz, hv⟩ := channelEdge_eq_next.1 hv
    obtain ⟨hE, _, hpar, _⟩ := offer_frame hz
    have he : z.engine e = s.engine e := (hE e).trans hsue.symm
    obtain rfl := offer_congr hpopu hagree hu' hz
    cases (engineEdge_of_idle_some (by rw [he, hp]) _ _).symm.trans hv
    exact ⟨z, some (k, c), he, hpar.trans hsup.symm, hte, htc⟩

/-- Settles O34: ACCEPT of the word offered writes `cmd`, the phase and the edges to wait. -/
theorem idleEngineAcceptsTheWordPresented : Obligations.IdleEngineAcceptsTheWordPresented := by
  intro e s t w hr h hp hw
  obtain ⟨u, b, he, hpar, hte, htc⟩ := step_acceptOffer hr h hp hw
  rw [acceptOffer_engine, he] at hte
  rw [acceptOffer_channel, hpar] at htc
  rw [hte, htc]
  refine ⟨rfl, rfl, rfl, ?_⟩
  dsimp only
  omega

/-- Settles O35: the engine's edge is EXECUTE if nothing is left to wait for, else one edge of the countdown. -/
theorem busyEngineExecutesOrWaits : Obligations.BusyEngineExecutesOrWaits := by
  intro e s t hr h hp
  obtain ⟨_, u, v, o, _, hv, he, hc, hpar, hte, htc⟩ := step_own_channel hr h e
  rw [engineEdge_of_busy (by rw [he, hp]), hc] at hv
  refine ⟨fun hw => ?_, fun n hn => ?_⟩
  · rw [if_pos hw, execute_eq, hpar, he] at hv
    cases hv
    rw [hte, answered_engine_same, he]
  · rw [hn, if_neg (Nat.succ_ne_zero n)] at hv
    cases hv
    rw [hte, htc, tick_engine, tick_channel_same, hc, hn]
    exact ⟨he, rfl⟩

/-- Settles O36: the engine's edge is RETIRE if the response is taken, else nothing. -/
theorem doneEngineRetiresWhenTaken : Obligations.DoneEngineRetiresWhenTaken := by
  intro e s t hr h hp
  obtain ⟨_, u, v, o, _, hv, he, hc, _, hte, htc⟩ := step_own_channel hr h e
  rw [engineEdge_of_done (by rw [he, hp])] at hv
  refine ⟨fun hx => ?_, fun hx => ?_⟩
  · rw [if_pos hx] at hv
    obtain ⟨hve, hlog, _⟩ := retireEdge_engine hv
    rw [hte, htc, hve, hlog, he, hc]
    exact ⟨rfl, rfl⟩
  · rw [hx, if_neg Bool.false_ne_true] at hv
    cases hv
    exact ⟨hte.trans he, htc.trans hc⟩

/-! ### A call that has passed its loop test, at an edge at which no command of it is accepted -/

/-- A call whose turn it is and that has passed its loop test is stored as it is. -/
theorem offer_keeps_tested {e : EngineId} {x : Port} {s u : State} {o : Option Offer} {k : Nat} {c : Call}
    (h : offer e x s = .next (u, o)) (hc : s.calls[k]? = some c) (ht : c.tested) : u.calls[k]? = some c := by
  rcases offer_eq_next h with ⟨rfl, _⟩ | ⟨j, b, b1, _, hb, hm, hp, rfl, _⟩
  · exact hc
  · by_cases hj : k = j
    · subst hj
      cases hb.symm.trans hc
      cases (poll_of_tested ht s.params).symm.trans hp
      obtain ⟨hk, _⟩ := List.getElem?_eq_some_iff.1 hc
      obtain ⟨d, hd, _, heq⟩ := putCall_calls_same (c := c) (s := s) hk
      rw [hd, heq fun y hy => by rcases stat_of_mayDrive hm with hs | hs <;> simp [hs] at hy]
    · rw [putCall_calls_other hj, hc]

/-- A call that presents a word has a turn. -/
theorem mayDrive_of_offer {e : EngineId} {x : Port} {s u : State} {w : Word} {k : Nat} {d : Call}
    (h : offer e x s = .next (u, some (w, some (k, d)))) : ∃ c, s.calls[k]? = some c ∧ c.mayDrive e = true := by
  rcases offer_eq_next h with ⟨_, ho | ⟨_, _, ho⟩⟩ | ⟨j, c, c1, _, hc, hm, _, _, ⟨_, w', c2, _, ho⟩ | ⟨_, ho⟩⟩
  · cases ho
  · cases ho
  · cases ho
    exact ⟨c, hc, hm⟩
  · cases ho

/-- An engine's edge changes only the call it accepts a word from and the one that waits for its response. -/
theorem engineEdge_keeps_call {e : EngineId} {x : Port} {o : Option Offer} {s t : State} {k : Nat} {c : Call}
    (h : engineEdge e x o s = .next t) (hc : s.calls[k]? = some c) (hw : ∀ n, c.stat ≠ .waiting n)
    (ho : (s.engine e).phase = .idle → ∀ w d, o ≠ some (w, some (k, d))) : t.calls[k]? = some c := by
  rcases engineEdge_eq_next h with
    ⟨_, _, rfl⟩ | ⟨hp, ⟨w, _ | ⟨j, d⟩⟩, rfl, rfl⟩ | ⟨_, _, hx⟩ | ⟨_, _, rfl⟩ | ⟨_, _, rfl⟩ | ⟨_, _, hret⟩
  · exact hc
  · simpa [acceptOffer] using hc
  · have hj : k ≠ j := by
      rintro rfl
      exact ho hp w d rfl
    simpa [acceptOffer, putCall_calls_other hj] using hc
  · cases (execute_eq e s).symm.trans hx
    simpa using hc
  · simpa using hc
  · exact hc
  · rcases retireEdge_eq_next hret with rfl | ⟨j, b, n, d, _, hb, hn, _, rfl⟩
    · simpa using hc
    · have hj : k ≠ j := by
        rintro rfl
        cases hb.symm.trans hc
        exact hw n hn
      simpa [putCall_calls_other hj] using hc

theorem not_waiting_of_tested {c : Call} (h : c.tested) (n : Nat) : c.stat ≠ .waiting n := by
  rcases h with ⟨hs, _⟩ | ⟨r, hr⟩
  · simp [hs]
  · simp [hr]

theorem ready_of_mayDrive {c : Call} {e : EngineId} (h : c.tested) (hm : c.mayDrive e = true) : c.stat = .ready := by
  rcases h with ⟨hs, _⟩ | ⟨r, hr⟩
  · exact hs
  · rcases stat_of_mayDrive hm with hs | hs <;> simp [hr] at hs

/-- A channel's edge leaves a call that has passed its loop test alone, unless it is the channel's own, has a command to
present and the engine is `IDLE`. -/
theorem channelEdge_keeps_tested {e : EngineId} {x : Port} {s t : State} {k : Nat} {c : Call}
    (h : channelEdge e x s = .next t) (hc : s.calls[k]? = some c) (ht : c.tested)
    (hn : c.stat = .ready → c.kind = e → (s.engine e).phase ≠ .idle) : t.calls[k]? = some c := by
  obtain ⟨u, o, hu, hv⟩ := channelEdge_eq_next.1 h
  obtain ⟨hE, _⟩ := offer_frame hu
  refine engineEdge_keeps_call hv (offer_keeps_tested hu hc ht) (not_waiting_of_tested ht) fun hidle w d ho => ?_
  subst ho
  obtain ⟨b, hb, hm⟩ := mayDrive_of_offer hu
  cases hb.symm.trans hc
  rw [hE] at hidle
  exact hn (ready_of_mayDrive ht hm) (mayDrive_kind hm) hidle

/-- An edge without reset leaves a call that has passed its loop test alone, unless it has a command to present and its
engine is `IDLE`. -/
theorem step_keeps_tested {s t : State} {k : Nat} {c : Call} (hr : s.edge.rst = false) (h : step s = .next t)
    (hc : s.calls[k]? = some c) (ht : c.tested) (hn : c.stat = .ready → (s.engine c.kind).phase ≠ .idle) :
    t.calls[k]? = some c := by
  rcases step_eq_next.1 h with ⟨hrst, _⟩ | ⟨_, u, hu, hv⟩
  · rw [hr] at hrst
    cases hrst
  · obtain ⟨hother, _⟩ := channelEdge_frame hu
    obtain ⟨hdec, _⟩ := hother .dec (by decide)
    rw [popEdge_engine] at hdec
    have hmid : u.calls[k]? = some c := channelEdge_keeps_tested hu hc ht fun hs hk => by
      rw [popEdge_engine, ← hk]
      exact hn hs
    refine channelEdge_keeps_tested hv hmid ht fun hs hk => ?_
    rw [hdec, ← hk]
    exact hn hs

/-- Settles O37: the engine's registers make no ACCEPT, and a call between groups is left alone. -/
theorem busyChannelNeitherAcceptsNorLoses : Obligations.BusyChannelNeitherAcceptsNorLoses := by
  intro e s t hr h hp
  obtain ⟨hphase, hcmd, _⟩ := (step_move hr h e).registers
  refine ⟨by simpa [reqReady] using hp, ?_, fun hd hb => ?_, fun k c hc hk hs hlt => ?_⟩
  · by_contra hne
    exact hp (hcmd hne).1
  · rw [hd, hb] at hphase
    simp at hphase
  · exact step_keeps_tested hr h hc (.inl ⟨hs, hlt⟩) fun _ => hk ▸ hp

/-! ## A `BUSY` engine completes (70_reset_and_hazards.md R202, R207, R208) -/

theorem overlaps_of_keepsBuffers {c d : Call} (h : c.keepsBuffers d) : d.overlaps = c.overlaps := by
  obtain ⟨hin, hout, _, hia, hoa, _⟩ := h
  simp only [Call.overlaps, hin, hout, hia, hoa]

theorem step_keeps_no_overlap {s t : State} (hi : s.Inv) (ho : ∀ c ∈ s.calls, c.overlaps = false)
    (h : step s = .next t) : ∀ d ∈ t.calls, d.overlaps = false := by
  intro d hd
  obtain ⟨k, hk⟩ := List.getElem?_of_mem hd
  obtain ⟨c, hc⟩ := step_calls_isSome h hk
  obtain ⟨b, hb, hcb⟩ := step_keepsBuffers hi h hc
  cases hb.symm.trans hk
  exact (overlaps_of_keepsBuffers hcb).trans (ho c (List.mem_of_getElem? hc))

theorem mem_take_of_mem_take_tail {α : Type} {x : α} {l : List α} {n : Nat} (h : x ∈ l.tail.take n) :
    x ∈ l.take (n + 1) := by
  cases l with
  | nil => simp at h
  | cons y ys => exact List.mem_cons_of_mem y h

theorem edge_rst_of_take {s : State} {n : Nat} (h : ∀ x ∈ s.inputs.take (n + 1), x.rst = false) :
    s.edge.rst = false := by
  unfold State.edge
  cases hin : s.inputs with
  | nil => rfl
  | cons x xs => exact h x (by simp [hin])

theorem step_isNext {s : State} (hi : s.Inv) (ho : ∀ c ∈ s.calls, c.overlaps = false) : ∃ t, step s = .next t := by
  obtain ⟨_, _, hnext⟩ := stepStopsOnlyForOverlap s hi
  exact hnext ho

/-- Settles O40: the last edge is EXECUTE, and each edge of the countdown before it keeps what the next one needs. -/
theorem busyEngineCompletes : Obligations.BusyEngineCompletes := by
  intro e s n
  induction n generalizing s with
  | zero =>
    intro hi ho hp hw hin
    obtain ⟨t, ht⟩ := step_isNext hi ho
    obtain ⟨hexec, _⟩ := busyEngineExecutesOrWaits e s t (edge_rst_of_take hin) ht hp
    refine ⟨fun j hj => ⟨s, by rw [Nat.le_zero.1 hj, runSteps], rfl⟩, t, by rw [runSteps, ht]; rfl, ?_⟩
    rw [hexec hw]
    exact ⟨rfl, rfl⟩
  | succ n ih =>
    intro hi ho hp hw hin
    obtain ⟨t, ht⟩ := step_isNext hi ho
    obtain ⟨_, hwait⟩ := busyEngineExecutesOrWaits e s t (edge_rst_of_take hin) ht hp
    obtain ⟨hte, htw⟩ := hwait n hw
    obtain ⟨hpar, hint, _⟩ := parametersNeverChange s t ht
    have hrun m : runSteps (m + 1) s = runSteps m t := by rw [runSteps, ht, andThen_next]
    have hrest : ∀ x ∈ t.inputs.take (n + 1), x.rst = false := fun x hx =>
      hin x (mem_take_of_mem_take_tail (hint ▸ hx))
    obtain ⟨hkeep, u, hu, hd, hrsp⟩ := ih t (stepKeepsTheInvariant s t hi ht) (step_keeps_no_overlap hi ho ht)
      (by rw [hte, hp]) htw hrest
    refine ⟨fun j hj => ?_, u, by rw [hrun, hu], hd, by rw [hrsp, hpar, hte]⟩
    cases j with
    | zero => exact ⟨s, rfl, rfl⟩
    | succ j =>
      obtain ⟨v, hv, hve⟩ := hkeep j (Nat.le_of_succ_le_succ hj)
      exact ⟨v, by rw [hrun, hv], hve.trans hte⟩

end Sys2Proof.Machine

/-! ## A run that is over stands still (70_reset_and_hazards.md R210; 60_exceptions.md R190) -/

namespace Sys2Proof.Machine

/-- Where the host's turn gives an offer, it gives the same one in every state that agrees on the channel's calls and the
parameters. -/
theorem offer_next_congr {e : EngineId} {x : Port} {s s' u : State} {o : Option Offer} (hp : s.params = s'.params)
    (hs : callsAgree e s s') (h : offer e x s = .next (u, o)) : ∃ u', offer e x s' = .next (u', o) := by
  rcases offer_turn e x s with ⟨p, ho⟩ | ⟨k, c, hx, hc, hm⟩
  · cases (ho s (callsAgree.refl e s)).symm.trans h
    exact ⟨s', ho s' hs⟩
  · rw [offer_of_mayDrive hx hc hm, hp] at h
    obtain ⟨c1, hc1, h⟩ := andThen_eq_next.1 h
    rw [offer_of_mayDrive hx ((hs k c (mayDrive_kind hm)).1 hc) hm, hc1, andThen_next]
    split at h
    · next hr =>
      obtain ⟨wc, hi, h⟩ := andThen_eq_next.1 h
      cases h
      exact ⟨_, by rw [if_pos hr, hi, andThen_next]⟩
    · next hr =>
      cases h
      exact ⟨_, if_neg hr⟩

/-- What becomes of a call at an edge at which no word of it is presented: nothing, or it returns. -/
def Call.restsOrReturns (c d : Call) : Prop :=
  d = c ∨ ((c.stat = .start ∨ c.stat = .ready) ∧ d.over)

theorem Call.restsOrReturns.trans {b c d : Call} (h : b.restsOrReturns c) (h' : c.restsOrReturns d) :
    b.restsOrReturns d := by
  rcases h' with rfl | ⟨hs, hd⟩
  · exact h
  · rcases h with rfl | ⟨_, r, hr⟩
    · exact .inr ⟨hs, hd⟩
    · rcases hs with hs | hs <;> simp [hr] at hs

/-- A call that has its turn and presents no word has returned. -/
theorem offer_none_calls {e : EngineId} {x : Port} {s u : State} {k : Nat} {c : Call}
    (h : offer e x s = .next (u, none)) (hc : s.calls[k]? = some c) :
    ∃ d, u.calls[k]? = some d ∧ c.restsOrReturns d := by
  rcases offer_eq_next h with ⟨rfl, _⟩ | ⟨j, b, b1, _, hb, hm, hp, rfl, ⟨_, _, _, _, ho⟩ | ⟨hr, _⟩⟩
  · exact ⟨c, hc, .inl rfl⟩
  · cases ho
  · by_cases hj : k = j
    · subst hj
      cases hb.symm.trans hc
      obtain ⟨r, hb1⟩ : b1.over := (tested_of_poll hm hp).resolve_left fun h => hr h.1
      obtain ⟨hk, _⟩ := List.getElem?_eq_some_iff.1 hc
      obtain ⟨out, n, hput, _⟩ := putCall_eq k b1 s
      exact ⟨{ b1 with output := out }, by simp [hput, hk], .inr ⟨stat_of_mayDrive hm, r, hb1⟩⟩
    · exact ⟨c, by rw [putCall_calls_other hj, hc], .inl rfl⟩

/-- With its engine `IDLE` and no word presented, a channel's edge is the host's turn alone. -/
theorem channelEdge_eq_offer {e : EngineId} {s s' t : State} (hp : (s'.engine e).phase = .idle)
    (hd : s.reqData e = none) (hpar : s'.params = s.params) (hs : callsAgree e s' s.popEdge)
    (h : channelEdge e (s.edge.port e) s' = .next t) : offer e (s.edge.port e) s' = .next (t, none) := by
  obtain ⟨u, o, hu, ht⟩ := channelEdge_eq_next.1 h
  obtain ⟨hE, _⟩ := offer_frame hu
  obtain ⟨_, hu'⟩ := offer_next_congr (s' := s.popEdge) hpar hs hu
  obtain rfl := offer_of_reqData_none hd hu'
  cases (engineEdge_of_idle_none (by rw [hE, hp]) _).symm.trans ht
  exact hu

/-- The step of a run that is over is the two turns of the host. -/
theorem step_of_runOver {s t : State} (ho : s.runOver) (hr : s.edge.rst = false) (h : step s = .next t) :
    ∃ u, offer .enc s.edge.enc s.popEdge = .next (u, none) ∧ offer .dec s.edge.dec u = .next (t, none) := by
  obtain ⟨hpe, hde⟩ := ho .enc
  obtain ⟨hpd, hdd⟩ := ho .dec
  rcases step_eq_next.1 h with ⟨hrst, _⟩ | ⟨_, u, hu, ht⟩
  · rw [hr] at hrst
    cases hrst
  · have henc : offer .enc (s.edge.port .enc) s.popEdge = .next (u, none) :=
      channelEdge_eq_offer hpe hde rfl (callsAgree.refl .enc _) hu
    obtain ⟨hE, _, hpar, _⟩ := offer_frame henc
    have hagree : callsAgree .dec s.popEdge u := offer_callsAgree (by decide) henc
    exact ⟨u, henc, channelEdge_eq_offer (by rw [hE]; exact hpd) hdd hpar (fun k c hc => (hagree k c hc).symm) ht⟩

/-- With its engine `IDLE`, no word presented and no call's turn, a channel's edge does nothing. -/
theorem channelEdge_of_no_turn {e : EngineId} {s : State} (hp : (s.engine e).phase = .idle) (hd : s.reqData e = none)
    (hm : ∀ (k : Nat) (c : Call), (s.edge.port e).req = some (.call k) → s.calls[k]? = some c → c.mayDrive e = false) :
    channelEdge e (s.edge.port e) s.popEdge = .next s.popEdge := by
  rcases offer_turn e (s.edge.port e) s.popEdge with ⟨o, ho⟩ | ⟨k, c, hx, hc, hdrive⟩
  · have hu := ho s.popEdge (callsAgree.refl e _)
    obtain rfl := offer_of_reqData_none hd hu
    exact channelEdge_eq_next.2 ⟨_, _, hu, engineEdge_of_idle_none (by rwa [popEdge_engine]) _⟩
  · rw [hm k c hx hc] at hdrive
    cases hdrive

/-- At no edge, also one with reset, does a call that has returned change. -/
theorem step_keeps_over {s t : State} {k : Nat} {c : Call} (h : step s = .next t) (hc : s.calls[k]? = some c)
    (ho : c.over) : t.calls[k]? = some c := by
  have ⟨r, hstat⟩ := ho
  cases hr : s.edge.rst with
  | true =>
    cases (step_of_rst hr).symm.trans h
    obtain ⟨m, hm⟩ := getElem_cutCalls (n := s.popEdge.free) hc
    rwa [if_neg (by simp [Call.running, hstat])] at hm
  | false => exact step_keeps_tested hr h hc (.inr ho) fun hs => by simp [hstat] at hs

/-- Settles O41: the step of a run that is over is the host's two turns, which return calls or do nothing. -/
theorem finishedRunStandsStill : Obligations.FinishedRunStandsStill := by
  refine ⟨fun s t ho hr h => ?_, fun s ho hr hm => ?_, fun s t k c h hc hover => step_keeps_over h hc hover⟩
  · obtain ⟨u, henc, hdec⟩ := step_of_runOver ho hr h
    obtain ⟨hE, hC, _⟩ := offer_frame henc
    obtain ⟨hE', hC', _⟩ := offer_frame hdec
    obtain ⟨hpar, hin, _⟩ := parametersNeverChange s t h
    refine ⟨fun e => ⟨?_, ?_⟩, hpar, hin, fun k c hc => ?_⟩
    · rw [hE', hE, popEdge_engine]
    · rw [hC', hC, popEdge_channel]
    · obtain ⟨b, hb, hcb⟩ := offer_none_calls henc hc
      obtain ⟨d, hd, hbd⟩ := offer_none_calls hdec hb
      exact ⟨d, hd, hcb.trans hbd⟩
  · have hnone e : channelEdge e (s.edge.port e) s.popEdge = .next s.popEdge := by
      obtain ⟨hp, hd⟩ := ho e
      exact channelEdge_of_no_turn hp hd (hm e)
    exact step_eq_next.2 (.inr ⟨hr, s.popEdge, hnone .enc, hnone .dec⟩)

end Sys2Proof.Machine

/-! ## The commands' frame, and the step that executes a command (70_reset_and_hazards.md R202; 60_exceptions.md R182) -/

namespace Sys2Proof.Machine

/-- Settles O28: a command's next state is the one in which its engine has answered. -/
theorem commandsChangeOnlyTheirResponse : Obligations.CommandsChangeOnlyTheirResponse := by
  intro i s t h
  obtain ⟨r, hr⟩ := exec_answers i s
  cases hr.symm.trans h
  refine ⟨by simp, by simp, fun e he => answered_engine_other he r s, fun e => by simp, by simp, by simp, by simp,
    by simp, fun k c d hc hd a => ?_⟩
  rw [answered_calls, hc] at hd
  cases hd
  exact ⟨rfl, rfl⟩

theorem execute_of_decodeFor {e : EngineId} {s : State} {i : Instr} (h : decodeFor e (s.engine e).cmd = .ok i) :
    execute e s = exec i s := by
  unfold execute
  rw [h]

/-- An engine with nothing left to wait for executes its command, whatever stands on its request channel. -/
theorem engineEdge_of_due {e : EngineId} {s : State} {i : Instr} (hp : (s.engine e).phase = .busy)
    (hw : (s.channel e).wait = 0) (hd : decodeFor e (s.engine e).cmd = .ok i) (x : Port) (o : Option Offer) :
    engineEdge e x o s = exec i s := by
  rw [engineEdge_of_busy hp, if_pos hw, execute_of_decodeFor hd]

theorem channelEdge_of_due {e : EngineId} {x : Port} {s : State} {i : Instr} (hx : x.req = none)
    (hp : (s.engine e).phase = .busy) (hw : (s.channel e).wait = 0) (hd : decodeFor e (s.engine e).cmd = .ok i) :
    channelEdge e x s = exec i s := by
  rw [channelEdge_of_no_request hx, engineEdge_of_due hp hw hd]

theorem channelEdge_of_idle {e : EngineId} {x : Port} {s : State} (hx : x.req = none)
    (hp : (s.engine e).phase = .idle) : channelEdge e x s = .next s := by
  rw [channelEdge_of_no_request hx, engineEdge_of_idle_none hp]

theorem step_of_no_rst {s : State} (h : s.edge.rst = false) :
    step s = andThen (channelEdge .enc s.edge.enc s.popEdge) (channelEdge .dec s.edge.dec) := by
  unfold step clockEdge
  rw [h, if_neg Bool.false_ne_true]

/-- A command of one engine leaves the other engine's registers and channel alone. -/
theorem exec_keeps_other {i : Instr} {s t : State} {e : EngineId} (he : e ≠ i.engine) (h : exec i s = .next t) :
    t.engine e = s.engine e ∧ t.channel e = s.channel e := by
  obtain ⟨_, _, hother, hch, _⟩ := commandsChangeOnlyTheirResponse i s t h
  exact ⟨hother e he, hch e⟩

/-- Settles O29: each channel's edge is EXECUTE if its engine is due, and nothing if it is `IDLE`. -/
theorem stepRunsTheDecodedCommand : Obligations.StepRunsTheDecodedCommand := by
  refine ⟨fun e x o s i hp hw hd => engineEdge_of_due hp hw hd x o, fun e s i hr hxe hxd hp hw hd hidle => ?_,
    fun s i j hr hxe hxd hpe hpd hwe hwd hde hdd => ?_⟩
  · obtain ⟨r, hexec⟩ := exec_answers i s.popEdge
    rw [← popEdge_engine] at hp hd
    rw [← popEdge_channel] at hw
    rw [step_of_no_rst hr]
    cases e with
    | enc =>
      obtain ⟨hdec, _⟩ := exec_keeps_other (e := .dec) (by rw [decodeFor_engine hd]; decide) hexec
      rw [channelEdge_of_due hxe hp hw hd, hexec, andThen_next]
      exact channelEdge_of_idle hxd (by rw [hdec]; exact hidle .dec (by decide))
    | dec =>
      have henc : channelEdge .enc s.edge.enc s.popEdge = .next s.popEdge :=
        channelEdge_of_idle hxe (hidle .enc (by decide))
      rw [henc, andThen_next, channelEdge_of_due hxd hp hw hd]
  · obtain ⟨r, hexec⟩ := exec_answers i s.popEdge
    have henc : channelEdge .enc s.edge.enc s.popEdge = exec i s.popEdge := channelEdge_of_due hxe hpe hwe hde
    obtain ⟨hdec, hch⟩ := exec_keeps_other (e := .dec) (by rw [decodeFor_engine hde]; decide) hexec
    rw [step_of_no_rst hr, henc, hexec, andThen_next, andThen_next]
    exact channelEdge_of_due hxd (by rw [hdec]; exact hpd) (by rw [hch]; exact hwd) (by rw [hdec]; exact hdd)

end Sys2Proof.Machine
